-- ==== Sys2Proof/Word.lean ====
section
/-! DEFINITION. The value types of the machine: the byte, the word, and the eight independent flags of the
status register (spec/00_scope.md R7 and R9, spec/10_state.md R36). -/

namespace Sys2Proof

/-- DATA_WIDTH: a byte, 0..255 (R7, R9). -/
abbrev Byte := BitVec 8

/-- ADDR_WIDTH: a word, 0..65535, the type of the program counter and of every bus address (R7, R9). -/
abbrev Word := BitVec 16

/-- The status register: eight independently stored flags (R36), listed from bit 7 of the status byte down to bit 0. -/
structure Flags where
  /-- P.N, negative, bit 7 -/
  n : Bool
  /-- P.V, overflow, bit 6 -/
  v : Bool
  /-- P.U, unused, bit 5: stored, not a constant 1 (R36) -/
  u : Bool
  /-- P.B, break, bit 4 -/
  b : Bool
  /-- P.D, decimal, bit 3 -/
  d : Bool
  /-- P.I, interrupt-disable, bit 2 -/
  i : Bool
  /-- P.Z, zero, bit 1 -/
  z : Bool
  /-- P.C, carry, bit 0 -/
  c : Bool
deriving DecidableEq, Repr

end Sys2Proof
end

