-- ==== Sys2Proof/Machine/Bits.lean ====
section
/-! DEFINITION. The slices and extensions of spec/00_scope.md R9. -/

namespace Sys2Proof

/-- `w[7:0]` (R9). -/
def lo8 (w : Word) : Byte := w.setWidth 8

/-- `w[15:8]` (R9). -/
def hi8 (w : Word) : Byte := w.extractLsb' 8 8

/-- `hi*256 + lo` (R9). -/
def word (hi lo : Byte) : Word := hi ++ lo

/-- A byte as an unsigned word (R9). -/
def zext16 (b : Byte) : Word := b.setWidth 16

/-- A byte as a signed two's-complement word (R9). -/
def sext16 (b : Byte) : Word := b.signExtend 16

/-- A boolean as a bit, 1 or 0 (R9). -/
def boolBit (b : Bool) : Nat := if b then 1 else 0

end Sys2Proof
end

