-- ==== Sys2Proof/Syntax.lean ====
section
/-! DEFINITION. The instruction syntax. A row of the opcode table is a mnemonic in one addressing mode (R103, R105);
"the semantics of a descriptor depend only on its mnemonic and mode" (R107). So `Instr` has one constructor per
mnemonic of the table, and the operand it carries is tagged with the mode: the 151 documented rows are the pairs
of a constructor and a mode that `Instr.wellFormed` accepts, and the 105 UNIMPLEMENTED rows are the opcode bytes of the
constructor `unimplemented` (notes/assumptions/6.md). -/

namespace Sys2Proof

/-- The 13 addressing modes (R124..R137, C1). -/
inductive Mode where
  | imp  -- implied, R125
  | acc  -- accumulator, R126
  | imm  -- immediate, R127
  | abs  -- absolute, R128
  | ind  -- indirect, R129
  | abx  -- absolute-X, R130
  | aby  -- absolute-Y, R131
  | zp   -- zero-page, R132
  | zpx  -- zero-page-X, R133
  | izx  -- indexed-indirect, R134
  | izy  -- indirect-indexed, R135
  | zpy  -- zero-page-Y, R136
  | rel  -- relative, R137
deriving DecidableEq, Repr

/-- The 56 documented mnemonics (R2, R105). -/
inductive Mnemonic where
  | lda | ldx | ldy | sta | stx | sty | tax | tay | txa | tya | tsx | txs | pha | php | pla | plp | adc | sbc
  | and | ora | eor | bit | cmp | cpx | cpy | inc | dec | inx | iny | dex | dey | asl | lsr | rol | ror | jmp
  | jsr | rts | bpl | bmi | bvc | bvs | bcc | bcs | bne | beq | brk | rti | nop | clc | cld | cli | clv | sec
  | sed | sei
deriving DecidableEq, Repr

/-- An operand in its mode, with the operand bytes of the instruction stream (R100, R101): imm8, zp8 and rel8 are
byte 1, abs16 is bytes 1 and 2. -/
inductive Operand where
  | imp
  | acc
  | imm (value : Byte)
  | abs (address : Word)
  | ind (pointer : Word)
  | abx (base : Word)
  | aby (base : Word)
  | zp (address : Byte)
  | zpx (base : Byte)
  | izx (base : Byte)
  | izy (pointer : Byte)
  | zpy (base : Byte)
  | rel (offset : Byte)
deriving DecidableEq, Repr

/-- An instruction: its mnemonic's constructor, and its operand where the mnemonic has a choice of modes. A branch
carries its rel8, JSR its abs16; a mnemonic that exists in implied mode only carries nothing. -/
inductive Instr where
  /-- LDA, load accumulator (R160). -/
  | lda (o : Operand)
  /-- LDX, load X (R161). -/
  | ldx (o : Operand)
  /-- LDY, load Y (R162). -/
  | ldy (o : Operand)
  /-- STA, store accumulator (R163). -/
  | sta (o : Operand)
  /-- STX, store X (R164). -/
  | stx (o : Operand)
  /-- STY, store Y (R165). -/
  | sty (o : Operand)
  /-- TAX, transfer A to X (R166). -/
  | tax
  /-- TAY, transfer A to Y (R167). -/
  | tay
  /-- TXA, transfer X to A (R168). -/
  | txa
  /-- TYA, transfer Y to A (R169). -/
  | tya
  /-- TSX, transfer SP to X (R170). -/
  | tsx
  /-- TXS, transfer X to SP (R171). -/
  | txs
  /-- PHA, push accumulator (R180). -/
  | pha
  /-- PHP, push processor status (R181). -/
  | php
  /-- PLA, pull accumulator (R182). -/
  | pla
  /-- PLP, pull processor status (R183). -/
  | plp
  /-- ADC, add with carry (R190). -/
  | adc (o : Operand)
  /-- SBC, subtract with carry (R191). -/
  | sbc (o : Operand)
  /-- AND, bitwise and (R192). -/
  | and (o : Operand)
  /-- ORA, bitwise or (R193). -/
  | ora (o : Operand)
  /-- EOR, bitwise exclusive or (R194). -/
  | eor (o : Operand)
  /-- BIT, test bits (R195). -/
  | bit (o : Operand)
  /-- CMP, compare with A (R196). -/
  | cmp (o : Operand)
  /-- CPX, compare with X (R197). -/
  | cpx (o : Operand)
  /-- CPY, compare with Y (R198). -/
  | cpy (o : Operand)
  /-- INC, increment memory (R199). -/
  | inc (o : Operand)
  /-- DEC, decrement memory (R200). -/
  | dec (o : Operand)
  /-- INX, increment X (R201). -/
  | inx
  /-- INY, increment Y (R202). -/
  | iny
  /-- DEX, decrement X (R203). -/
  | dex
  /-- DEY, decrement Y (R204). -/
  | dey
  /-- ASL, arithmetic shift left (R220). -/
  | asl (o : Operand)
  /-- LSR, logical shift right (R221). -/
  | lsr (o : Operand)
  /-- ROL, rotate left through carry (R222). -/
  | rol (o : Operand)
  /-- ROR, rotate right through carry (R223). -/
  | ror (o : Operand)
  /-- JMP, jump (R230). -/
  | jmp (o : Operand)
  /-- JSR, jump to subroutine (R231). -/
  | jsr (target : Word)
  /-- RTS, return from subroutine (R232). -/
  | rts
  /-- BPL, branch if plus (R234). -/
  | bpl (offset : Byte)
  /-- BMI, branch if minus (R235). -/
  | bmi (offset : Byte)
  /-- BVC, branch if overflow clear (R236). -/
  | bvc (offset : Byte)
  /-- BVS, branch if overflow set (R237). -/
  | bvs (offset : Byte)
  /-- BCC, branch if carry clear (R238). -/
  | bcc (offset : Byte)
  /-- BCS, branch if carry set (R239). -/
  | bcs (offset : Byte)
  /-- BNE, branch if not equal (R240). -/
  | bne (offset : Byte)
  /-- BEQ, branch if equal (R241). -/
  | beq (offset : Byte)
  /-- BRK, break, and interrupt entry (R242). -/
  | brk
  /-- RTI, return from interrupt (R243). -/
  | rti
  /-- NOP, no operation (R244). -/
  | nop
  /-- CLC, clear carry (R250). -/
  | clc
  /-- CLD, clear decimal (R251). -/
  | cld
  /-- CLI, clear interrupt-disable (R252). -/
  | cli
  /-- CLV, clear overflow (R253). -/
  | clv
  /-- SEC, set carry (R254). -/
  | sec
  /-- SED, set decimal (R255). -/
  | sed
  /-- SEI, set interrupt-disable (R256). -/
  | sei
  /-- One of the 105 opcode bytes whose slot holds the default descriptor (R106). -/
  | unimplemented (opcode : Byte)
deriving DecidableEq, Repr

/-- One documented slot of the Instruction Descriptor Table (R103). The execution handler of R103 is the arm of
`Machine.exec` for the mnemonic. -/
structure Descriptor where
  opcode : Byte
  mnemonic : Mnemonic
  mode : Mode
  length : Nat
  baseCycles : Nat
  pageCross : Bool
deriving DecidableEq, Repr

/-- The addressing mode of an operand. -/
def Operand.mode : Operand → Mode
  | .imp => .imp
  | .acc => .acc
  | .imm _ => .imm
  | .abs _ => .abs
  | .ind _ => .ind
  | .abx _ => .abx
  | .aby _ => .aby
  | .zp _ => .zp
  | .zpx _ => .zpx
  | .izx _ => .izx
  | .izy _ => .izy
  | .zpy _ => .zpy
  | .rel _ => .rel

/-- The mnemonic of an instruction; an unimplemented slot has none. -/
def Instr.mnemonic : Instr → Option Mnemonic
  | .lda _ => some .lda
  | .ldx _ => some .ldx
  | .ldy _ => some .ldy
  | .sta _ => some .sta
  | .stx _ => some .stx
  | .sty _ => some .sty
  | .tax => some .tax
  | .tay => some .tay
  | .txa => some .txa
  | .tya => some .tya
  | .tsx => some .tsx
  | .txs => some .txs
  | .pha => some .pha
  | .php => some .php
  | .pla => some .pla
  | .plp => some .plp
  | .adc _ => some .adc
  | .sbc _ => some .sbc
  | .and _ => some .and
  | .ora _ => some .ora
  | .eor _ => some .eor
  | .bit _ => some .bit
  | .cmp _ => some .cmp
  | .cpx _ => some .cpx
  | .cpy _ => some .cpy
  | .inc _ => some .inc
  | .dec _ => some .dec
  | .inx => some .inx
  | .iny => some .iny
  | .dex => some .dex
  | .dey => some .dey
  | .asl _ => some .asl
  | .lsr _ => some .lsr
  | .rol _ => some .rol
  | .ror _ => some .ror
  | .jmp _ => some .jmp
  | .jsr _ => some .jsr
  | .rts => some .rts
  | .bpl _ => some .bpl
  | .bmi _ => some .bmi
  | .bvc _ => some .bvc
  | .bvs _ => some .bvs
  | .bcc _ => some .bcc
  | .bcs _ => some .bcs
  | .bne _ => some .bne
  | .beq _ => some .beq
  | .brk => some .brk
  | .rti => some .rti
  | .nop => some .nop
  | .clc => some .clc
  | .cld => some .cld
  | .cli => some .cli
  | .clv => some .clv
  | .sec => some .sec
  | .sed => some .sed
  | .sei => some .sei
  | .unimplemented _ => none

/-- The operand of an instruction, in its mode. -/
def Instr.operand : Instr → Operand
  | .lda o => o
  | .ldx o => o
  | .ldy o => o
  | .sta o => o
  | .stx o => o
  | .sty o => o
  | .tax => .imp
  | .tay => .imp
  | .txa => .imp
  | .tya => .imp
  | .tsx => .imp
  | .txs => .imp
  | .pha => .imp
  | .php => .imp
  | .pla => .imp
  | .plp => .imp
  | .adc o => o
  | .sbc o => o
  | .and o => o
  | .ora o => o
  | .eor o => o
  | .bit o => o
  | .cmp o => o
  | .cpx o => o
  | .cpy o => o
  | .inc o => o
  | .dec o => o
  | .inx => .imp
  | .iny => .imp
  | .dex => .imp
  | .dey => .imp
  | .asl o => o
  | .lsr o => o
  | .rol o => o
  | .ror o => o
  | .jmp o => o
  | .jsr w => .abs w
  | .rts => .imp
  | .bpl b => .rel b
  | .bmi b => .rel b
  | .bvc b => .rel b
  | .bvs b => .rel b
  | .bcc b => .rel b
  | .bcs b => .rel b
  | .bne b => .rel b
  | .beq b => .rel b
  | .brk => .imp
  | .rti => .imp
  | .nop => .imp
  | .clc => .imp
  | .cld => .imp
  | .cli => .imp
  | .clv => .imp
  | .sec => .imp
  | .sed => .imp
  | .sei => .imp
  | .unimplemented _ => .imp

end Sys2Proof
end

