-- ==== Sys2Proof/Decode.lean ====
section
/-! DEFINITION. The Instruction Descriptor Table (R103..R108), the decoder, total on any bytes, and the encoder. -/

namespace Sys2Proof

/-- The documented slots 0x00..0x0F of R105: opcode, mnemonic, mode, length, base cycles, page-cross flag. -/
def tableRow0 : List Descriptor := [
  ⟨0x00, .brk, .imp, 1, 7, false⟩,
  ⟨0x01, .ora, .izx, 2, 6, false⟩,
  ⟨0x05, .ora, .zp, 2, 3, false⟩,
  ⟨0x06, .asl, .zp, 2, 5, false⟩,
  ⟨0x08, .php, .imp, 1, 3, false⟩,
  ⟨0x09, .ora, .imm, 2, 2, false⟩,
  ⟨0x0A, .asl, .acc, 1, 2, false⟩,
  ⟨0x0D, .ora, .abs, 3, 4, false⟩,
  ⟨0x0E, .asl, .abs, 3, 6, false⟩]

/-- The documented slots 0x10..0x1F of R105: opcode, mnemonic, mode, length, base cycles, page-cross flag. -/
def tableRow1 : List Descriptor := [
  ⟨0x10, .bpl, .rel, 2, 2, true⟩,
  ⟨0x11, .ora, .izy, 2, 5, true⟩,
  ⟨0x15, .ora, .zpx, 2, 4, false⟩,
  ⟨0x16, .asl, .zpx, 2, 6, false⟩,
  ⟨0x18, .clc, .imp, 1, 2, false⟩,
  ⟨0x19, .ora, .aby, 3, 4, true⟩,
  ⟨0x1D, .ora, .abx, 3, 4, true⟩,
  ⟨0x1E, .asl, .abx, 3, 7, false⟩]

/-- The documented slots 0x20..0x2F of R105: opcode, mnemonic, mode, length, base cycles, page-cross flag. -/
def tableRow2 : List Descriptor := [
  ⟨0x20, .jsr, .abs, 3, 6, false⟩,
  ⟨0x21, .and, .izx, 2, 6, false⟩,
  ⟨0x24, .bit, .zp, 2, 3, false⟩,
  ⟨0x25, .and, .zp, 2, 3, false⟩,
  ⟨0x26, .rol, .zp, 2, 5, false⟩,
  ⟨0x28, .plp, .imp, 1, 4, false⟩,
  ⟨0x29, .and, .imm, 2, 2, false⟩,
  ⟨0x2A, .rol, .acc, 1, 2, false⟩,
  ⟨0x2C, .bit, .abs, 3, 4, false⟩,
  ⟨0x2D, .and, .abs, 3, 4, false⟩,
  ⟨0x2E, .rol, .abs, 3, 6, false⟩]

/-- The documented slots 0x30..0x3F of R105: opcode, mnemonic, mode, length, base cycles, page-cross flag. -/
def tableRow3 : List Descriptor := [
  ⟨0x30, .bmi, .rel, 2, 2, true⟩,
  ⟨0x31, .and, .izy, 2, 5, true⟩,
  ⟨0x35, .and, .zpx, 2, 4, false⟩,
  ⟨0x36, .rol, .zpx, 2, 6, false⟩,
  ⟨0x38, .sec, .imp, 1, 2, false⟩,
  ⟨0x39, .and, .aby, 3, 4, true⟩,
  ⟨0x3D, .and, .abx, 3, 4, true⟩,
  ⟨0x3E, .rol, .abx, 3, 7, false⟩]

/-- The documented slots 0x40..0x4F of R105: opcode, mnemonic, mode, length, base cycles, page-cross flag. -/
def tableRow4 : List Descriptor := [
  ⟨0x40, .rti, .imp, 1, 6, false⟩,
  ⟨0x41, .eor, .izx, 2, 6, false⟩,
  ⟨0x45, .eor, .zp, 2, 3, false⟩,
  ⟨0x46, .lsr, .zp, 2, 5, false⟩,
  ⟨0x48, .pha, .imp, 1, 3, false⟩,
  ⟨0x49, .eor, .imm, 2, 2, false⟩,
  ⟨0x4A, .lsr, .acc, 1, 2, false⟩,
  ⟨0x4C, .jmp, .abs, 3, 3, false⟩,
  ⟨0x4D, .eor, .abs, 3, 4, false⟩,
  ⟨0x4E, .lsr, .abs, 3, 6, false⟩]

/-- The documented slots 0x50..0x5F of R105: opcode, mnemonic, mode, length, base cycles, page-cross flag. -/
def tableRow5 : List Descriptor := [
  ⟨0x50, .bvc, .rel, 2, 2, true⟩,
  ⟨0x51, .eor, .izy, 2, 5, true⟩,
  ⟨0x55, .eor, .zpx, 2, 4, false⟩,
  ⟨0x56, .lsr, .zpx, 2, 6, false⟩,
  ⟨0x58, .cli, .imp, 1, 2, false⟩,
  ⟨0x59, .eor, .aby, 3, 4, true⟩,
  ⟨0x5D, .eor, .abx, 3, 4, true⟩,
  ⟨0x5E, .lsr, .abx, 3, 7, false⟩]

/-- The documented slots 0x60..0x6F of R105: opcode, mnemonic, mode, length, base cycles, page-cross flag. -/
def tableRow6 : List Descriptor := [
  ⟨0x60, .rts, .imp, 1, 6, false⟩,
  ⟨0x61, .adc, .izx, 2, 6, false⟩,
  ⟨0x65, .adc, .zp, 2, 3, false⟩,
  ⟨0x66, .ror, .zp, 2, 5, false⟩,
  ⟨0x68, .pla, .imp, 1, 4, false⟩,
  ⟨0x69, .adc, .imm, 2, 2, false⟩,
  ⟨0x6A, .ror, .acc, 1, 2, false⟩,
  ⟨0x6C, .jmp, .ind, 3, 5, false⟩,
  ⟨0x6D, .adc, .abs, 3, 4, false⟩,
  ⟨0x6E, .ror, .abs, 3, 6, false⟩]

/-- The documented slots 0x70..0x7F of R105: opcode, mnemonic, mode, length, base cycles, page-cross flag. -/
def tableRow7 : List Descriptor := [
  ⟨0x70, .bvs, .rel, 2, 2, true⟩,
  ⟨0x71, .adc, .izy, 2, 5, true⟩,
  ⟨0x75, .adc, .zpx, 2, 4, false⟩,
  ⟨0x76, .ror, .zpx, 2, 6, false⟩,
  ⟨0x78, .sei, .imp, 1, 2, false⟩,
  ⟨0x79, .adc, .aby, 3, 4, true⟩,
  ⟨0x7D, .adc, .abx, 3, 4, true⟩,
  ⟨0x7E, .ror, .abx, 3, 7, false⟩]

/-- The documented slots 0x80..0x8F of R105: opcode, mnemonic, mode, length, base cycles, page-cross flag. -/
def tableRow8 : List Descriptor := [
  ⟨0x81, .sta, .izx, 2, 6, false⟩,
  ⟨0x84, .sty, .zp, 2, 3, false⟩,
  ⟨0x85, .sta, .zp, 2, 3, false⟩,
  ⟨0x86, .stx, .zp, 2, 3, false⟩,
  ⟨0x88, .dey, .imp, 1, 2, false⟩,
  ⟨0x8A, .txa, .imp, 1, 2, false⟩,
  ⟨0x8C, .sty, .abs, 3, 4, false⟩,
  ⟨0x8D, .sta, .abs, 3, 4, false⟩,
  ⟨0x8E, .stx, .abs, 3, 4, false⟩]

/-- The documented slots 0x90..0x9F of R105: opcode, mnemonic, mode, length, base cycles, page-cross flag. -/
def tableRow9 : List Descriptor := [
  ⟨0x90, .bcc, .rel, 2, 2, true⟩,
  ⟨0x91, .sta, .izy, 2, 6, false⟩,
  ⟨0x94, .sty, .zpx, 2, 4, false⟩,
  ⟨0x95, .sta, .zpx, 2, 4, false⟩,
  ⟨0x96, .stx, .zpy, 2, 4, false⟩,
  ⟨0x98, .tya, .imp, 1, 2, false⟩,
  ⟨0x99, .sta, .aby, 3, 5, false⟩,
  ⟨0x9A, .txs, .imp, 1, 2, false⟩,
  ⟨0x9D, .sta, .abx, 3, 5, false⟩]

/-- The documented slots 0xA0..0xAF of R105: opcode, mnemonic, mode, length, base cycles, page-cross flag. -/
def tableRowA : List Descriptor := [
  ⟨0xA0, .ldy, .imm, 2, 2, false⟩,
  ⟨0xA1, .lda, .izx, 2, 6, false⟩,
  ⟨0xA2, .ldx, .imm, 2, 2, false⟩,
  ⟨0xA4, .ldy, .zp, 2, 3, false⟩,
  ⟨0xA5, .lda, .zp, 2, 3, false⟩,
  ⟨0xA6, .ldx, .zp, 2, 3, false⟩,
  ⟨0xA8, .tay, .imp, 1, 2, false⟩,
  ⟨0xA9, .lda, .imm, 2, 2, false⟩,
  ⟨0xAA, .tax, .imp, 1, 2, false⟩,
  ⟨0xAC, .ldy, .abs, 3, 4, false⟩,
  ⟨0xAD, .lda, .abs, 3, 4, false⟩,
  ⟨0xAE, .ldx, .abs, 3, 4, false⟩]

/-- The documented slots 0xB0..0xBF of R105: opcode, mnemonic, mode, length, base cycles, page-cross flag. -/
def tableRowB : List Descriptor := [
  ⟨0xB0, .bcs, .rel, 2, 2, true⟩,
  ⟨0xB1, .lda, .izy, 2, 5, true⟩,
  ⟨0xB4, .ldy, .zpx, 2, 4, false⟩,
  ⟨0xB5, .lda, .zpx, 2, 4, false⟩,
  ⟨0xB6, .ldx, .zpy, 2, 4, false⟩,
  ⟨0xB8, .clv, .imp, 1, 2, false⟩,
  ⟨0xB9, .lda, .aby, 3, 4, true⟩,
  ⟨0xBA, .tsx, .imp, 1, 2, false⟩,
  ⟨0xBC, .ldy, .abx, 3, 4, true⟩,
  ⟨0xBD, .lda, .abx, 3, 4, true⟩,
  ⟨0xBE, .ldx, .aby, 3, 4, true⟩]

/-- The documented slots 0xC0..0xCF of R105: opcode, mnemonic, mode, length, base cycles, page-cross flag. -/
def tableRowC : List Descriptor := [
  ⟨0xC0, .cpy, .imm, 2, 2, false⟩,
  ⟨0xC1, .cmp, .izx, 2, 6, false⟩,
  ⟨0xC4, .cpy, .zp, 2, 3, false⟩,
  ⟨0xC5, .cmp, .zp, 2, 3, false⟩,
  ⟨0xC6, .dec, .zp, 2, 5, false⟩,
  ⟨0xC8, .iny, .imp, 1, 2, false⟩,
  ⟨0xC9, .cmp, .imm, 2, 2, false⟩,
  ⟨0xCA, .dex, .imp, 1, 2, false⟩,
  ⟨0xCC, .cpy, .abs, 3, 4, false⟩,
  ⟨0xCD, .cmp, .abs, 3, 4, false⟩,
  ⟨0xCE, .dec, .abs, 3, 6, false⟩]

/-- The documented slots 0xD0..0xDF of R105: opcode, mnemonic, mode, length, base cycles, page-cross flag. -/
def tableRowD : List Descriptor := [
  ⟨0xD0, .bne, .rel, 2, 2, true⟩,
  ⟨0xD1, .cmp, .izy, 2, 5, true⟩,
  ⟨0xD5, .cmp, .zpx, 2, 4, false⟩,
  ⟨0xD6, .dec, .zpx, 2, 6, false⟩,
  ⟨0xD8, .cld, .imp, 1, 2, false⟩,
  ⟨0xD9, .cmp, .aby, 3, 4, true⟩,
  ⟨0xDD, .cmp, .abx, 3, 4, true⟩,
  ⟨0xDE, .dec, .abx, 3, 7, false⟩]

/-- The documented slots 0xE0..0xEF of R105: opcode, mnemonic, mode, length, base cycles, page-cross flag. -/
def tableRowE : List Descriptor := [
  ⟨0xE0, .cpx, .imm, 2, 2, false⟩,
  ⟨0xE1, .sbc, .izx, 2, 6, false⟩,
  ⟨0xE4, .cpx, .zp, 2, 3, false⟩,
  ⟨0xE5, .sbc, .zp, 2, 3, false⟩,
  ⟨0xE6, .inc, .zp, 2, 5, false⟩,
  ⟨0xE8, .inx, .imp, 1, 2, false⟩,
  ⟨0xE9, .sbc, .imm, 2, 2, false⟩,
  ⟨0xEA, .nop, .imp, 1, 2, false⟩,
  ⟨0xEC, .cpx, .abs, 3, 4, false⟩,
  ⟨0xED, .sbc, .abs, 3, 4, false⟩,
  ⟨0xEE, .inc, .abs, 3, 6, false⟩]

/-- The documented slots 0xF0..0xFF of R105: opcode, mnemonic, mode, length, base cycles, page-cross flag. -/
def tableRowF : List Descriptor := [
  ⟨0xF0, .beq, .rel, 2, 2, true⟩,
  ⟨0xF1, .sbc, .izy, 2, 5, true⟩,
  ⟨0xF5, .sbc, .zpx, 2, 4, false⟩,
  ⟨0xF6, .inc, .zpx, 2, 6, false⟩,
  ⟨0xF8, .sed, .imp, 1, 2, false⟩,
  ⟨0xF9, .sbc, .aby, 3, 4, true⟩,
  ⟨0xFD, .sbc, .abx, 3, 4, true⟩,
  ⟨0xFE, .inc, .abx, 3, 7, false⟩]

/-- The 151 documented slots (R105), in the order of their opcodes. -/
def table : List Descriptor :=
  tableRow0 ++ tableRow1 ++ tableRow2 ++ tableRow3 ++ tableRow4 ++ tableRow5 ++ tableRow6 ++ tableRow7 ++
  tableRow8 ++ tableRow9 ++ tableRowA ++ tableRowB ++ tableRowC ++ tableRowD ++ tableRowE ++ tableRowF

/-- The descriptor of an opcode byte (R104): `none` is the default, unimplemented descriptor (R106). -/
def descriptor (opcode : Byte) : Option Descriptor := table.find? fun d => d.opcode == opcode

/-- How many operand bytes a mode reads from the instruction stream (R100). -/
def Mode.operandBytes : Mode → Nat
  | .imp | .acc => 0
  | .imm | .zp | .zpx | .zpy | .izx | .izy | .rel => 1
  | .abs | .abx | .aby | .ind => 2

/-- The operand a mode makes of byte 1 and byte 2 of the instruction (R101): abs16 is little-endian. -/
def Mode.assemble (byte1 byte2 : Byte) : Mode → Operand
  | .imp => .imp
  | .acc => .acc
  | .imm => .imm byte1
  | .abs => .abs (word byte2 byte1)
  | .ind => .ind (word byte2 byte1)
  | .abx => .abx (word byte2 byte1)
  | .aby => .aby (word byte2 byte1)
  | .zp => .zp byte1
  | .zpx => .zpx byte1
  | .izx => .izx byte1
  | .izy => .izy byte1
  | .zpy => .zpy byte1
  | .rel => .rel byte1

/-- The operand bytes of an operand, in the order they stand in memory (R100, R101). -/
def Operand.bytes : Operand → List Byte
  | .imp | .acc => []
  | .imm b | .zp b | .zpx b | .izx b | .izy b | .zpy b | .rel b => [b]
  | .abs w | .ind w | .abx w | .aby w => [lo8 w, hi8 w]

/-- The 8-bit operand field; the table gives a branch only a rel8. -/
def Operand.byteField : Operand → Byte
  | .imm b | .zp b | .zpx b | .izx b | .izy b | .zpy b | .rel b => b
  | .abs w | .ind w | .abx w | .aby w => lo8 w
  | .imp | .acc => 0

/-- The 16-bit operand field; the table gives JSR only an abs16. -/
def Operand.wordField : Operand → Word
  | .abs w | .ind w | .abx w | .aby w => w
  | .imm b | .zp b | .zpx b | .izx b | .izy b | .zpy b | .rel b => zext16 b
  | .imp | .acc => 0

/-- The instruction of a mnemonic and an operand (R107). -/
def Mnemonic.instr (o : Operand) : Mnemonic → Instr
  | .lda => .lda o
  | .ldx => .ldx o
  | .ldy => .ldy o
  | .sta => .sta o
  | .stx => .stx o
  | .sty => .sty o
  | .tax => .tax
  | .tay => .tay
  | .txa => .txa
  | .tya => .tya
  | .tsx => .tsx
  | .txs => .txs
  | .pha => .pha
  | .php => .php
  | .pla => .pla
  | .plp => .plp
  | .adc => .adc o
  | .sbc => .sbc o
  | .and => .and o
  | .ora => .ora o
  | .eor => .eor o
  | .bit => .bit o
  | .cmp => .cmp o
  | .cpx => .cpx o
  | .cpy => .cpy o
  | .inc => .inc o
  | .dec => .dec o
  | .inx => .inx
  | .iny => .iny
  | .dex => .dex
  | .dey => .dey
  | .asl => .asl o
  | .lsr => .lsr o
  | .rol => .rol o
  | .ror => .ror o
  | .jmp => .jmp o
  | .jsr => .jsr o.wordField
  | .rts => .rts
  | .bpl => .bpl o.byteField
  | .bmi => .bmi o.byteField
  | .bvc => .bvc o.byteField
  | .bvs => .bvs o.byteField
  | .bcc => .bcc o.byteField
  | .bcs => .bcs o.byteField
  | .bne => .bne o.byteField
  | .beq => .beq o.byteField
  | .brk => .brk
  | .rti => .rti
  | .nop => .nop
  | .clc => .clc
  | .cld => .cld
  | .cli => .cli
  | .clv => .clv
  | .sec => .sec
  | .sed => .sed
  | .sei => .sei

/-- The instruction a descriptor makes of the operand bytes. -/
def Descriptor.instr (d : Descriptor) (byte1 byte2 : Byte) : Instr :=
  d.mnemonic.instr (d.mode.assemble byte1 byte2)

/-- Why a list of bytes is no instruction. Every opcode byte is one (R104), so only bytes can be missing. -/
inductive DecodeError where
  /-- No opcode byte. -/
  | noBytes
  /-- The opcode's mode needs more operand bytes than the list holds. -/
  | truncated (opcode : Byte)
deriving DecidableEq, Repr

/-- Decoding (R102, R123): the opcode byte alone fixes the descriptor and the length; no state changes it. Answers
the instruction and the bytes after it. -/
def decode : List Byte → Except DecodeError (Instr × List Byte)
  | [] => .error .noBytes
  | opcode :: rest =>
    match descriptor opcode with
    | none => .ok (.unimplemented opcode, rest)
    | some d =>
      match d.mode.operandBytes, rest with
      | 0, rest => .ok (d.instr 0 0, rest)
      | 1, byte1 :: rest => .ok (d.instr byte1 0, rest)
      | 2, byte1 :: byte2 :: rest => .ok (d.instr byte1 byte2, rest)
      | _, _ => .error (.truncated opcode)

/-- The descriptor of a mnemonic in a mode, if the table has that slot. -/
def descriptorOf (m : Mnemonic) (mode : Mode) : Option Descriptor :=
  table.find? fun d => d.mnemonic == m && d.mode == mode

/-- The descriptor of an instruction: none for an unimplemented slot and for a mode the mnemonic does not have. -/
def Instr.descriptor (i : Instr) : Option Descriptor :=
  i.mnemonic.bind fun m => descriptorOf m i.operand.mode

/-- The words of a well-formed instruction (R100, R101): its opcode and its operand bytes; none for an ill-formed term. -/
def encode (i : Instr) : Option (List Byte) :=
  match i with
  | .unimplemented opcode => if unimplementedOpcodes.contains opcode then some [opcode] else none
  | i => i.descriptor.map fun d => d.opcode :: i.operand.bytes

/-- The cycle cost of R143: the base cycles, and one more where a page was crossed and the page-cross flag is set. An
instruction without a slot is charged nothing. -/
def Instr.cost (i : Instr) (pageCrossed : Bool) : Nat :=
  match i.descriptor with
  | some d => d.baseCycles + (if pageCrossed && d.pageCross then 1 else 0)
  | none => 0

/-- The three bytes an instruction of `nbits` bits, numbered as the opcode table numbers them, lays in memory: the bits
above `nbits` are zero. -/
def tableBytes (nbits w : Nat) : List Byte :=
  let v := w % 2 ^ nbits
  [BitVec.ofNat 8 v, BitVec.ofNat 8 (v / 256), BitVec.ofNat 8 (v / 65536)]

/-- The instruction the decoder reads from an opcode-table word. -/
def decodeTableWord (nbits w : Nat) : Option Instr :=
  match decode (tableBytes nbits w) with
  | .ok (i, _) => some i
  | .error _ => none

end Sys2Proof
end

