-- ==== Sys2Proof/Config.lean ====
section
/-! DEFINITION. What is fixed for the machine and is no state (spec/10_state.md R48): the parameters of
spec/00_scope.md R7, which have a value, and those of R8, which the sources leave OPEN. An OPEN parameter
whose value a computation needs is an opaque constant: no proof can see its value, so a claim holds for every one. -/

namespace Sys2Proof.Config

/-- STACK_PAGE (R7, D2). -/
def stackPage : Byte := 0x01

/-- VEC_NMI (R7, D3). -/
def vecNmi : Word := 0xFFFA

/-- VEC_RESET (R7, D3). -/
def vecReset : Word := 0xFFFC

/-- VEC_IRQ (R7, D3). -/
def vecIrq : Word := 0xFFFE

/-- READ_LEVEL: the read/write line is HIGH in a read transaction (R71, D11). -/
def readLevel : Bool := true

/-- WRITE_LEVEL: the read/write line is LOW in a write transaction (R71, D11). -/
def writeLevel : Bool := false

/-- CLOCK_LOW_PER_TRANSACTION, decided false (R8, R74, D12): the clock line goes low once, at the end of a cycle. -/
def clockLowPerTransaction : Bool := false

/-- What `powerUp` gives A, X, Y and the flags (R8: RESET_A, RESET_X, RESET_Y, RESET_FLAGS). -/
structure ResetValues where
  a : Byte
  x : Byte
  y : Byte
  p : Flags
deriving DecidableEq, Repr

/-- The simulator default of the OPEN reset values: zero and all flags false (D4).
DESIGN CHOICE, unsafe: notes/assumptions/1.md. `powerUp` itself takes them as an argument. -/
def resetValues : ResetValues :=
  { a := 0, x := 0, y := 0,
    p := { n := false, v := false, u := false, b := false, d := false, i := false, z := false, c := false } }

/-- What a decimal-mode add or subtract leaves: A', C', Z', N', V' (R205). -/
structure DecimalResult where
  a : Byte
  c : Bool
  z : Bool
  n : Bool
  v : Bool
deriving DecidableEq, Repr, Inhabited

/-- DEC_ADC, OPEN (R205, D5): an uninterpreted total function of A, M and P. Free value: notes/assumptions/2.md. -/
opaque decAdc : Byte → Byte → Flags → DecimalResult

/-- DEC_SBC, OPEN (R206, D5): on the same terms as `decAdc`. Free value: notes/assumptions/2.md. -/
opaque decSbc : Byte → Byte → Flags → DecimalResult

/-- JMP_IND_PAGE_WRAP, OPEN (R129, D6). Free value: notes/assumptions/3.md. -/
opaque jmpIndPageWrap : Bool

/-- ZP_PTR_WRAP, OPEN (R134, R135, D7). Free value: notes/assumptions/3.md. -/
opaque zpPtrWrap : Bool

/-- TARGET_CPS, OPEN: a positive integer (R8, D19). Free value: notes/assumptions/4.md. -/
opaque targetCps : ℕ+

/-- TICKS_PER_SECOND, OPEN: a positive integer (R8, D19). Free value: notes/assumptions/4.md. -/
opaque ticksPerSecond : ℕ+

/-- CREDIT_PER_TICK = TARGET_CPS div TICKS_PER_SECOND, truncating (R280). -/
def creditPerTick : Int := (((targetCps : ℕ) / (ticksPerSecond : ℕ) : ℕ) : Int)

/-- How many states the environment's devices have, less one: OPEN (R76). Free value: notes/assumptions/5.md. -/
opaque lastEnv : ℕ

/-- The environment's state E (R76), by its number. -/
abbrev Env : Type := Fin (lastEnv + 1)

/-- What a device of the environment answers to a read: the byte it leaves on the data bus, its next state, and
the interrupt requests its listeners raised (R76). -/
structure ReadAnswer where
  data : Byte
  env : Env
  nmi : Bool
  irq : Bool
deriving DecidableEq, Repr, Inhabited

/-- What a device of the environment answers to a write (R76). -/
structure WriteAnswer where
  env : Env
  nmi : Bool
  irq : Bool
deriving DecidableEq, Repr, Inhabited

/-- RESPONDER's read side, OPEN (R76, D29): environment state, address and the data bus value before the
transaction. Free value: notes/assumptions/5.md. -/
opaque respRead : Env → Word → Byte → ReadAnswer

/-- RESPONDER's write side, OPEN (R76, D29). Free value: notes/assumptions/5.md. -/
opaque respWrite : Env → Word → Byte → WriteAnswer

/-- What the `powerUp()` of the environment's devices makes of the environment's state, OPEN (R75, R76, D29).
Free value: notes/assumptions/5.md. -/
opaque respPowerUp : Env → Env

end Sys2Proof.Config
end

