-- ==== Sys2Proof/Machine/Flags.lean ====
section
/-! DEFINITION. The status byte (R38, R39) and every result-and-flags computation of the instruction rules
(files 43 and 44, R141). Sums are computed exactly, then narrowed (R207). -/

namespace Sys2Proof.Machine

/-- `getByte()` (R38). -/
def getByte (p : Flags) : Byte :=
  BitVec.ofNat 8 (boolBit p.n * 128 + boolBit p.v * 64 + boolBit p.u * 32 + boolBit p.b * 16 +
    boolBit p.d * 8 + boolBit p.i * 4 + boolBit p.z * 2 + boolBit p.c)

/-- `fromByte(b, ignore)` on the flags `p` (R39): with `ignore`, P.U and P.B are left unchanged. -/
def fromByte (b : Byte) (ignore : Bool) (p : Flags) : Flags :=
  { n := b.getLsbD 7, v := b.getLsbD 6,
    u := if ignore then p.u else b.getLsbD 5,
    b := if ignore then p.b else b.getLsbD 4,
    d := b.getLsbD 3, i := b.getLsbD 2, z := b.getLsbD 1, c := b.getLsbD 0 }

/-- `setNZ(v)` (R141). -/
def setNZ (v : Byte) (p : Flags) : Flags := { p with z := v == 0, n := v.getLsbD 7 }

/-- The byte PHP pushes: bits 5 and 4 forced (R181). -/
def phpByte (p : Flags) : Byte := getByte p ||| 0x30

/-- The byte BRK and an interrupt entry push: bit 4 is 0 when forced and 1 for a software BRK, bit 5 is P.U as
stored (R242). -/
def brkByte (forced : Bool) (p : Flags) : Byte := getByte { p with b := !forced }

/-- Binary ADC (R190): the sum and the flags. -/
def addBinary (a m : Byte) (p : Flags) : Byte × Flags :=
  let s := a.toNat + m.toNat + boolBit p.c
  let r := BitVec.ofNat 8 s
  (r, setNZ r { p with c := decide (s > 255), v := ((a ^^^ r) &&& (m ^^^ r) &&& 0x80) != 0 })

/-- Binary SBC (R191): the difference and the flags; carry means no borrow. -/
def subBinary (a m : Byte) (p : Flags) : Byte × Flags :=
  let d : Int := (a.toNat : Int) - m.toNat - (1 - boolBit p.c)
  let r := BitVec.ofInt 8 d
  (r, setNZ r { p with c := decide (d ≥ 0), v := ((a ^^^ m) &&& (a ^^^ r) &&& 0x80) != 0 })

/-- What a decimal result leaves in A and the flags: A', C', Z', N', V' (R190, R191). -/
def takeDecimal (q : Config.DecimalResult) (p : Flags) : Byte × Flags :=
  (q.a, { p with c := q.c, z := q.z, n := q.n, v := q.v })

/-- ADC (R190): binary, or with P.D = 1 the OPEN function DEC_ADC (R205). -/
def adcResult (a m : Byte) (p : Flags) : Byte × Flags :=
  if p.d then takeDecimal (Config.decAdc a m p) p else addBinary a m p

/-- SBC (R191): binary, or with P.D = 1 the OPEN function DEC_SBC (R206). -/
def sbcResult (a m : Byte) (p : Flags) : Byte × Flags :=
  if p.d then takeDecimal (Config.decSbc a m p) p else subBinary a m p

/-- The flags of a comparison of register `r` with `m` (R196). -/
def compareFlags (r m : Byte) (p : Flags) : Flags :=
  { p with c := decide (m.toNat ≤ r.toNat), z := r == m, n := (r - m).getLsbD 7 }

/-- The flags of BIT (R195): N and V come from the operand. -/
def bitFlags (a m : Byte) (p : Flags) : Flags :=
  { p with z := (a &&& m) == 0, n := m.getLsbD 7, v := m.getLsbD 6 }

/-- A result with N and Z set from it and C as given. -/
def shifted (r : Byte) (c : Bool) (p : Flags) : Byte × Flags := (r, setNZ r { p with c := c })

/-- ASL (R220). -/
def aslResult (m : Byte) (p : Flags) : Byte × Flags := shifted (m <<< 1) (m.getLsbD 7) p

/-- LSR (R221). -/
def lsrResult (m : Byte) (p : Flags) : Byte × Flags := shifted (m >>> 1) (m.getLsbD 0) p

/-- ROL (R222): the old carry enters bit 0. -/
def rolResult (m : Byte) (p : Flags) : Byte × Flags :=
  shifted ((m <<< 1) ||| (if p.c then 0x01 else 0x00)) (m.getLsbD 7) p

/-- ROR (R223): the old carry enters bit 7. -/
def rorResult (m : Byte) (p : Flags) : Byte × Flags :=
  shifted ((m >>> 1) ||| (if p.c then 0x80 else 0x00)) (m.getLsbD 0) p

/-- INC (R199). -/
def incResult (m : Byte) (p : Flags) : Byte × Flags := (m + 1, setNZ (m + 1) p)

/-- DEC (R200). -/
def decResult (m : Byte) (p : Flags) : Byte × Flags := (m - 1, setNZ (m - 1) p)

end Sys2Proof.Machine
end

