-- ==== Sys2Proof/Machine/State.lean ====
section
/-! DEFINITION. The state of the machine as plain data (spec/10_state.md, R60..R66, R280..R289), its faults and
refusals, and the state after reset. Fields that are the model's own say so. -/

namespace Sys2Proof.Machine

/-- The registers of the Processor Execution Core (R30). -/
structure Regs where
  /-- A, the accumulator (R31) -/
  a : Byte
  /-- X, an index register (R32) -/
  x : Byte
  /-- Y, an index register (R32) -/
  y : Byte
  /-- SP, the stack pointer: an offset in the stack page (R34) -/
  sp : Byte
  /-- PC, the program counter (R33) -/
  pc : Word
  /-- ADL, the internal address latch (R35) -/
  adl : Word
  /-- P, the status register (R36) -/
  p : Flags
deriving DecidableEq, Repr

/-- The pending interrupt requests (R42). -/
structure Pending where
  nmi : Bool
  irq : Bool
deriving DecidableEq, Repr

/-- The two kinds of interrupt request (R267). -/
inductive Interrupt where
  | nmi
  | irq
deriving DecidableEq, Repr

/-- The Cycle Budget (R43): mathematical integers. -/
structure Budget where
  credit : Int
  total : Int
deriving DecidableEq, Repr

/-- The lines: those the core requires (R68), and the chip-select and output-enable lines that the wiring assigns to
devices (R75), by number. DESIGN CHOICE: notes/assumptions/19.md. -/
inductive LineName where
  | rw
  | clock
  | nmi
  | irq
  | reset
  | device (index : Nat)
deriving DecidableEq, Repr

/-- What a callback computes when it runs, from what it may read: the buses, the lines' levels (R63, R66) and the
devices' memory. Its value is a number; a bus masks what it is given (R65). -/
inductive Reading where
  | const (value : Nat)
  /-- The address bus. -/
  | addr
  /-- The data bus. -/
  | data
  /-- The level of a line: 1 for HIGH, 0 for LOW. -/
  | level (line : LineName)
  /-- The byte that a device holds in its memory. -/
  | stored (address : Reading)
  | sum (a b : Reading)
  | bitAnd (a b : Reading)
  | bitOr (a b : Reading)
  | bitXor (a b : Reading)
  | shiftLeft (a : Reading) (places : Nat)
  | shiftRight (a : Reading) (places : Nat)
deriving DecidableEq, Repr

/-- What a listener on a line does (R60, R63, R75, R76), as plain data: the callbacks of the source, each a program
without loops. DESIGN CHOICE: notes/assumptions/16.md. -/
inductive Reaction where
  /-- The flat 64 KiB RAM: the simulator default of RESPONDER (R76, D29). -/
  | ram
  /-- The environment's devices: the OPEN parameter RESPONDER (R76). -/
  | responder
  /-- A device drives a line (R63). -/
  | setLine (line : LineName) (level : Bool)
  /-- A device writes the address bus (R63). -/
  | writeAddr (value : Reading)
  /-- A device writes the data bus (R63). -/
  | writeData (value : Reading)
  /-- The listener raises an interrupt request: a device's (R265 (b)), or an INT_LINE_BINDING (R266). -/
  | request (k : Interrupt)
  /-- The listener calls `registerListener`, which the model refuses (R64). -/
  | register (line : LineName) (level : Bool) (r : Reaction)
  /-- A device stores a byte into its memory. -/
  | store (address value : Reading)
  | nothing
  /-- The one, run to completion, and then the other (R11). -/
  | both (first second : Reaction)
  /-- The one where what is read lies in the range, else the other: the callback reads once and then acts (R63). -/
  | branch (on : Reading) (first last : Nat) (inside outside : Reaction)
deriving DecidableEq, Repr

/-- One registration that a device's `install()` makes (R75). -/
structure Listener where
  line : LineName
  level : Bool
  reaction : Reaction
deriving DecidableEq, Repr

/-- A device, as the capability contract of R75 shows it: what its `install()` and its `powerUp()` do.
DESIGN CHOICE: notes/assumptions/16.md. -/
structure Device where
  /-- The lines it is assigned, obtained by name from the wiring (R68, R75). -/
  lines : List LineName
  /-- What `install()` registers, in this order. -/
  listeners : List Listener
  /-- The bytes its internal state begins with, where it is a memory: `powerUp()` stores them. -/
  contents : List (Word × Byte)
  /-- It is the environment's: `powerUp()` initialises E. -/
  environment : Bool
deriving DecidableEq, Repr

/-- A signal line: its level and the ordered listeners of each level (R60). -/
structure Line where
  level : Bool
  onHigh : List Reaction
  onLow : List Reaction
deriving DecidableEq, Repr

/-- A signal bus of width `w` (R65): its value never exceeds the width. -/
structure Bus (w : Nat) where
  value : BitVec w
deriving DecidableEq, Repr

/-- A line without listeners. HIGH before it is first driven: DESIGN CHOICE, notes/assumptions/8.md. -/
def Line.unlistened : Line := { level := true, onHigh := [], onLow := [] }

/-- The core's buses and lines (R47, R68, R69), and the lines of the devices (R75). -/
structure Wires where
  addr : Bus 16
  data : Bus 8
  rw : Line
  clock : Line
  nmi : Line
  irq : Line
  reset : Line
  /-- The lines the wiring made for the devices, by their number. -/
  device : List Line
deriving DecidableEq, Repr

/-- Memory behind the flat-RAM responder: (address, byte) pairs, addresses strictly rising, no byte equal to what an
unlisted address reads as. -/
abbrev Memory := List Host.Cell

/-- The fatal conditions, codes 1, 2 and 3 (R260). -/
inductive FatalKind where
  | unimplementedOpcode
  | invalidAddressingMode
  | impliedOperandRequested
deriving DecidableEq, Repr

/-- The run status of the execution agent (R46); a fatal status carries the opcode and its address (R261). -/
inductive RunStatus where
  | running
  | stopped
  | fatal (kind : FatalKind) (opcode : Byte) (address : Word)
deriving DecidableEq, Repr

/-- Where the execution agent stands in `runLoop` (R287, R296): outside it, before it is called; before the stop check;
held by `pause` after it (D23); blocked in the gate's wait (R285); or past the gate, about to run `cycle()`. The hold is
DEDUCED: notes/assumptions/17.md. -/
inductive LoopPoint where
  | idle
  | boundary
  | held
  | waiting
  | cycle
deriving DecidableEq, Repr

/-- The ticker agent stands before tick.1, or between tick.1 and tick.2 (R281). -/
inductive TickerPhase where
  | idle
  | granted
deriving DecidableEq, Repr

/-- One move of an agent (R5). -/
inductive Turn where
  /-- The execution agent (R287). -/
  | execution
  /-- The ticker: tick.1 or tick.2, whichever is next (R281). -/
  | ticker
  /-- The diagnostic agent (R289). -/
  | diagnostic
  /-- The environment raises a request outside any transaction (R265 (a)). -/
  | request (k : Interrupt)
  /-- The host sets or clears `stop` (R288). -/
  | setStop (value : Bool)
  /-- The host sets or clears `pause` (R288). -/
  | setPause (value : Bool)
  /-- The host starts the ticker, or the ticker stops granting (R286, R296). -/
  | setTicking (value : Bool)
  /-- The host calls `powerUp` (R296, R300). -/
  | powerUp
deriving DecidableEq, Repr

/-- The Cycle Scheduler, the host's flags and the agents' turns (R44, R45, R281..R289). -/
structure Sched where
  /-- The wake signal (R44). -/
  wake : Bool
  /-- The host's stop flag (R45). -/
  stop : Bool
  /-- The host's pause flag (R45). -/
  pause : Bool
  /-- The ticker runs (R286, R301). -/
  ticking : Bool
  /-- The ticker's place in its tick (R281). -/
  ticker : TickerPhase
  /-- What the diagnostic agent last read (R289). -/
  report : Int
  /-- The model's own: the moves that come next, oldest first. With none listed the execution agent moves, or the
  ticker when the execution agent is blocked at the gate (notes/assumptions/7.md). -/
  turns : List Turn
deriving DecidableEq, Repr

/-- One bus transaction (R72, R73). -/
structure Transaction where
  write : Bool
  address : Word
  data : Byte
deriving DecidableEq, Repr

/-- The per-cycle values (R49): made anew in each cycle. DESIGN CHOICE: notes/assumptions/14.md. -/
structure CycleLatch where
  /-- The cycle is a forced BRK (R120, R122). -/
  forced : Bool
  /-- The opcode of the cycle (R121, R122). -/
  opcode : Byte
  /-- The address it was fetched from (R121). -/
  opcAddr : Word
  /-- The model's own: the transactions of the cycle so far, oldest first (D29). -/
  trace : List Transaction
deriving DecidableEq, Repr

/-- The machine. -/
structure State where
  regs : Regs
  pending : Pending
  budget : Budget
  wires : Wires
  mem : Memory
  /-- The environment's state E (R76), a token. -/
  env : Config.Env
  sched : Sched
  run : RunStatus
  loop : LoopPoint
  cyc : CycleLatch
deriving DecidableEq, Repr

/-- Why no next state follows. A fatal condition of a cycle is not one of these: the cycle's next state has the run
status `fatal` (R260), and these answer a further step. -/
inductive Fault where
  /-- Raised by `step`: the run ended by a normal stop (R287, R297). Safe: the spec gives no further step. -/
  | stopped
  /-- Raised by `step`: the run ended by a fatal condition (R260, R297). Safe: the spec gives no further step. -/
  | fatal (kind : FatalKind) (opcode : Byte) (address : Word)
  /-- Raised by `step`: the execution agent is held by `pause` and no turn is listed that could clear it (R287, D23).
  Safe: stuck. -/
  | heldByPause
  /-- Raised by `step`: the execution agent waits at the gate, the ticker has stopped and no turn is listed (R286).
  Safe: stuck. -/
  | starved
  /-- Raised by `setState`: a dispatch that never completes, "a hang of the execution agent" (R63), and by no other.
  Safe: stuck. -/
  | dispatchUnbounded
deriving DecidableEq, Repr

/-- What the model has no meaning for. -/
inductive Refusal where
  /-- Raised by an arm of `exec` whose instruction has no meaning yet. Safe. -/
  | notModelled (mnemonic : String)
  /-- Raised by `react`: `registerListener` during a dispatch (R64). Safe. -/
  | registrationDuringDispatch
  /-- Raised by `step`: the host calls `powerUp` while `runLoop` runs (R296). Safe. -/
  | powerUpWhileRunning
deriving DecidableEq, Repr

/-- The wires of the reset machine: the flat RAM listens to the clock (D29), nothing else is registered (R266). -/
def Wires.flatRam (addr : Word) (data : Byte) : Wires :=
  { addr := ⟨addr⟩, data := ⟨data⟩, rw := .unlistened,
    clock := { level := true, onHigh := [.ram], onLow := [] },
    nmi := .unlistened, irq := .unlistened, reset := .unlistened, device := [] }

/-- After wiring and construction (R301, steps 1 and 2): no listener is registered. What construction leaves unspecified
is chosen: notes/assumptions/1.md, 8.md. The ticker's start (step 6) is counted in: notes/assumptions/7.md. -/
def State.constructed : State :=
  { regs := { a := 0, x := 0, y := 0, sp := 0, pc := 0, adl := 0, p := Config.resetValues.p },
    pending := { nmi := false, irq := false },
    budget := { credit := 0, total := 0 },
    wires := { Wires.flatRam 0 0 with clock := .unlistened },
    mem := [],
    env := 0,
    sched := { wake := false, stop := false, pause := false, ticking := true, ticker := .idle, report := 0,
               turns := [] },
    run := .running,
    loop := .idle,
    cyc := { forced := false, opcode := 0, opcAddr := 0, trace := [] } }

/-- The machine right after the boot of R301 with the flat RAM as its device, its `powerUp` (R53, R300) the last: SP is
0xFD, PC the word at VEC_RESET, which reads 0x0000 from memory that lists nothing (notes/assumptions/9.md), the buses
are as its two reads leave them, and `runLoop` is still to be called (R301, step 7). -/
def State.reset : State :=
  { State.constructed with
    regs := { a := Config.resetValues.a, x := Config.resetValues.x, y := Config.resetValues.y, sp := 0xFD,
              pc := 0x0000, adl := 0, p := Config.resetValues.p },
    wires := .flatRam (Config.vecReset + 1) 0,
    cyc := { forced := false, opcode := 0, opcAddr := 0,
             trace := [⟨false, Config.vecReset, 0⟩, ⟨false, Config.vecReset + 1, 0⟩] } }

end Sys2Proof.Machine
end

