-- ==== Sys2Proof/Machine/Ops.lean ====
section
/-! DEFINITION. The named operations over memory, registers, lines and buses: the outcome of an operation, memory,
the signal substrate (R60..R66), the bus transactions (R72, R73, R78), the stack (R80, R81), fatal conditions (R260),
interrupt entry and return (R242, R243), `powerUp` (R300), and the end of a cycle (R143, R144). -/

namespace Sys2Proof.Machine

/-! ### The outcome of an operation -/

/-- An operation answers a value and the state after it, ends the cycle with a fatal condition (R146), or stops. -/
inductive Res (α : Type) where
  | ok (value : α) (s : State)
  | fatal (s : State)
  | fault (r : Fault)
  | refused (r : Refusal)

/-- Statements run in order (R11): the next operation runs on the value and the state of the one before. -/
def Res.bind {α β : Type} (r : Res α) (next : α → State → Res β) : Res β :=
  match r with
  | .ok v s => next v s
  | .fatal s => .fatal s
  | .fault r => .fault r
  | .refused r => .refused r

/-! ### Memory -/

/-- What an unlisted address reads as. DESIGN CHOICE, unsafe: notes/assumptions/9.md. -/
def Memory.unlisted : Byte := 0

/-- One byte of memory. -/
def Memory.get : Memory → Nat → Byte
  | [], _ => Memory.unlisted
  | (k, v) :: m, a => if k = a then v else Memory.get m a

/-- Storing one byte keeps the canonical form: storing what an unlisted address reads as removes the entry. -/
def Memory.set : Memory → Nat → Byte → Memory
  | [], a, v => if v = Memory.unlisted then [] else [(a, v)]
  | (k, w) :: m, a, v =>
    if a < k then (if v = Memory.unlisted then (k, w) :: m else (a, v) :: (k, w) :: m)
    else if a = k then (if v = Memory.unlisted then m else (a, v) :: m)
    else (k, w) :: Memory.set m a v

/-- Every listed address from `lo` on is in the 2^16-byte address space (R77), they rise strictly, and no listed byte
is what an unlisted address reads as. -/
def Memory.wfFrom : Nat → Memory → Bool
  | _, [] => true
  | lo, (k, v) :: m => decide (lo ≤ k) && decide (k < 65536) && (v != Memory.unlisted) && Memory.wfFrom (k + 1) m

/-- The canonical form of memory. -/
def Memory.wf (m : Memory) : Bool := Memory.wfFrom 0 m

/-! ### Registers and other fields -/

def State.setRegs (r : Regs) (s : State) : State := { s with regs := r }
def State.setPending (p : Pending) (s : State) : State := { s with pending := p }
def State.setBudget (b : Budget) (s : State) : State := { s with budget := b }
def State.setWires (w : Wires) (s : State) : State := { s with wires := w }
def State.setMem (m : Memory) (s : State) : State := { s with mem := m }
def State.setEnv (e : Config.Env) (s : State) : State := { s with env := e }
def State.setSched (d : Sched) (s : State) : State := { s with sched := d }
def State.setRun (r : RunStatus) (s : State) : State := { s with run := r }
def State.setLoop (l : LoopPoint) (s : State) : State := { s with loop := l }
def State.setCyc (c : CycleLatch) (s : State) : State := { s with cyc := c }

def State.setA (v : Byte) (s : State) : State := s.setRegs { s.regs with a := v }
def State.setX (v : Byte) (s : State) : State := s.setRegs { s.regs with x := v }
def State.setY (v : Byte) (s : State) : State := s.setRegs { s.regs with y := v }
def State.setSP (v : Byte) (s : State) : State := s.setRegs { s.regs with sp := v }
def State.setPC (v : Word) (s : State) : State := s.setRegs { s.regs with pc := v }
def State.setADL (v : Word) (s : State) : State := s.setRegs { s.regs with adl := v }
def State.setP (v : Flags) (s : State) : State := s.setRegs { s.regs with p := v }

/-- A request is set; one that is already pending stays so (R265). -/
def State.raiseRequest (k : Interrupt) (s : State) : State :=
  match k with
  | .nmi => s.setPending { s.pending with nmi := true }
  | .irq => s.setPending { s.pending with irq := true }

/-- The serviced request is cleared (R242, R265). -/
def State.clearRequest (k : Interrupt) (s : State) : State :=
  match k with
  | .nmi => s.setPending { s.pending with nmi := false }
  | .irq => s.setPending { s.pending with irq := false }

/-- The requests a responder returned are merged into the pending flags (R265 (b)). -/
def State.mergeRequests (nmi irq : Bool) (s : State) : State :=
  s.setPending { nmi := s.pending.nmi || nmi, irq := s.pending.irq || irq }

/-- A transaction is added to the cycle's trace. -/
def State.record (t : Transaction) (s : State) : State := s.setCyc { s.cyc with trace := s.cyc.trace ++ [t] }

/-! ### Buses and lines -/

/-- A bus write masks the value to the bus width and calls no listener (R65, R66). -/
def Bus.write {w : Nat} (value : Nat) (_ : Bus w) : Bus w := ⟨BitVec.ofNat w value⟩

/-- A bus read answers the stored value (R65). -/
def Bus.read {w : Nat} (b : Bus w) : BitVec w := b.value

def State.writeAddrBus (value : Nat) (s : State) : State :=
  s.setWires { s.wires with addr := s.wires.addr.write value }

def State.writeDataBus (value : Nat) (s : State) : State :=
  s.setWires { s.wires with data := s.wires.data.write value }

/-- The line of a name (R68, R75). -/
def Wires.line (n : LineName) (w : Wires) : Line :=
  match n with
  | .rw => w.rw
  | .clock => w.clock
  | .nmi => w.nmi
  | .irq => w.irq
  | .reset => w.reset
  | .device k => w.device.getD k .unlistened

/-- The wiring has made the line (R60, R68): the core's lines always, a device's once it is wired (R75). -/
def Wires.made (n : LineName) (w : Wires) : Bool :=
  match n with
  | .rw | .clock | .nmi | .irq | .reset => true
  | .device k => decide (k < w.device.length)

/-- The wires with one line replaced. A device line that the wiring has not made stays unmade. -/
def Wires.setLine (n : LineName) (l : Line) (w : Wires) : Wires :=
  match n with
  | .rw => { w with rw := l }
  | .clock => { w with clock := l }
  | .nmi => { w with nmi := l }
  | .irq => { w with irq := l }
  | .reset => { w with reset := l }
  | .device k => { w with device := w.device.set k l }

/-- The wiring assembly makes a line, where it has not: the core's are made from the start (R60, R68, R301 step 1). -/
def Wires.make (n : LineName) (w : Wires) : Wires :=
  match n with
  | .rw | .clock | .nmi | .irq | .reset => w
  | .device k => { w with device := w.device ++ List.replicate (k + 1 - w.device.length) .unlistened }

/-- The listeners of a level, in registration order (R60). -/
def Line.listeners (level : Bool) (l : Line) : List Reaction := if level then l.onHigh else l.onLow

/-- `registerListener(level, callback)` appends (R61). -/
def Line.register (level : Bool) (r : Reaction) (l : Line) : Line :=
  if level then { l with onHigh := l.onHigh ++ [r] } else { l with onLow := l.onLow ++ [r] }

/-- The wiring makes a line, at wiring or install time. -/
def State.makeLine (n : LineName) (s : State) : State := s.setWires (s.wires.make n)

/-- `registerListener` at wiring or install time, on a line obtained by its name from the wiring (R61, R64, R75). -/
def State.registerListener (n : LineName) (level : Bool) (r : Reaction) (s : State) : State :=
  let w := s.wires.make n
  s.setWires (w.setLine n ((w.line n).register level r))

/-- An INT_LINE_BINDING for one request (R266): at install, a listener on its line sets the request at `level`. -/
def State.bindRequest (k : Interrupt) (level : Bool) (s : State) : State :=
  match k with
  | .nmi => s.registerListener .nmi level (.request .nmi)
  | .irq => s.registerListener .irq level (.request .irq)

/-- A device's `install()` (R75): it obtains its lines, then registers its listeners, in their order. -/
def install (d : Device) (s : State) : State :=
  d.listeners.foldl (fun s l => s.registerListener l.line l.level l.reaction)
    (d.lines.foldl (fun s n => s.makeLine n) s)

/-- A device's `powerUp()` (R75): it initialises the device's internal state, its memory or the environment's E. -/
def powerUpDevice (d : Device) (s : State) : State :=
  let s := s.setMem (d.contents.foldl (fun m c => m.set c.1.toNat c.2) s.mem)
  if d.environment then s.setEnv (Config.respPowerUp s.env) else s

/-- The flat 64 KiB RAM as a device (R76, D29): it listens to clock HIGH. -/
def Device.flatRam : Device :=
  { lines := [], listeners := [⟨.clock, true, .ram⟩], contents := [], environment := false }

/-- The environment's devices as one (R76): they listen to clock HIGH. -/
def Device.responder : Device :=
  { lines := [], listeners := [⟨.clock, true, .responder⟩], contents := [], environment := true }

/-- The wire is set to a level; its listeners are not run. -/
def State.setLevel (n : LineName) (level : Bool) (s : State) : State :=
  s.setWires (s.wires.setLine n { s.wires.line n with level := level })

/-- The flat RAM reacts to clock HIGH (R76): in a read it drives the data bus, in a write it consumes it. -/
def ramReact (s : State) : State :=
  if s.wires.rw.level = Config.readLevel then
    s.writeDataBus (s.mem.get s.wires.addr.read.toNat).toNat
  else s.setMem (s.mem.set s.wires.addr.read.toNat s.wires.data.read)

/-- The environment reacts to clock HIGH by RESPONDER (R76). -/
def responderReact (s : State) : State :=
  if s.wires.rw.level = Config.readLevel then
    let q := Config.respRead s.env s.wires.addr.read s.wires.data.read
    ((s.writeDataBus q.data.toNat).setEnv q.env).mergeRequests q.nmi q.irq
  else
    let q := Config.respWrite s.env s.wires.addr.read s.wires.data.read
    (s.setEnv q.env).mergeRequests q.nmi q.irq

/-- What a callback reads (R63, R66). -/
def Reading.value (s : State) : Reading → Nat
  | .const v => v
  | .addr => s.wires.addr.read.toNat
  | .data => s.wires.data.read.toNat
  | .level n => (s.wires.line n).level.toNat
  | .stored a => (s.mem.get (BitVec.ofNat 16 (a.value s)).toNat).toNat
  | .sum a b => a.value s + b.value s
  | .bitAnd a b => a.value s &&& b.value s
  | .bitOr a b => a.value s ||| b.value s
  | .bitXor a b => a.value s ^^^ b.value s
  | .shiftLeft a k => a.value s <<< k
  | .shiftRight a k => a.value s >>> k

/-- A device that reacts where the address bus holds one of these addresses, as an address decoder does (R75). -/
def Reaction.onAddress (first last : Word) (r : Reaction) : Reaction :=
  .branch .addr first.toNat last.toNat r .nothing

/-- A device that reacts where a line it watches has this level: a chip select, the read/write line (R13, R75). -/
def Reaction.onLevel (n : LineName) (level : Bool) (r : Reaction) : Reaction :=
  .branch (.level n) level.toNat level.toNat r .nothing

/-- A device that reacts where the data bus holds one of these bytes, such as a register that is written (R63, R75). -/
def Reaction.onData (first last : Byte) (r : Reaction) : Reaction :=
  .branch .data first.toNat last.toNat r .nothing

/-- One listener runs to completion (R62); `set` is the `setState` it may call (R63). -/
def react (set : LineName → Bool → State → Res Unit) (r : Reaction) (s : State) : Res Unit :=
  match r with
  | .ram => .ok () (ramReact s)
  | .responder => .ok () (responderReact s)
  | .setLine n level => set n level s
  | .writeAddr v => .ok () (s.writeAddrBus (v.value s))
  | .writeData v => .ok () (s.writeDataBus (v.value s))
  | .request k => .ok () (s.raiseRequest k)
  | .register _ _ _ => .refused .registrationDuringDispatch
  | .store a v => .ok () (s.setMem (s.mem.set (BitVec.ofNat 16 (a.value s)).toNat (BitVec.ofNat 8 (v.value s))))
  | .nothing => .ok () s
  | .both r q => (react set r s).bind fun _ s => react set q s
  | .branch on first last r q =>
    if first ≤ on.value s ∧ on.value s ≤ last then react set r s else react set q s

/-- The listeners run in registration order (R62). -/
def dispatch (set : LineName → Bool → State → Res Unit) : List Reaction → State → Res Unit
  | [], s => .ok () s
  | r :: rs, s => (react set r s).bind fun _ s => dispatch set rs s

/-- `setState(level)` with dispatches nested at most `depth` deep (R62, R63): the level is set, then every listener
registered for it runs, whatever the level was before. The list is the one the dispatch started with (D28). -/
def setStateWithin : Nat → LineName → Bool → State → Res Unit
  | 0, _, _, _ => .fault .dispatchUnbounded
  | depth + 1, n, level, s =>
    dispatch (setStateWithin depth) ((s.wires.line n).listeners level) (s.setLevel n level)

/-- How many lines there are. -/
def Wires.count (w : Wires) : Nat := w.device.length + 5

/-- How many contents a memory of 2^16 bytes has. -/
@[irreducible] def Memory.contents : Nat := (2 ^ 8) ^ (2 ^ 16)

/-- A bound on the calls of `setState` that differ in what decides their course: the line and the level they are called
with, the two buses, the level of each line, the devices' memory and the environment's state. A call that nests deeper
has such a call inside itself again, and so never completes (DEDUCED: notes/assumptions/12.md). -/
@[irreducible] def courses (lines : Nat) : Nat :=
  let wiring := Memory.contents * ((lines * 2) * (2 ^ 16 * (2 ^ 8 * 2 ^ lines)))
  wiring + wiring * Config.lastEnv

/-- `line.setState(level)` (R62): every dispatch that completes is carried out, however deep it nests (R63). `courses`
rests on an opaque constant; the hundred beyond it let a dispatch be evaluated. -/
def setState (n : LineName) (level : Bool) (s : State) : Res Unit := setStateWithin (courses s.wires.count + 100) n level s

/-! ### Bus transactions -/

/-- The clock after a transaction: driven low only under CLOCK_LOW_PER_TRANSACTION (R72, R73, R74). -/
def clockAfterTransaction (s : State) : Res Unit :=
  if Config.clockLowPerTransaction then setState .clock false s else .ok () s

/-- `MemRead(a, 1)`, the bus read transaction (R72): address, read/write HIGH, clock HIGH, then the data bus. -/
def memRead (a : Word) (s : State) : Res Byte :=
  (setState .rw Config.readLevel (s.writeAddrBus a.toNat)).bind fun _ s =>
  (setState .clock true s).bind fun _ s =>
  let v := s.wires.data.read
  (clockAfterTransaction s).bind fun _ s =>
  .ok v (s.record ⟨false, a, v⟩)

/-- `MemWrite(a, 1, v)`, the bus write transaction (R73): address, data, read/write LOW, clock HIGH. -/
def memWrite (a : Word) (v : Byte) (s : State) : Res Unit :=
  (setState .rw Config.writeLevel ((s.writeAddrBus a.toNat).writeDataBus v.toNat)).bind fun _ s =>
  (setState .clock true s).bind fun _ s =>
  (clockAfterTransaction s).bind fun _ s =>
  .ok () (s.record ⟨true, a, v⟩)

/-- Two bytes read in turn make a word, low byte first. -/
def readPair (lowAt highAt : Word) (s : State) : Res Word :=
  (memRead lowAt s).bind fun lo s =>
  (memRead highAt s).bind fun hi s =>
  .ok (word hi lo) s

/-- `ReadWord(a)` (R78): little-endian, the second byte at `a + 1` mod 2^16. -/
def readWord (a : Word) (s : State) : Res Word := readPair a (a + 1) s

/-- The next byte of the instruction stream: PC advances by one (R121, R124). -/
def fetchByte (s : State) : Res Byte :=
  (memRead s.regs.pc s).bind fun v s => .ok v (s.setPC (s.regs.pc + 1))

/-! ### The stack -/

/-- The stack byte SP designates (R34). -/
def stackAddress (sp : Byte) : Word := word Config.stackPage sp

/-- `Push(v)` (R80). -/
def push (v : Byte) (s : State) : Res Unit :=
  (memWrite (stackAddress s.regs.sp) v s).bind fun _ s => .ok () (s.setSP (s.regs.sp - 1))

/-- `Pull()` (R81). -/
def pull (s : State) : Res Byte :=
  let s := s.setSP (s.regs.sp + 1)
  memRead (stackAddress s.regs.sp) s

/-- The high byte of a word is pushed, then the low byte (R231, R242). -/
def pushWord (w : Word) (s : State) : Res Unit :=
  (push (hi8 w) s).bind fun _ s => push (lo8 w) s

/-- The low byte of a word is pulled, then the high byte (R232, R243). -/
def pullWord (s : State) : Res Word :=
  (pull s).bind fun lo s => (pull s).bind fun hi s => .ok (word hi lo) s

/-! ### Fatal conditions, interrupt entry and return, power-up -/

/-- `raise Fatal(kind, ...)` (R260): the run status takes the opcode and its address; nothing later in the cycle runs
(R146). DEDUCED: notes/assumptions/13.md. -/
def raiseFatal {α : Type} (kind : FatalKind) (opcode : Byte) (s : State) : Res α :=
  .fatal (s.setRun (.fatal kind opcode s.cyc.opcAddr))

/-- The vector of a request (R242). -/
def vectorOf (k : Interrupt) : Word :=
  match k with
  | .nmi => Config.vecNmi
  | .irq => Config.vecIrq

/-- Which request BRK serves: NMI if one is pending, else IRQ (R242). -/
def served (p : Pending) : Interrupt := if p.nmi then .nmi else .irq

/-- Taking an interrupt or a software break (R242, R270): PC high, PC low and the status byte are pushed, P.I is set, PC
is loaded from the vector chosen after the pushes, and the request served is cleared after the vector is read (D16).
A software BRK first steps PC over the break-mark byte. -/
def interruptEntry (forced : Bool) (s : State) : Res Unit :=
  let s := if forced then s else s.setPC (s.regs.pc + 1)
  (pushWord s.regs.pc s).bind fun _ s =>
  (push (brkByte forced s.regs.p) s).bind fun _ s =>
  let s := s.setP { s.regs.p with i := true }
  let k := served s.pending
  (readWord (vectorOf k) s).bind fun target s =>
  .ok () ((s.setPC target).clearRequest k)

/-- Return from interrupt (R243, R271): the status byte without bits 5 and 4, then PC. -/
def returnFromInterrupt (s : State) : Res Unit :=
  (pull s).bind fun b s =>
  let s := s.setP (fromByte b true s.regs.p)
  (pullWord s).bind fun target s => .ok () (s.setPC target)

/-- The run status after `powerUp()`: Running (R53), but a fatal status is never cleared (R46). -/
def RunStatus.poweredUp : RunStatus → RunStatus
  | .running => .running
  | .stopped => .running
  | .fatal kind opcode address => .fatal kind opcode address

/-- `powerUp()` (R300), which leaves what the table of R53 says. -/
def powerUp (v : Config.ResetValues) (s : State) : Res Unit :=
  let s := s.setRegs { s.regs with a := v.a, x := v.x, y := v.y, p := v.p, sp := 0xFD }
  let s := (s.setPending { nmi := false, irq := false }).setRun s.run.poweredUp
  (readWord Config.vecReset s).bind fun target s => .ok () (s.setPC target)

/-- The boot of R301, steps 3 to 5: every device's `install()`, every device's `powerUp()`, then the core's. -/
def boot (devices : List Device) (v : Config.ResetValues) (s : State) : Res Unit :=
  powerUp v (devices.foldl (fun s d => powerUpDevice d s) (devices.foldl (fun s d => install d s) s))

/-! ### The end of a cycle -/

/-- The charge of R143, against the credit and the cumulative counter. -/
def State.charge (cost : Nat) (s : State) : State :=
  s.setBudget { credit := s.budget.credit - cost, total := s.budget.total + cost }

/-- The end of the cycle of instruction `i`, whose handler answered whether a page was crossed: the cost is charged
(R143), the clock is driven low (R144), and the execution agent is back at the boundary. A fatal condition skips all
of it (R146). -/
def finish (i : Instr) (r : Res Bool) : Host.Outcome State Fault Refusal :=
  match r.bind fun crossed s => setState .clock false (s.charge (i.cost crossed)) with
  | .ok _ s => .next (s.setLoop .boundary)
  | .fatal s => .next s
  | .fault r => .fault r
  | .refused r => .refused r

end Sys2Proof.Machine
end

