-- ==== Sys2Proof/Machine/Operands.lean ====
section
/-! DEFINITION. Operand resolution in the 13 addressing modes (R124..R138), the operand helpers (R139, R140), and the
shapes of handler that the instruction rules share.

`Machine.fetch` has already read the operand bytes of the instruction stream, by one transaction each, when these
run: an operand carries them, and PC is the address after the instruction (notes/assumptions/10.md). -/

namespace Sys2Proof.Machine

/-- The address of a zero-page pointer's high byte (R134, R135): the two readings of ZP_PTR_WRAP differ only for a
pointer at 0xFF. -/
def zpPointerHigh (wrap : Bool) (p : Byte) : Word :=
  if p = 0xFF then (if wrap then 0x0000 else 0x0100) else zext16 p + 1

/-- The address of the JMP indirect pointer's high byte (R129): the two readings of JMP_IND_PAGE_WRAP differ only
where the pointer's low byte is 0xFF. -/
def indPointerHigh (wrap : Bool) (ptr : Word) : Word :=
  if lo8 ptr = 0xFF then (if wrap then word (hi8 ptr) 0x00 else ptr + 1) else ptr + 1

/-- The addresses of the low and the high byte of the pointer a mode reads, if it reads one (R129, R134, R135). -/
def pointerCells (o : Operand) (r : Regs) : Option (Word × Word) :=
  match o with
  | .ind ptr => some (ptr, indPointerHigh Config.jmpIndPageWrap ptr)
  | .izx b => some (zext16 (b + r.x), zpPointerHigh Config.zpPtrWrap (b + r.x))
  | .izy b => some (zext16 b, zpPointerHigh Config.zpPtrWrap b)
  | _ => none

/-- The effective address ADL takes, given the registers and the pointer read, if any (R125..R137). -/
def addressOf (o : Operand) (r : Regs) (pointer : Word) : Word :=
  match o with
  | .imp | .acc => r.adl
  | .imm _ => r.pc - 1
  | .abs w => w
  | .ind _ | .izx _ => pointer
  | .abx w => w + zext16 r.x
  | .aby w => w + zext16 r.y
  | .izy _ => pointer + zext16 r.y
  | .zp b => zext16 b
  | .zpx b => zext16 (b + r.x)
  | .zpy b => zext16 (b + r.y)
  | .rel b => r.pc + sext16 b

/-- Two addresses lie in different pages (R138). -/
def pageDiffers (v w : Word) : Bool := hi8 v != hi8 w

/-- Whether indexing crossed a page (R130, R131, R135); the branch handler decides for itself (R137). -/
def crossesPage (o : Operand) (r : Regs) (pointer : Word) : Bool :=
  match o with
  | .abx w => pageDiffers w (w + zext16 r.x)
  | .aby w => pageDiffers w (w + zext16 r.y)
  | .izy _ => pageDiffers pointer (pointer + zext16 r.y)
  | _ => false

/-- Operand resolution (R124): the pointer bytes are read, low byte first, and ADL is set. Answers `pageCrossed`. The
byte at the effective address is not read (D8). -/
def resolve (o : Operand) (s : State) : Res Bool :=
  match pointerCells o s.regs with
  | none => .ok (crossesPage o s.regs 0) (s.setADL (addressOf o s.regs 0))
  | some (lowAt, highAt) =>
    (readPair lowAt highAt s).bind fun pointer s =>
    .ok (crossesPage o s.regs pointer) (s.setADL (addressOf o s.regs pointer))

/-- `operand()` (R139). An immediate's one read is the one `fetch` made (R127, notes/assumptions/10.md). -/
def operand (o : Operand) (s : State) : Res Byte :=
  match o with
  | .acc => .ok s.regs.a s
  | .imp => raiseFatal .impliedOperandRequested s.cyc.opcode s
  | .imm b => .ok b s
  | _ => memRead s.regs.adl s

/-- `writeBack(v)` (R140). -/
def writeBack (o : Operand) (v : Byte) (s : State) : Res Unit :=
  match o with
  | .acc => .ok () (s.setA v)
  | .imp => raiseFatal .impliedOperandRequested s.cyc.opcode s
  | _ => memWrite s.regs.adl v s

/-- A handler that reads its operand once and then changes registers only. -/
def reading (o : Operand) (effect : Byte → State → State) (s : State) : Res Bool :=
  (resolve o s).bind fun crossed s =>
  (operand o s).bind fun m s =>
  .ok crossed (effect m s)

/-- A handler that stores one byte at ADL (R163..R165). -/
def storing (o : Operand) (value : Regs → Byte) (s : State) : Res Bool :=
  (resolve o s).bind fun crossed s =>
  (memWrite s.regs.adl (value s.regs) s).bind fun _ s =>
  .ok crossed s

/-- A read-modify-write handler: one read, then one write of the result, then its flags (R88, D10). -/
def modifying (o : Operand) (result : Byte → Flags → Byte × Flags) (s : State) : Res Bool :=
  (resolve o s).bind fun crossed s =>
  (operand o s).bind fun m s =>
  let q := result m s.regs.p
  (writeBack o q.1 s).bind fun _ s =>
  .ok crossed (s.setP q.2)

/-- A handler that only changes registers (implied mode, R125). -/
def implied (effect : State → State) (s : State) : Res Bool := .ok false (effect s)

/-- A handler that is one operation on the stack or an entry, in implied mode. -/
def running (op : State → Res Unit) (s : State) : Res Bool := (op s).bind fun _ s => .ok false s

end Sys2Proof.Machine
end

