-- ==== Sys2Proof/Machine/LoadStore.lean ====
section
/-! DEFINITION. Loads, stores and register transfers (spec/41_load_store_transfer.md). -/

namespace Sys2Proof.Machine

/-- `A <- v; setNZ(v)` -/
def loadA (v : Byte) (s : State) : State := s.setRegs { s.regs with a := v, p := setNZ v s.regs.p }

/-- `X <- v; setNZ(v)` -/
def loadX (v : Byte) (s : State) : State := s.setRegs { s.regs with x := v, p := setNZ v s.regs.p }

/-- `Y <- v; setNZ(v)` -/
def loadY (v : Byte) (s : State) : State := s.setRegs { s.regs with y := v, p := setNZ v s.regs.p }

/-- LDA (R160). -/
def execLda (o : Operand) (s : State) : Host.Outcome State Fault Refusal := finish (.lda o) (reading o loadA s)

/-- LDX (R161). -/
def execLdx (o : Operand) (s : State) : Host.Outcome State Fault Refusal := finish (.ldx o) (reading o loadX s)

/-- LDY (R162). -/
def execLdy (o : Operand) (s : State) : Host.Outcome State Fault Refusal := finish (.ldy o) (reading o loadY s)

/-- STA (R163). -/
def execSta (o : Operand) (s : State) : Host.Outcome State Fault Refusal := finish (.sta o) (storing o Regs.a s)

/-- STX (R164). -/
def execStx (o : Operand) (s : State) : Host.Outcome State Fault Refusal := finish (.stx o) (storing o Regs.x s)

/-- STY (R165). -/
def execSty (o : Operand) (s : State) : Host.Outcome State Fault Refusal := finish (.sty o) (storing o Regs.y s)

/-- TAX (R166). -/
def execTax (s : State) : Host.Outcome State Fault Refusal := finish .tax (implied (fun s => loadX s.regs.a s) s)

/-- TAY (R167). -/
def execTay (s : State) : Host.Outcome State Fault Refusal := finish .tay (implied (fun s => loadY s.regs.a s) s)

/-- TXA (R168). -/
def execTxa (s : State) : Host.Outcome State Fault Refusal := finish .txa (implied (fun s => loadA s.regs.x s) s)

/-- TYA (R169). -/
def execTya (s : State) : Host.Outcome State Fault Refusal := finish .tya (implied (fun s => loadA s.regs.y s) s)

/-- TSX (R170). -/
def execTsx (s : State) : Host.Outcome State Fault Refusal := finish .tsx (implied (fun s => loadX s.regs.sp s) s)

/-- TXS (R171): the only transfer that sets no flag. -/
def execTxs (s : State) : Host.Outcome State Fault Refusal := finish .txs (implied (fun s => s.setSP s.regs.x) s)

end Sys2Proof.Machine
end

