-- ==== Sys2Proof/Machine/Arith.lean ====
section
/-! DEFINITION. Arithmetic, logic, compare, increment and decrement (spec/43_arith_logic.md). -/

namespace Sys2Proof.Machine

/-- A and P take a result and its flags. -/
def takeA (q : Byte × Flags) (s : State) : State := s.setRegs { s.regs with a := q.1, p := q.2 }

/-- ADC (R190, R205). -/
def execAdc (o : Operand) (s : State) : Host.Outcome State Fault Refusal :=
  finish (.adc o) (reading o (fun m s => takeA (adcResult s.regs.a m s.regs.p) s) s)

/-- SBC (R191, R206). -/
def execSbc (o : Operand) (s : State) : Host.Outcome State Fault Refusal :=
  finish (.sbc o) (reading o (fun m s => takeA (sbcResult s.regs.a m s.regs.p) s) s)

/-- AND (R192). -/
def execAnd (o : Operand) (s : State) : Host.Outcome State Fault Refusal :=
  finish (.and o) (reading o (fun m s => loadA (s.regs.a &&& m) s) s)

/-- ORA (R193). -/
def execOra (o : Operand) (s : State) : Host.Outcome State Fault Refusal :=
  finish (.ora o) (reading o (fun m s => loadA (s.regs.a ||| m) s) s)

/-- EOR (R194). -/
def execEor (o : Operand) (s : State) : Host.Outcome State Fault Refusal :=
  finish (.eor o) (reading o (fun m s => loadA (s.regs.a ^^^ m) s) s)

/-- BIT (R195): A is unchanged. -/
def execBit (o : Operand) (s : State) : Host.Outcome State Fault Refusal :=
  finish (.bit o) (reading o (fun m s => s.setP (bitFlags s.regs.a m s.regs.p)) s)

/-- The compare handler of a register (R196..R198): a mode outside the mnemonic's list is fatal (R262). -/
def comparing (i : Instr) (modes : List Mode) (o : Operand) (register : Regs → Byte) (s : State) :
    Host.Outcome State Fault Refusal :=
  finish i ((resolve o s).bind fun crossed s =>
    if modes.contains o.mode then
      (operand o s).bind fun m s => .ok crossed (s.setP (compareFlags (register s.regs) m s.regs.p))
    else raiseFatal .invalidAddressingMode s.cyc.opcode s)

/-- CMP (R196). -/
def execCmp (o : Operand) (s : State) : Host.Outcome State Fault Refusal :=
  comparing (.cmp o) Mnemonic.cmp.modes o Regs.a s

/-- CPX (R197). -/
def execCpx (o : Operand) (s : State) : Host.Outcome State Fault Refusal :=
  comparing (.cpx o) Mnemonic.cpx.modes o Regs.x s

/-- CPY (R198). -/
def execCpy (o : Operand) (s : State) : Host.Outcome State Fault Refusal :=
  comparing (.cpy o) Mnemonic.cpy.modes o Regs.y s

/-- INC (R199). -/
def execInc (o : Operand) (s : State) : Host.Outcome State Fault Refusal := finish (.inc o) (modifying o incResult s)

/-- DEC (R200). -/
def execDec (o : Operand) (s : State) : Host.Outcome State Fault Refusal := finish (.dec o) (modifying o decResult s)

/-- INX (R201). -/
def execInx (s : State) : Host.Outcome State Fault Refusal := finish .inx (implied (fun s => loadX (s.regs.x + 1) s) s)

/-- INY (R202). -/
def execIny (s : State) : Host.Outcome State Fault Refusal := finish .iny (implied (fun s => loadY (s.regs.y + 1) s) s)

/-- DEX (R203). -/
def execDex (s : State) : Host.Outcome State Fault Refusal := finish .dex (implied (fun s => loadX (s.regs.x - 1) s) s)

/-- DEY (R204). -/
def execDey (s : State) : Host.Outcome State Fault Refusal := finish .dey (implied (fun s => loadY (s.regs.y - 1) s) s)

end Sys2Proof.Machine
end

