-- ==== Sys2Proof/Machine/Control.lean ====
section
/-! DEFINITION. Control transfer, break, return, no operation, and the unimplemented slots (spec/45_control.md, R106). -/

namespace Sys2Proof.Machine

/-- JMP (R230): a mode other than ABS and IND is fatal (R262). -/
def execJmp (o : Operand) (s : State) : Host.Outcome State Fault Refusal :=
  finish (.jmp o) ((resolve o s).bind fun crossed s =>
    if Mnemonic.jmp.modes.contains o.mode then .ok crossed (s.setPC s.regs.adl)
    else raiseFatal .invalidAddressingMode s.cyc.opcode s)

/-- JSR (R231): the return address less one is pushed, high byte first. -/
def execJsr (target : Word) (s : State) : Host.Outcome State Fault Refusal :=
  finish (.jsr target) ((resolve (.abs target) s).bind fun crossed s =>
    (pushWord (s.regs.pc - 1) s).bind fun _ s => .ok crossed (s.setPC s.regs.adl))

/-- RTS (R232): the pulled address plus one. -/
def execRts (s : State) : Host.Outcome State Fault Refusal :=
  finish .rts (running (fun s => (pullWord s).bind fun target s => .ok () (s.setPC (target + 1))) s)

/-- The common branch operation (R233): taken, PC takes ADL, and a page is crossed if the two differ in their high
byte; not taken, no page is crossed. -/
def branch (offset : Byte) (cond : Flags → Bool) (s : State) : Res Bool :=
  (resolve (.rel offset) s).bind fun _ s =>
  if cond s.regs.p then .ok (pageDiffers s.regs.adl s.regs.pc) (s.setPC s.regs.adl) else .ok false s

/-- BPL (R234). -/
def execBpl (b : Byte) (s : State) : Host.Outcome State Fault Refusal := finish (.bpl b) (branch b (fun p => !p.n) s)

/-- BMI (R235). -/
def execBmi (b : Byte) (s : State) : Host.Outcome State Fault Refusal := finish (.bmi b) (branch b Flags.n s)

/-- BVC (R236). -/
def execBvc (b : Byte) (s : State) : Host.Outcome State Fault Refusal := finish (.bvc b) (branch b (fun p => !p.v) s)

/-- BVS (R237). -/
def execBvs (b : Byte) (s : State) : Host.Outcome State Fault Refusal := finish (.bvs b) (branch b Flags.v s)

/-- BCC (R238). -/
def execBcc (b : Byte) (s : State) : Host.Outcome State Fault Refusal := finish (.bcc b) (branch b (fun p => !p.c) s)

/-- BCS (R239). -/
def execBcs (b : Byte) (s : State) : Host.Outcome State Fault Refusal := finish (.bcs b) (branch b Flags.c s)

/-- BNE (R240). -/
def execBne (b : Byte) (s : State) : Host.Outcome State Fault Refusal := finish (.bne b) (branch b (fun p => !p.z) s)

/-- BEQ (R241). -/
def execBeq (b : Byte) (s : State) : Host.Outcome State Fault Refusal := finish (.beq b) (branch b Flags.z s)

/-- BRK (R242): a software break, or the interrupt entry of a forced cycle. -/
def execBrk (s : State) : Host.Outcome State Fault Refusal := finish .brk (running (interruptEntry s.cyc.forced) s)

/-- RTI (R243). -/
def execRti (s : State) : Host.Outcome State Fault Refusal := finish .rti (running returnFromInterrupt s)

/-- NOP (R244). -/
def execNop (s : State) : Host.Outcome State Fault Refusal := finish .nop (implied (fun s => s) s)

/-- The handler of the default descriptor (R106, R123, R261): the run ends fatally, with no charge. -/
def execUnimplemented (opcode : Byte) (s : State) : Host.Outcome State Fault Refusal :=
  finish (.unimplemented opcode) (raiseFatal .unimplementedOpcode opcode s)

end Sys2Proof.Machine
end

