-- ==== Sys2Proof/Machine/FlagOps.lean ====
section
/-! DEFINITION. The flag instructions (spec/46_flag_ops.md). -/

namespace Sys2Proof.Machine

/-- A handler that changes the status register only. -/
def flagging (change : Flags → Flags) (s : State) : Res Bool := implied (fun s => s.setP (change s.regs.p)) s

/-- CLC (R250). -/
def execClc (s : State) : Host.Outcome State Fault Refusal := finish .clc (flagging (fun p => { p with c := false }) s)

/-- CLD (R251). -/
def execCld (s : State) : Host.Outcome State Fault Refusal := finish .cld (flagging (fun p => { p with d := false }) s)

/-- CLI (R252). -/
def execCli (s : State) : Host.Outcome State Fault Refusal := finish .cli (flagging (fun p => { p with i := false }) s)

/-- CLV (R253). -/
def execClv (s : State) : Host.Outcome State Fault Refusal := finish .clv (flagging (fun p => { p with v := false }) s)

/-- SEC (R254). -/
def execSec (s : State) : Host.Outcome State Fault Refusal := finish .sec (flagging (fun p => { p with c := true }) s)

/-- SED (R255). -/
def execSed (s : State) : Host.Outcome State Fault Refusal := finish .sed (flagging (fun p => { p with d := true }) s)

/-- SEI (R256). -/
def execSei (s : State) : Host.Outcome State Fault Refusal := finish .sei (flagging (fun p => { p with i := true }) s)

end Sys2Proof.Machine
end

