-- ==== Sys2Proof/Machine/Shift.lean ====
section
/-! DEFINITION. Shifts and rotates, on the accumulator or on memory (spec/44_shift_rotate.md). -/

namespace Sys2Proof.Machine

/-- ASL (R220). -/
def execAsl (o : Operand) (s : State) : Host.Outcome State Fault Refusal := finish (.asl o) (modifying o aslResult s)

/-- LSR (R221). -/
def execLsr (o : Operand) (s : State) : Host.Outcome State Fault Refusal := finish (.lsr o) (modifying o lsrResult s)

/-- ROL (R222). -/
def execRol (o : Operand) (s : State) : Host.Outcome State Fault Refusal := finish (.rol o) (modifying o rolResult s)

/-- ROR (R223). -/
def execRor (o : Operand) (s : State) : Host.Outcome State Fault Refusal := finish (.ror o) (modifying o rorResult s)

end Sys2Proof.Machine
end

