-- ==== Sys2Proof/Machine/Stack.lean ====
section
/-! DEFINITION. The stack instructions (spec/42_stack.md). -/

namespace Sys2Proof.Machine

/-- PHA (R180). -/
def execPha (s : State) : Host.Outcome State Fault Refusal := finish .pha (running (fun s => push s.regs.a s) s)

/-- PHP (R181): bits 5 and 4 of the pushed byte are forced. -/
def execPhp (s : State) : Host.Outcome State Fault Refusal :=
  finish .php (running (fun s => push (phpByte s.regs.p) s) s)

/-- PLA (R182). -/
def execPla (s : State) : Host.Outcome State Fault Refusal :=
  finish .pla (running (fun s => (pull s).bind fun v s => .ok () (loadA v s)) s)

/-- PLP (R183): bits 5 and 4 of the pulled byte are ignored. -/
def execPlp (s : State) : Host.Outcome State Fault Refusal :=
  finish .plp (running (fun s => (pull s).bind fun b s => .ok () (s.setP (fromByte b true s.regs.p))) s)

end Sys2Proof.Machine
end

