-- ==== Sys2Proof/Machine/Fetch.lean ====
section
/-! DEFINITION. `cycle()` (R120..R123, R145): the forced/normal choice, the fetch of an instruction's bytes through the
bus, and its execution. -/

namespace Sys2Proof.Machine

/-- The per-cycle values are made anew (R49). -/
def State.beginCycle (forced : Bool) (s : State) : State :=
  s.setCyc { forced := forced, opcode := 0x00, opcAddr := s.regs.pc, trace := [] }

/-- Whether the cycle is a forced BRK: the pending requests, and nothing else (R120). -/
def State.forced (s : State) : Bool := s.pending.nmi || s.pending.irq

/-- Reads the operand bytes a descriptor's mode has (R124), then answers the instruction. -/
def fetchOperand (d : Descriptor) (s : State) : Res Instr :=
  match d.mode.operandBytes with
  | 0 => .ok (d.instr 0 0) s
  | 1 => (fetchByte s).bind fun byte1 s => .ok (d.instr byte1 0) s
  | _ => (fetchByte s).bind fun byte1 s => (fetchByte s).bind fun byte2 s => .ok (d.instr byte1 byte2) s

/-- Reads an instruction through the bus (R121, R123, R89): the opcode byte, then, if its slot is documented, its operand
bytes, PC advancing by one for each. -/
def fetch (s : State) : Res Instr :=
  (fetchByte s).bind fun opcode s =>
  let s := s.setCyc { s.cyc with opcode := opcode }
  match descriptor opcode with
  | none => .ok (.unimplemented opcode) s
  | some d => fetchOperand d s

/-- One `cycle()` (R145). -/
def cycle (s : State) : Host.Outcome State Fault Refusal :=
  if s.forced then exec .brk (s.beginCycle true)
  else match fetch (s.beginCycle false) with
    | .ok i s => exec i s
    | .fatal s => .next s
    | .fault r => .fault r
    | .refused r => .refused r

end Sys2Proof.Machine
end

