-- ==== Sys2Proof/Machine/Scheduler.lean ====
section
/-! DEFINITION. The moves of the agents (R5): the ticker (R281), the credit gate and the loop of the execution agent
(R285..R287), the diagnostic agent (R289), the host and the environment (R265, R288, R296). -/

namespace Sys2Proof.Machine

def State.setCredit (v : Int) (s : State) : State := s.setBudget { s.budget with credit := v }
def State.setWake (v : Bool) (s : State) : State := s.setSched { s.sched with wake := v }

/-- One move of the ticker with CREDIT_PER_TICK = `k` (R281): tick.1 stores the credit, tick.2 releases the wake signal. -/
def tickerMove (k : Int) (s : State) : State :=
  match s.sched.ticker with
  | .idle => (s.setCredit k).setSched { s.sched with ticker := .granted }
  | .granted => s.setSched { s.sched with ticker := .idle, wake := true }

/-- The diagnostic agent: one exchange of the cumulative counter with 0 (R289). -/
def diagnosticMove (s : State) : State :=
  (s.setBudget { s.budget with total := 0 }).setSched { s.sched with report := s.budget.total }

/-- `creditGate()` (R285): with credit it passes and leaves `wake` alone; without, it takes a release that is there, or
waits. -/
def creditGate (s : State) : State :=
  if s.budget.credit < 1 then
    (if s.sched.wake then (s.setWake false).setLoop .cycle else s.setLoop .waiting)
  else s.setLoop .cycle

/-- The execution agent has no step: held by `pause`, which a later `stop` does not lift, or waiting for a release
(R286, R287, D23). -/
def State.blocked (s : State) : Bool :=
  match s.loop with
  | .idle => false
  | .boundary => false
  | .held => s.sched.pause
  | .waiting => !s.sched.wake
  | .cycle => false

/-- One move of the execution agent, where it is not blocked (R287): `runLoop` is called (R296); at the boundary stop,
then pause, then the gate; the end of a hold goes on to the gate without another look at `stop`; the end of a wait clears
`wake` and does not look at the credit again (R285); past the gate, one `cycle()`. -/
def executionMove (s : State) : Host.Outcome State Fault Refusal :=
  match s.loop with
  | .idle => .next (s.setLoop .boundary)
  | .boundary => .next (if s.sched.stop then s.setRun .stopped
      else if s.sched.pause then s.setLoop .held else creditGate s)
  | .held => .next (creditGate s)
  | .waiting => .next ((s.setWake false).setLoop .cycle)
  | .cycle => cycle s

/-- The execution agent's listed turn: it passes where the agent has no step. -/
def executionTurn (s : State) : Host.Outcome State Fault Refusal :=
  if s.run = .running ∧ s.blocked = false then executionMove s else .next s

/-- `runLoop` runs: it has been called and has not ended (R296, R297). -/
def State.looping (s : State) : Bool := decide (s.run = .running) && decide (s.loop ≠ .idle)

/-- The host calls `powerUp`, which it may only do while `runLoop` does not run (R296); `runLoop` is then to be called.
DESIGN CHOICE: notes/assumptions/18.md. -/
def powerUpTurn (s : State) : Host.Outcome State Fault Refusal :=
  if s.looping then .refused .powerUpWhileRunning
  else match powerUp Config.resetValues s with
    | .ok _ s => .next (s.setLoop .idle)
    | .fatal s => .next s
    | .fault r => .fault r
    | .refused r => .refused r

/-- A listed turn. -/
def takeTurn (t : Turn) (s : State) : Host.Outcome State Fault Refusal :=
  match t with
  | .execution => executionTurn s
  | .ticker => .next (if s.sched.ticking then tickerMove Config.creditPerTick s else s)
  | .diagnostic => .next (diagnosticMove s)
  | .request k => .next (s.raiseRequest k)
  | .setStop v => .next (s.setSched { s.sched with stop := v })
  | .setPause v => .next (s.setSched { s.sched with pause := v })
  | .setTicking v => .next (s.setSched { s.sched with ticking := v })
  | .powerUp => powerUpTurn s

/-- With no turn listed: the execution agent, or the ticker when the execution agent waits at the gate. -/
def defaultTurn (s : State) : Host.Outcome State Fault Refusal :=
  match s.run with
  | .stopped => .fault .stopped
  | .fatal kind opcode address => .fault (.fatal kind opcode address)
  | .running =>
    if s.blocked then
      (match s.loop with
       | .waiting => if s.sched.ticking then .next (tickerMove Config.creditPerTick s) else .fault .starved
       | _ => .fault .heldByPause)
    else executionMove s

end Sys2Proof.Machine
end

