-- ==== Sys2Proof/Machine/Step.lean ====
section
/-! DEFINITION. One step of the machine: one move of one agent (R5, R6). -/

namespace Sys2Proof.Machine

/-- The next listed turn, or the default one. -/
def step (s : State) : Host.Outcome State Fault Refusal :=
  match s.sched.turns with
  | [] => defaultTurn s
  | t :: ts => takeTurn t (s.setSched { s.sched with turns := ts })

/-- The machine with an instruction stored at PC, the flat RAM answering the fetch, and the execution agent past the gate
with no request pending and no turn listed: the next step fetches and runs it (notes/assumptions/11.md). -/
def State.withFetchWord (s : State) (nbits w : Nat) : State :=
  let bytes := tableBytes nbits w
  let pc := s.regs.pc
  { s with
    mem := ((s.mem.set pc.toNat (bytes.getD 0 0)).set (pc + 1).toNat (bytes.getD 1 0)).set (pc + 2).toNat
      (bytes.getD 2 0)
    pending := { nmi := false, irq := false }
    wires := { s.wires with
      rw := { s.wires.rw with onHigh := [], onLow := [] }
      clock := { s.wires.clock with onHigh := [.ram] } }
    sched := { s.sched with turns := [] }
    run := .running
    loop := .cycle }

end Sys2Proof.Machine
end

