-- ==== Sys2Proof/Safety.lean ====
section
/-! DEFINITION. The terms claims are stated in: what a safe run is, the wiring under which the flat RAM answers every
transaction, and what an instruction reads and leaves there. -/

namespace Sys2Proof.Machine

/-- A state is safe when no fatal condition has ended the run (R260, R297). -/
def State.safe (s : State) : Bool :=
  match s.run with
  | .fatal _ _ _ => false
  | _ => true

/-- The listener lists of two wirings agree. -/
def Wires.sameListeners (w v : Wires) : Prop :=
  ∀ n level, (w.line n).listeners level = (v.line n).listeners level

/-- The flat RAM answers every transaction (R76, D29) and no other listener reacts to the lines the core drives. -/
abbrev Wires.isFlatRam (w : Wires) : Prop :=
  w.rw.onHigh = [] ∧ w.rw.onLow = [] ∧ w.clock.onHigh = [.ram] ∧ w.clock.onLow = []

/-- Flat RAM, holding memory in its canonical form. -/
abbrev State.ready (s : State) : Prop := s.wires.isFlatRam ∧ s.mem.wf = true

/-- The execution agent is past the gate and its turn is next. -/
abbrev State.atCycle (s : State) : Prop := s.run = .running ∧ s.loop = .cycle ∧ s.sched.turns = []

/-- The byte of memory at an address of the address space. -/
def State.byteAt (s : State) (a : Word) : Byte := s.mem.get a.toNat

/-- The read transaction that flat RAM answers at an address. -/
def State.readOf (s : State) (a : Word) : Transaction := ⟨false, a, s.byteAt a⟩

/-- The pointer a mode reads from flat RAM (R129, R134, R135). -/
def pointerIn (o : Operand) (s : State) : Word :=
  match pointerCells o s.regs with
  | some (lowAt, highAt) => word (s.byteAt highAt) (s.byteAt lowAt)
  | none => 0

/-- The pointer's two read transactions, low byte first. -/
def pointerReads (o : Operand) (s : State) : List Transaction :=
  match pointerCells o s.regs with
  | some (lowAt, highAt) => [s.readOf lowAt, s.readOf highAt]
  | none => []

/-- The effective address: `addressOf`, which `resolve` stores into ADL, on the pointer that flat RAM holds. -/
def effectiveAddress (o : Operand) (s : State) : Word := addressOf o s.regs (pointerIn o s)

/-- Whether indexing crosses a page: `crossesPage`, which `resolve` answers, on the pointer that flat RAM holds. -/
def crossing (o : Operand) (s : State) : Bool := crossesPage o s.regs (pointerIn o s)

/-- The value of the operand (R139): A, the immediate, or the byte at the effective address. -/
def operandIn (o : Operand) (s : State) : Byte :=
  match o with
  | .acc => s.regs.a
  | .imm b => b
  | o => s.byteAt (effectiveAddress o s)

/-- The read of the operand that the handler makes: none for A, and none for an immediate, whose byte `fetch` read. -/
def operandReads (o : Operand) (s : State) : List Transaction :=
  match o with
  | .acc | .imm _ => []
  | o => [s.readOf (effectiveAddress o s)]

/-- What the instruction leaves: registers, every byte of memory, requests, and the transactions and the cycle cost it
adds. -/
structure Effect where
  regs : Regs
  memory : Nat → Byte
  pending : Pending
  bus : List Transaction
  cost : Nat

/-- Executing `i` in `s` answers a next state with exactly that effect, and everything else as it was: the
environment, the scheduler, the run status, the listeners, the interrupt, reset and device lines. The clock is LOW and the
execution agent is back at the boundary. -/
def CompletesWith (i : Instr) (s : State) (e : Effect) : Prop :=
  ∃ t, exec i s = .next t ∧ t.regs = e.regs ∧ (∀ a, t.mem.get a = e.memory a) ∧ t.pending = e.pending ∧
    t.cyc = { s.cyc with trace := s.cyc.trace ++ e.bus } ∧
    t.budget = { credit := s.budget.credit - e.cost, total := s.budget.total + e.cost } ∧
    t.env = s.env ∧ t.sched = s.sched ∧ t.run = s.run ∧ t.loop = .boundary ∧
    t.wires.sameListeners s.wires ∧ t.wires.clock.level = false ∧
    t.wires.nmi = s.wires.nmi ∧ t.wires.irq = s.wires.irq ∧ t.wires.reset = s.wires.reset ∧
    t.wires.device = s.wires.device

/-- Memory with one byte stored. -/
def stored (s : State) (a : Word) (v : Byte) : Nat → Byte := fun n => if n = a.toNat then v else s.mem.get n

/-- The effect of an instruction that stores nothing: the registers it leaves, the operand's reads, the cost. -/
def registerEffect (i : Instr) (s : State) (regs : Regs) (bus : List Transaction) (crossed : Bool) : Effect :=
  { regs := regs, memory := s.mem.get, pending := s.pending, bus := bus, cost := i.cost crossed }

/-- The state after flat RAM has answered a read at `a`. -/
def afterRead (a : Word) (s : State) : State :=
  { s with
    wires := { s.wires with
      addr := ⟨a⟩, data := ⟨s.byteAt a⟩
      rw := { s.wires.rw with level := Config.readLevel }
      clock := { s.wires.clock with level := true } }
    cyc := { s.cyc with trace := s.cyc.trace ++ [s.readOf a] } }

/-- The state after flat RAM has answered a write of `v` at `a`. -/
def afterWrite (a : Word) (v : Byte) (s : State) : State :=
  { s with
    wires := { s.wires with
      addr := ⟨a⟩, data := ⟨v⟩
      rw := { s.wires.rw with level := Config.writeLevel }
      clock := { s.wires.clock with level := true } }
    mem := s.mem.set a.toNat v
    cyc := { s.cyc with trace := s.cyc.trace ++ [⟨true, a, v⟩] } }

/-- The state after `n` bytes of the instruction stream have been read. -/
def afterBytes : Nat → State → State
  | 0, s => s
  | n + 1, s => afterBytes n ((afterRead s.regs.pc s).setPC (s.regs.pc + 1))

/-- The state in which an instruction of `n` bytes at PC is executed: a new cycle, its opcode latched, its bytes read. -/
def fetched (n : Nat) (s : State) : State :=
  let t := afterBytes n (s.beginCycle false)
  t.setCyc { t.cyc with opcode := s.byteAt s.regs.pc }

/-- The slots the table gives a mnemonic, in the order of their opcodes: opcode, mode, base cycles, page-cross flag. -/
def slotsOf (m : Mnemonic) : List (Byte × Mode × Nat × Bool) :=
  table.filterMap fun d => if d.mnemonic = m then some (d.opcode, d.mode, d.baseCycles, d.pageCross) else none

/-- Two states that differ in the address latch at most. -/
def SameButLatch (s t : State) : Prop := s.setADL 0 = t.setADL 0

/-- How many cycles the core may still charge before the next tick.1 (R281, R285): what the credit allows, one cycle of
at most 7 for a wake signal that is released or about to be, and one for a cycle already let past the gate without
credit. What is made of R290 here is DEDUCED: notes/assumptions/15.md. -/
def allowanceOf (credit : Int) (wake granted atCycle : Bool) : Int :=
  (if 1 ≤ credit then credit + 6 else if atCycle then 7 else 0) + (if wake then 7 else 0) + (if granted then 7 else 0)

/-- The allowance of a state. -/
def allowance (s : State) : Int :=
  allowanceOf s.budget.credit s.sched.wake (s.sched.ticker == .granted) (s.loop == .cycle)

end Sys2Proof.Machine
end

