-- ==== Sys2Proof/Certificates/Slice0/Obligations.lean ====
section
/-! DEFINITION. The statements for the provers. Statements about an instruction are about `exec` in the state after its
bytes have been read (`StepExecutesTheDecodedInstruction`), so PC is the address after the instruction; they hold for
every form that is well formed, in every state in which flat RAM answers the transactions and memory is canonical
(`State.ready`). The cycle cost they name is the slot's (`EverySlotIsChargedItsRow`), whose base cycles stand in the
`slotsOf` lists as R105 gives them. -/

open Sys2Proof Sys2Proof.Machine

/-! ### Encoding -/

/-- No bit of an encoding is dropped (R100..R105). -/
def Obligations.DecodeOfEncodeIsTheInstruction : Prop :=
  ∀ (i : Instr) (rest : List Byte), i.wellFormed = true →
    ∃ bytes, encode i = some bytes ∧ decode (bytes ++ rest) = .ok (i, rest)

/-- What decodes is well formed, and its encoding is the bytes it was decoded from: every word has one meaning (R102). -/
def Obligations.EncodeOfDecodeGivesTheBytesBack : Prop :=
  ∀ (bytes rest : List Byte) (i : Instr), decode bytes = .ok (i, rest) →
    i.wellFormed = true ∧ ∃ own, encode i = some own ∧ bytes = own ++ rest

/-- Words written out from the encodings of R105 and the syntax table of R112. -/
def Obligations.WrittenOutWordsDecode : Prop :=
  decode [0xE8] = .ok (.inx, []) ∧
  decode [0x0A] = .ok (.asl .acc, []) ∧
  decode [0xA9, 0x10] = .ok (.lda (.imm 0x10), []) ∧
  decode [0xB6, 0x10] = .ok (.ldx (.zpy 0x10), []) ∧
  decode [0xB1, 0x10] = .ok (.lda (.izy 0x10), []) ∧
  decode [0xBD, 0x34, 0x12] = .ok (.lda (.abx 0x1234), []) ∧
  decode [0x6C, 0x34, 0x12] = .ok (.jmp (.ind 0x1234), []) ∧
  decode [0xD0, 0x03] = .ok (.bne 0x03, []) ∧
  decode [0x02] = .ok (.unimplemented 0x02, [])

/-- The 256 slots are the documented ones and the 105 of R106, and no opcode is both. -/
def Obligations.UndocumentedSlotsAreTheListed105 : Prop :=
  unimplementedOpcodes.length = 105 ∧ unimplementedOpcodes.Nodup ∧
  ∀ opcode : Byte, descriptor opcode = none ↔ opcode ∈ unimplementedOpcodes

/-- R108: the page-cross flag is set on exactly the read instructions in ABX, ABY and IZY and the branches. -/
def Obligations.PageCrossFlagOnExactlyTheListedSlots : Prop :=
  ∀ d ∈ table, d.pageCross = true ↔
    (d.mnemonic ∈ [.adc, .and, .cmp, .eor, .lda, .ora, .sbc] ∧ d.mode ∈ [.abx, .aby, .izy]) ∨
    (d.mnemonic = .ldx ∧ d.mode = .aby) ∨ (d.mnemonic = .ldy ∧ d.mode = .abx) ∨
    (d.mnemonic ∈ [.bpl, .bmi, .bvc, .bvs, .bcc, .bcs, .bne, .beq] ∧ d.mode = .rel)

/-- R143, R308: the instruction of a slot costs the slot's base cycles, and one more where a page was crossed and the
slot's page-cross flag is set. -/
def Obligations.EverySlotIsChargedItsRow : Prop :=
  ∀ d ∈ table, ∀ (byte1 byte2 : Byte) (crossed : Bool),
    (d.instr byte1 byte2).cost crossed = d.baseCycles + (if crossed = true ∧ d.pageCross = true then 1 else 0)

/-! ### The cycle -/

/-- R121, R124, R145: past the gate, with no request pending, the bytes at PC are read and the instruction they decode
to is executed; `fetched` says what the reads leave. -/
def Obligations.StepExecutesTheDecodedInstruction : Prop :=
  ∀ (s : State) (i : Instr) (rest : List Byte), s.atCycle → s.wires.isFlatRam →
    s.pending = { nmi := false, irq := false } →
    decode [s.byteAt s.regs.pc, s.byteAt (s.regs.pc + 1), s.byteAt (s.regs.pc + 2)] = .ok (i, rest) →
    step s = exec i (fetched (3 - rest.length) s) ∧
    (fetched (3 - rest.length) s).regs = { s.regs with pc := s.regs.pc + BitVec.ofNat 16 (3 - rest.length) } ∧
    (fetched (3 - rest.length) s).mem = s.mem

/-- R120, R122: with a request pending BRK is executed without a fetch, whatever P.I holds and whatever the wiring: no
transaction is made and the registers, PC among them, are unchanged. -/
def Obligations.PendingRequestForcesBreakWithoutFetch : Prop :=
  ∀ (s : State) (nmi irq i : Bool), s.atCycle → s.pending = { nmi := nmi, irq := irq } → (nmi || irq) = true →
    s.regs.p.i = i →
    ∃ u, step s = exec .brk u ∧ u.regs = s.regs ∧ u.mem = s.mem ∧ u.wires = s.wires ∧ u.pending = s.pending ∧
      u.cyc = { forced := true, opcode := 0x00, opcAddr := s.regs.pc, trace := [] }

/-- R123, R106, R146, R261: the run ends with UnimplementedOpcode; nothing else happens, no charge and no clock LOW. -/
def Obligations.UnimplementedOpcodeEndsTheRun : Prop :=
  ∀ (opcode : Byte) (s : State),
    exec (.unimplemented opcode) s = .next { s with run := .fatal .unimplementedOpcode opcode s.cyc.opcAddr }

/-- R125..R137: what operand resolution makes of each mode, with flat RAM. `c` is `pageCrossed`, `t` the state after
it: ADL holds the effective address, the pointer reads are made, and no other register changes. -/
def Obligations.ResolutionByMode : Prop :=
  ∀ (s : State) (w : Word) (b : Byte), s.wires.isFlatRam →
    let r := s.regs
    let Gives := fun (o : Operand) (crossed : Bool) (address : Word) (reads : List Transaction) =>
      ∃ t, resolve o s = .ok crossed t ∧ t.regs = { r with adl := address } ∧ t.mem = s.mem ∧
        t.cyc = { s.cyc with trace := s.cyc.trace ++ reads }
    let indHigh := if Config.jmpIndPageWrap then word (hi8 w) (lo8 w + 1) else w + 1
    let zpHigh := fun (p : Byte) => if Config.zpPtrWrap then zext16 (p + 1) else zext16 p + 1
    let ptr := fun (p : Byte) => word (s.byteAt (zpHigh p)) (s.byteAt (zext16 p))
    let reads := fun (p : Byte) => [s.readOf (zext16 p), s.readOf (zpHigh p)]
    Gives .imp false r.adl [] ∧
    Gives .acc false r.adl [] ∧
    Gives (.imm b) false (r.pc - 1) [] ∧
    Gives (.abs w) false w [] ∧
    Gives (.ind w) false (word (s.byteAt indHigh) (s.byteAt w)) [s.readOf w, s.readOf indHigh] ∧
    Gives (.abx w) (decide (hi8 w ≠ hi8 (w + zext16 r.x))) (w + zext16 r.x) [] ∧
    Gives (.aby w) (decide (hi8 w ≠ hi8 (w + zext16 r.y))) (w + zext16 r.y) [] ∧
    Gives (.zp b) false (zext16 b) [] ∧
    Gives (.zpx b) false (zext16 (b + r.x)) [] ∧
    Gives (.zpy b) false (zext16 (b + r.y)) [] ∧
    Gives (.izx b) false (ptr (b + r.x)) (reads (b + r.x)) ∧
    Gives (.izy b) (decide (hi8 (ptr b) ≠ hi8 (ptr b + zext16 r.y))) (ptr b + zext16 r.y) (reads b) ∧
    Gives (.rel b) false (r.pc + sext16 b) []

/-! ### Loads, stores, transfers -/

/-- R160, R161, R162: the register takes the operand, N and Z are set from it, and nothing else changes. -/
def Obligations.LoadsTakeTheOperandAndSetNZ : Prop :=
  slotsOf .lda = [(0xA1, .izx, 6, false), (0xA5, .zp, 3, false), (0xA9, .imm, 2, false), (0xAD, .abs, 4, false),
    (0xB1, .izy, 5, true), (0xB5, .zpx, 4, false), (0xB9, .aby, 4, true), (0xBD, .abx, 4, true)] ∧
  slotsOf .ldx = [(0xA2, .imm, 2, false), (0xA6, .zp, 3, false), (0xAE, .abs, 4, false), (0xB6, .zpy, 4, false),
    (0xBE, .aby, 4, true)] ∧
  slotsOf .ldy = [(0xA0, .imm, 2, false), (0xA4, .zp, 3, false), (0xAC, .abs, 4, false), (0xB4, .zpx, 4, false),
    (0xBC, .abx, 4, true)] ∧
  ∀ (o : Operand) (s : State), s.ready →
    let m := operandIn o s
    let r := { s.regs with adl := effectiveAddress o s, p := { s.regs.p with z := decide (m = 0), n := m.getLsbD 7 } }
    let Leaves := fun (i : Instr) (regs : Regs) => i.wellFormed = true →
      CompletesWith i s (registerEffect i s regs (pointerReads o s ++ operandReads o s) (crossing o s))
    Leaves (.lda o) { r with a := m } ∧ Leaves (.ldx o) { r with x := m } ∧ Leaves (.ldy o) { r with y := m }

/-- R163, R164, R165: the register is written at the effective address, which is not read; no flag and no other byte
changes. -/
def Obligations.StoresWriteTheEffectiveAddress : Prop :=
  slotsOf .sta = [(0x81, .izx, 6, false), (0x85, .zp, 3, false), (0x8D, .abs, 4, false), (0x91, .izy, 6, false),
    (0x95, .zpx, 4, false), (0x99, .aby, 5, false), (0x9D, .abx, 5, false)] ∧
  slotsOf .stx = [(0x86, .zp, 3, false), (0x8E, .abs, 4, false), (0x96, .zpy, 4, false)] ∧
  slotsOf .sty = [(0x84, .zp, 3, false), (0x8C, .abs, 4, false), (0x94, .zpx, 4, false)] ∧
  ∀ (o : Operand) (s : State), s.ready →
    let a := effectiveAddress o s
    let Stores := fun (i : Instr) (v : Byte) => i.wellFormed = true →
      CompletesWith i s { regs := { s.regs with adl := a }, memory := stored s a v, pending := s.pending,
                          bus := pointerReads o s ++ [⟨true, a, v⟩], cost := i.cost (crossing o s) }
    Stores (.sta o) s.regs.a ∧ Stores (.stx o) s.regs.x ∧ Stores (.sty o) s.regs.y

/-- R166..R171: one register takes another; all but TXS set N and Z from the value; no transaction is made. -/
def Obligations.TransfersCopyARegister : Prop :=
  slotsOf .tax = [(0xAA, .imp, 2, false)] ∧ slotsOf .tay = [(0xA8, .imp, 2, false)] ∧
  slotsOf .txa = [(0x8A, .imp, 2, false)] ∧
  slotsOf .tya = [(0x98, .imp, 2, false)] ∧ slotsOf .tsx = [(0xBA, .imp, 2, false)] ∧
  slotsOf .txs = [(0x9A, .imp, 2, false)] ∧
  ∀ (s : State), s.ready →
    let r := s.regs
    let nz := fun (v : Byte) => { r.p with z := decide (v = 0), n := v.getLsbD 7 }
    let Leaves := fun (i : Instr) (regs : Regs) => CompletesWith i s (registerEffect i s regs [] false)
    Leaves .tax { r with x := r.a, p := nz r.a } ∧ Leaves .tay { r with y := r.a, p := nz r.a } ∧
    Leaves .txa { r with a := r.x, p := nz r.x } ∧ Leaves .tya { r with a := r.y, p := nz r.y } ∧
    Leaves .tsx { r with x := r.sp, p := nz r.sp } ∧ Leaves .txs { r with sp := r.x }

/-! ### The stack -/

/-- R80, R180, R181: one byte is written at 0x0100 + SP, then SP is decremented mod 256: A, or the status byte with bits 5
and 4 set whatever P.U and P.B hold. No flag changes. -/
def Obligations.PushesWriteBelowTheStackPointer : Prop :=
  slotsOf .pha = [(0x48, .imp, 3, false)] ∧ slotsOf .php = [(0x08, .imp, 3, false)] ∧
  (∀ sp : Byte, stackAddress sp = 0x0100 + zext16 sp) ∧
  ∀ (s : State), s.ready →
    let a := stackAddress s.regs.sp
    let Pushes := fun (i : Instr) (v : Byte) =>
      CompletesWith i s { regs := { s.regs with sp := s.regs.sp - 1 }, memory := stored s a v, pending := s.pending,
                          bus := [⟨true, a, v⟩], cost := i.cost false }
    Pushes .pha s.regs.a ∧ Pushes .php (getByte { s.regs.p with u := true, b := true })

/-- R81, R182, R183: SP is incremented mod 256, then one byte is read at 0x0100 + SP. PLA takes it into A and sets N and
Z; PLP takes six flags from it and leaves U and B. -/
def Obligations.PullsReadAboveTheStackPointer : Prop :=
  slotsOf .pla = [(0x68, .imp, 4, false)] ∧ slotsOf .plp = [(0x28, .imp, 4, false)] ∧
  ∀ (s : State), s.ready →
    let r := s.regs
    let a := stackAddress (r.sp + 1)
    let v := s.byteAt a
    let Leaves := fun (i : Instr) (regs : Regs) => CompletesWith i s (registerEffect i s regs [s.readOf a] false)
    Leaves .pla { r with sp := r.sp + 1, a := v, p := { r.p with z := decide (v = 0), n := v.getLsbD 7 } } ∧
    Leaves .plp { r with
      sp := r.sp + 1
      p := { r.p with n := v.getLsbD 7, v := v.getLsbD 6, d := v.getLsbD 3, i := v.getLsbD 2, z := v.getLsbD 1,
                      c := v.getLsbD 0 } }

/-! ### Arithmetic and logic -/

/-- R190, R205: with P.D clear, the exact sum A + M + C is narrowed to A, and N, V, Z, C are set from it; with P.D set,
A and those flags are what the OPEN function DEC_ADC gives, whatever that function is. -/
def Obligations.AdcAddsWithCarry : Prop :=
  slotsOf .adc = [(0x61, .izx, 6, false), (0x65, .zp, 3, false), (0x69, .imm, 2, false), (0x6D, .abs, 4, false),
    (0x71, .izy, 5, true), (0x75, .zpx, 4, false), (0x79, .aby, 4, true), (0x7D, .abx, 4, true)] ∧
  ∀ (o : Operand) (s : State), s.ready → (Instr.adc o).wellFormed = true →
    let m := operandIn o s
    let a := s.regs.a
    let p := s.regs.p
    let sum := a.toNat + m.toNat + (if p.c then 1 else 0)
    let r := BitVec.ofNat 8 sum
    let q := Config.decAdc a m p
    let a' := if p.d then q.a else r
    let p' : Flags := if p.d then { p with c := q.c, z := q.z, n := q.n, v := q.v }
      else { p with c := decide (sum > 255), v := decide (((a ^^^ r) &&& (m ^^^ r) &&& 0x80) ≠ 0),
                    z := decide (r = 0), n := r.getLsbD 7 }
    CompletesWith (.adc o) s (registerEffect (.adc o) s { s.regs with adl := effectiveAddress o s, a := a', p := p' }
      (pointerReads o s ++ operandReads o s) (crossing o s))

/-- R191, R206: with P.D clear, the exact difference A - M - (1 - C) is narrowed to A, and N, V, Z, C are set from it, C
meaning no borrow; with P.D set, A and those flags are what the OPEN function DEC_SBC gives. -/
def Obligations.SbcSubtractsWithBorrow : Prop :=
  slotsOf .sbc = [(0xE1, .izx, 6, false), (0xE5, .zp, 3, false), (0xE9, .imm, 2, false), (0xED, .abs, 4, false),
    (0xF1, .izy, 5, true), (0xF5, .zpx, 4, false), (0xF9, .aby, 4, true), (0xFD, .abx, 4, true)] ∧
  ∀ (o : Operand) (s : State), s.ready → (Instr.sbc o).wellFormed = true →
    let m := operandIn o s
    let a := s.regs.a
    let p := s.regs.p
    let difference : Int := (a.toNat : Int) - (m.toNat : Int) - (if p.c then 0 else 1)
    let r := BitVec.ofInt 8 difference
    let q := Config.decSbc a m p
    let a' := if p.d then q.a else r
    let p' : Flags := if p.d then { p with c := q.c, z := q.z, n := q.n, v := q.v }
      else { p with c := decide (difference ≥ 0), v := decide (((a ^^^ m) &&& (a ^^^ r) &&& 0x80) ≠ 0),
                    z := decide (r = 0), n := r.getLsbD 7 }
    CompletesWith (.sbc o) s (registerEffect (.sbc o) s { s.regs with adl := effectiveAddress o s, a := a', p := p' }
      (pointerReads o s ++ operandReads o s) (crossing o s))

/-- R207: V means the signed result is outside -128..127, for the binary sum and the binary difference. -/
def Obligations.OverflowMeansOutsideTheSignedRange : Prop :=
  ∀ (a m : Byte) (p : Flags), p.d = false →
    let c : Int := if p.c then 1 else 0
    let sum := a.toInt + m.toInt + c
    let difference := a.toInt - m.toInt - (1 - c)
    ((adcResult a m p).2.v = true ↔ sum < -128 ∨ 127 < sum) ∧
    ((sbcResult a m p).2.v = true ↔ difference < -128 ∨ 127 < difference)

/-- R191, corner cases: binary SBC is binary ADC with the operand complemented. -/
def Obligations.SbcIsAdcOfTheComplement : Prop :=
  ∀ (a m : Byte) (p : Flags), p.d = false → sbcResult a m p = adcResult a (~~~m) p

/-- R192, R193, R194: A takes the bitwise result, N and Z are set from it. -/
def Obligations.LogicCombinesTheOperandIntoA : Prop :=
  slotsOf .and = [(0x21, .izx, 6, false), (0x25, .zp, 3, false), (0x29, .imm, 2, false), (0x2D, .abs, 4, false),
    (0x31, .izy, 5, true), (0x35, .zpx, 4, false), (0x39, .aby, 4, true), (0x3D, .abx, 4, true)] ∧
  slotsOf .ora = [(0x01, .izx, 6, false), (0x05, .zp, 3, false), (0x09, .imm, 2, false), (0x0D, .abs, 4, false),
    (0x11, .izy, 5, true), (0x15, .zpx, 4, false), (0x19, .aby, 4, true), (0x1D, .abx, 4, true)] ∧
  slotsOf .eor = [(0x41, .izx, 6, false), (0x45, .zp, 3, false), (0x49, .imm, 2, false), (0x4D, .abs, 4, false),
    (0x51, .izy, 5, true), (0x55, .zpx, 4, false), (0x59, .aby, 4, true), (0x5D, .abx, 4, true)] ∧
  ∀ (o : Operand) (s : State), s.ready →
    let m := operandIn o s
    let Leaves := fun (i : Instr) (v : Byte) => i.wellFormed = true →
      CompletesWith i s (registerEffect i s
        { s.regs with adl := effectiveAddress o s, a := v, p := { s.regs.p with z := decide (v = 0), n := v.getLsbD 7 } }
        (pointerReads o s ++ operandReads o s) (crossing o s))
    Leaves (.and o) (s.regs.a &&& m) ∧ Leaves (.ora o) (s.regs.a ||| m) ∧ Leaves (.eor o) (s.regs.a ^^^ m)

/-- R195: Z from A & M, N and V from M; A is unchanged. -/
def Obligations.BitTestsTheOperand : Prop :=
  slotsOf .bit = [(0x24, .zp, 3, false), (0x2C, .abs, 4, false)] ∧
  ∀ (o : Operand) (s : State), s.ready → (Instr.bit o).wellFormed = true →
    let m := operandIn o s
    CompletesWith (.bit o) s (registerEffect (.bit o) s
      { s.regs with
        adl := effectiveAddress o s
        p := { s.regs.p with z := decide (s.regs.a &&& m = 0), n := m.getLsbD 7, v := m.getLsbD 6 } }
      (pointerReads o s ++ operandReads o s) (crossing o s))

/-- R196, R197, R198: C from the unsigned comparison, Z from equality, N from the difference; no register but P (and
ADL) changes, and P.D has no effect. A mode outside the mnemonic's list ends the run with InvalidAddressingMode,
uncharged, whatever the operand. -/
def Obligations.ComparesSetFlagsOnly : Prop :=
  slotsOf .cmp = [(0xC1, .izx, 6, false), (0xC5, .zp, 3, false), (0xC9, .imm, 2, false), (0xCD, .abs, 4, false),
    (0xD1, .izy, 5, true), (0xD5, .zpx, 4, false), (0xD9, .aby, 4, true), (0xDD, .abx, 4, true)] ∧
  slotsOf .cpx = [(0xE0, .imm, 2, false), (0xE4, .zp, 3, false), (0xEC, .abs, 4, false)] ∧
  slotsOf .cpy = [(0xC0, .imm, 2, false), (0xC4, .zp, 3, false), (0xCC, .abs, 4, false)] ∧
  ∀ (o : Operand) (s : State), s.ready →
    let m := operandIn o s
    let p := s.regs.p
    let Compares := fun (i : Instr) (v : Byte) =>
      (i.wellFormed = true → CompletesWith i s (registerEffect i s
        { s.regs with
          adl := effectiveAddress o s
          p := { p with c := decide (v.toNat ≥ m.toNat), z := decide (v = m), n := (v - m).getLsbD 7 } }
        (pointerReads o s ++ operandReads o s) (crossing o s))) ∧
      (i.wellFormed = false → ∃ t, exec i s = .next t ∧
        t.run = .fatal .invalidAddressingMode s.cyc.opcode s.cyc.opcAddr ∧ t.budget = s.budget ∧ t.mem = s.mem)
    Compares (.cmp o) s.regs.a ∧ Compares (.cpx o) s.regs.x ∧ Compares (.cpy o) s.regs.y

/-- R88, R199, R200: the byte at the effective address is read once and written once, one more or one less mod 256, and
N and Z are set from it. -/
def Obligations.IncrementAndDecrementMemory : Prop :=
  slotsOf .inc = [(0xE6, .zp, 5, false), (0xEE, .abs, 6, false), (0xF6, .zpx, 6, false), (0xFE, .abx, 7, false)] ∧
  slotsOf .dec = [(0xC6, .zp, 5, false), (0xCE, .abs, 6, false), (0xD6, .zpx, 6, false), (0xDE, .abx, 7, false)] ∧
  ∀ (o : Operand) (s : State), s.ready →
    let a := effectiveAddress o s
    let Modifies := fun (i : Instr) (v : Byte) => i.wellFormed = true →
      CompletesWith i s
        { regs := { s.regs with adl := a, p := { s.regs.p with z := decide (v = 0), n := v.getLsbD 7 } },
          memory := stored s a v, pending := s.pending, bus := [s.readOf a, ⟨true, a, v⟩],
          cost := i.cost (crossing o s) }
    Modifies (.inc o) (s.byteAt a + 1) ∧ Modifies (.dec o) (s.byteAt a - 1)

/-- R201..R204: X or Y is one more or one less mod 256, and N and Z are set from it. -/
def Obligations.IncrementAndDecrementIndexRegisters : Prop :=
  slotsOf .inx = [(0xE8, .imp, 2, false)] ∧ slotsOf .iny = [(0xC8, .imp, 2, false)] ∧
  slotsOf .dex = [(0xCA, .imp, 2, false)] ∧
  slotsOf .dey = [(0x88, .imp, 2, false)] ∧
  ∀ (s : State), s.ready →
    let r := s.regs
    let nz := fun (v : Byte) => { r.p with z := decide (v = 0), n := v.getLsbD 7 }
    let Leaves := fun (i : Instr) (regs : Regs) => CompletesWith i s (registerEffect i s regs [] false)
    Leaves .inx { r with x := r.x + 1, p := nz (r.x + 1) } ∧ Leaves .iny { r with y := r.y + 1, p := nz (r.y + 1) } ∧
    Leaves .dex { r with x := r.x - 1, p := nz (r.x - 1) } ∧ Leaves .dey { r with y := r.y - 1, p := nz (r.y - 1) }

/-- R220..R223: the result of the shift, as bits: C takes the bit shifted out, the old C enters a rotate, N and Z are
set from the result. In accumulator mode A is changed with no transaction; in memory there is one read and then one
write at the effective address. -/
def Obligations.ShiftsOfTheAccumulatorAndOfMemory : Prop :=
  slotsOf .asl = [(0x06, .zp, 5, false), (0x0A, .acc, 2, false), (0x0E, .abs, 6, false), (0x16, .zpx, 6, false),
    (0x1E, .abx, 7, false)] ∧
  slotsOf .lsr = [(0x46, .zp, 5, false), (0x4A, .acc, 2, false), (0x4E, .abs, 6, false), (0x56, .zpx, 6, false),
    (0x5E, .abx, 7, false)] ∧
  slotsOf .rol = [(0x26, .zp, 5, false), (0x2A, .acc, 2, false), (0x2E, .abs, 6, false), (0x36, .zpx, 6, false),
    (0x3E, .abx, 7, false)] ∧
  slotsOf .ror = [(0x66, .zp, 5, false), (0x6A, .acc, 2, false), (0x6E, .abs, 6, false), (0x76, .zpx, 6, false),
    (0x7E, .abx, 7, false)] ∧
  ∀ (o : Operand) (s : State), s.ready →
    let a := effectiveAddress o s
    let m := operandIn o s
    let c0 := if s.regs.p.c then 1 else 0
    let Shifts := fun (i : Instr) (result : Nat) (carry : Bool) => i.wellFormed = true →
      let v := BitVec.ofNat 8 result
      let p := { s.regs.p with c := carry, z := decide (v = 0), n := v.getLsbD 7 }
      CompletesWith i s (if o = .acc then registerEffect i s { s.regs with a := v, p := p } [] false
        else { regs := { s.regs with adl := a, p := p }, memory := stored s a v, pending := s.pending,
               bus := [s.readOf a, ⟨true, a, v⟩], cost := i.cost (crossing o s) })
    Shifts (.asl o) (m.toNat * 2) (m.getLsbD 7) ∧
    Shifts (.lsr o) (m.toNat / 2) (m.getLsbD 0) ∧
    Shifts (.rol o) (m.toNat * 2 % 256 + c0) (m.getLsbD 7) ∧
    Shifts (.ror o) (m.toNat / 2 + c0 * 128) (m.getLsbD 0)

/-! ### Control transfer, break and return, flags -/

/-- R230: PC takes the effective address in the modes ABS and IND; any other mode ends the run with
InvalidAddressingMode, uncharged. -/
def Obligations.JmpTakesTheEffectiveAddress : Prop :=
  slotsOf .jmp = [(0x4C, .abs, 3, false), (0x6C, .ind, 5, false)] ∧
  ∀ (o : Operand) (s : State), s.ready →
    (o.mode = .abs ∨ o.mode = .ind → CompletesWith (.jmp o) s (registerEffect (.jmp o) s
      { s.regs with adl := effectiveAddress o s, pc := effectiveAddress o s } (pointerReads o s) false)) ∧
    (o.mode ≠ .abs ∧ o.mode ≠ .ind → ∃ t, exec (.jmp o) s = .next t ∧
      t.run = .fatal .invalidAddressingMode s.cyc.opcode s.cyc.opcAddr ∧ t.regs.pc = s.regs.pc ∧
      t.budget = s.budget ∧ t.mem = s.mem)

/-- R231: the return address less one is pushed, high byte then low byte, and PC takes the target. -/
def Obligations.JsrPushesTheReturnAddressLessOne : Prop :=
  slotsOf .jsr = [(0x20, .abs, 6, false)] ∧
  ∀ (w : Word) (s : State), s.ready →
    let ret := s.regs.pc - 1
    let sp := s.regs.sp
    CompletesWith (.jsr w) s
      { regs := { s.regs with adl := w, pc := w, sp := sp - 2 },
        memory := fun n => if n = (stackAddress (sp - 1)).toNat then lo8 ret else stored s (stackAddress sp) (hi8 ret) n,
        pending := s.pending,
        bus := [⟨true, stackAddress sp, hi8 ret⟩, ⟨true, stackAddress (sp - 1), lo8 ret⟩],
        cost := (Instr.jsr w).cost false }

/-- R232: the low byte is pulled, then the high byte, and PC takes the address plus one. -/
def Obligations.RtsPullsTheAddressAndAddsOne : Prop :=
  slotsOf .rts = [(0x60, .imp, 6, false)] ∧
  ∀ (s : State), s.ready →
    let lowAt := stackAddress (s.regs.sp + 1)
    let highAt := stackAddress (s.regs.sp + 2)
    CompletesWith .rts s (registerEffect .rts s
      { s.regs with sp := s.regs.sp + 2, pc := word (s.byteAt highAt) (s.byteAt lowAt) + 1 }
      [s.readOf lowAt, s.readOf highAt] false)

/-- R233..R241: taken on the mnemonic's flag, PC takes PC + sext(offset), and one cycle more is charged if the two
differ in their high byte; not taken, PC stays and nothing more is charged. No flag changes. -/
def Obligations.BranchesAreTakenOnTheirFlag : Prop :=
  let Branches := fun (i : Byte → Instr) (m : Mnemonic) (opcode : Byte) (cond : Flags → Bool) =>
    slotsOf m = [(opcode, .rel, 2, true)] ∧
    ∀ (offset : Byte) (s : State), s.ready →
      let target := s.regs.pc + sext16 offset
      let crossed := cond s.regs.p && decide (hi8 target ≠ hi8 s.regs.pc)
      CompletesWith (i offset) s
        { regs := { s.regs with adl := target, pc := if cond s.regs.p then target else s.regs.pc },
          memory := s.mem.get, pending := s.pending, bus := [], cost := if crossed then 3 else 2 }
  Branches .bpl .bpl 0x10 (fun p => !p.n) ∧ Branches .bmi .bmi 0x30 (fun p => p.n) ∧
  Branches .bvc .bvc 0x50 (fun p => !p.v) ∧ Branches .bvs .bvs 0x70 (fun p => p.v) ∧
  Branches .bcc .bcc 0x90 (fun p => !p.c) ∧ Branches .bcs .bcs 0xB0 (fun p => p.c) ∧
  Branches .bne .bne 0xD0 (fun p => !p.z) ∧ Branches .beq .beq 0xF0 (fun p => p.z)

/-- R242, R269, R270: BRK and interrupt entry. A software BRK pushes the address after the break mark and bit 4 set, a
forced one the address of the instruction it pre-empts and bit 4 clear; P.I is set; PC is loaded from the NMI vector if
an NMI is pending, else from the IRQ vector; the request served is cleared and the other is left. The vector is chosen
after the pushes, so it sees an NMI that a device raises in one of them; the request is cleared after the vector is read,
so one of the same kind raised in that read is absorbed, and one of the other kind stays pending (D16). -/
def Obligations.BreakAndInterruptEntry : Prop :=
  let RaisesAt := fun (s : State) (a : Word) (rwLevel : Bool) (k : Interrupt) =>
    s.wires.rw.onHigh = [] ∧ s.wires.rw.onLow = [] ∧
    s.wires.clock.onHigh = [.ram, .onAddress a a (.onLevel .rw rwLevel (.request k))] ∧ s.wires.clock.onLow = [] ∧
    s.mem.wf = true
  (∀ (s : State) (depth : Fin 3), RaisesAt s (stackAddress (s.regs.sp - BitVec.ofNat 8 depth)) Config.writeLevel .nmi →
    ∃ t, exec .brk s = .next t ∧ t.regs.pc = word (s.byteAt 0xFFFB) (s.byteAt 0xFFFA) ∧
      t.pending = { nmi := false, irq := s.pending.irq }) ∧
  (∀ (s : State) (k : Interrupt) (high : Bool),
    let vec : Word := if s.pending.nmi then 0xFFFA else 0xFFFE
    RaisesAt s (if high then vec + 1 else vec) Config.readLevel k →
    ∃ t, exec .brk s = .next t ∧ t.regs.pc = word (s.byteAt (vec + 1)) (s.byteAt vec) ∧
      t.pending = if s.pending.nmi then { nmi := false, irq := s.pending.irq || decide (k = .irq) }
        else { nmi := decide (k = .nmi), irq := false }) ∧
  slotsOf .brk = [(0x00, .imp, 7, false)] ∧
  ∀ (s : State), s.ready →
    let r := s.regs
    let ret := if s.cyc.forced then r.pc else r.pc + 1
    let status := getByte { r.p with b := !s.cyc.forced }
    let vec : Word := if s.pending.nmi then 0xFFFA else 0xFFFE
    CompletesWith .brk s
      { regs := { r with sp := r.sp - 3, p := { r.p with i := true }, pc := word (s.byteAt (vec + 1)) (s.byteAt vec) },
        memory := fun n =>
          if n = (stackAddress (r.sp - 2)).toNat then status
          else if n = (stackAddress (r.sp - 1)).toNat then lo8 ret else stored s (stackAddress r.sp) (hi8 ret) n,
        pending := if s.pending.nmi then { s.pending with nmi := false } else { s.pending with irq := false },
        bus := [⟨true, stackAddress r.sp, hi8 ret⟩, ⟨true, stackAddress (r.sp - 1), lo8 ret⟩,
                ⟨true, stackAddress (r.sp - 2), status⟩, s.readOf vec, s.readOf (vec + 1)],
        cost := 7 }

/-- R243, R271: six flags come from the first byte pulled, U and B are unchanged, and PC is the next two, low byte
first, with nothing added. -/
def Obligations.RtiRestoresFlagsAndPc : Prop :=
  slotsOf .rti = [(0x40, .imp, 6, false)] ∧
  ∀ (s : State), s.ready →
    let r := s.regs
    let b := s.byteAt (stackAddress (r.sp + 1))
    let lowAt := stackAddress (r.sp + 2)
    let highAt := stackAddress (r.sp + 3)
    CompletesWith .rti s (registerEffect .rti s
      { r with
        sp := r.sp + 3
        p := { r.p with n := b.getLsbD 7, v := b.getLsbD 6, d := b.getLsbD 3, i := b.getLsbD 2, z := b.getLsbD 1,
                        c := b.getLsbD 0 }
        pc := word (s.byteAt highAt) (s.byteAt lowAt) }
      [s.readOf (stackAddress (r.sp + 1)), s.readOf lowAt, s.readOf highAt] false)

/-- R244: NOP changes nothing but the charge. -/
def Obligations.NopOnlyCharges : Prop :=
  slotsOf .nop = [(0xEA, .imp, 2, false)] ∧
  ∀ (s : State), s.ready →
    CompletesWith .nop s { regs := s.regs, memory := s.mem.get, pending := s.pending, bus := [], cost := 2 }

/-- R250..R256: each sets or clears its one flag. -/
def Obligations.FlagInstructionsChangeOneFlag : Prop :=
  slotsOf .clc = [(0x18, .imp, 2, false)] ∧ slotsOf .cld = [(0xD8, .imp, 2, false)] ∧
  slotsOf .cli = [(0x58, .imp, 2, false)] ∧
  slotsOf .clv = [(0xB8, .imp, 2, false)] ∧ slotsOf .sec = [(0x38, .imp, 2, false)] ∧
  slotsOf .sed = [(0xF8, .imp, 2, false)] ∧
  slotsOf .sei = [(0x78, .imp, 2, false)] ∧
  ∀ (s : State), s.ready →
    let p := s.regs.p
    let Leaves := fun (i : Instr) (p : Flags) =>
      CompletesWith i s (registerEffect i s { s.regs with p := p } [] false) ∧ i.cost false = 2
    Leaves .clc { p with c := false } ∧ Leaves .cld { p with d := false } ∧ Leaves .cli { p with i := false } ∧
    Leaves .clv { p with v := false } ∧ Leaves .sec { p with c := true } ∧ Leaves .sed { p with d := true } ∧
    Leaves .sei { p with i := true }

/-- R139, R140, R263: a handler that asks for an operand in implied mode ends the run with ImpliedOperandRequested, in
any state and under any wiring, and nothing else changes. -/
def Obligations.ImpliedOperandIsFatal : Prop :=
  ∀ (s : State) (i : Instr),
    i ∈ [Instr.lda .imp, .ldx .imp, .ldy .imp, .adc .imp, .sbc .imp, .and .imp, .ora .imp, .eor .imp, .bit .imp,
         .inc .imp, .dec .imp, .asl .imp, .lsr .imp, .rol .imp, .ror .imp] →
    exec i s = .next { s with run := .fatal .impliedOperandRequested s.cyc.opcode s.cyc.opcAddr }

/-- R231, R232: RTS undoes JSR: PC is the address after the JSR, SP and every other register but ADL as before. -/
def Obligations.RtsReturnsFromJsr : Prop :=
  ∀ (w : Word) (s : State), s.ready → ∃ t u, exec (.jsr w) s = .next t ∧ exec .rts t = .next u ∧
    u.regs = { s.regs with adl := w } ∧
    ∀ n, n ≠ (stackAddress s.regs.sp).toNat → n ≠ (stackAddress (s.regs.sp - 1)).toNat → u.mem.get n = s.mem.get n

/-- R242, R243, R270, R271: RTI undoes BRK and interrupt entry: all registers and all eight flags are as before, and PC is
the instruction pre-empted, or the BRK's address plus two. -/
def Obligations.RtiReturnsFromAnEntry : Prop :=
  ∀ (s : State), s.ready → ∃ t u, exec .brk s = .next t ∧ exec .rti t = .next u ∧
    u.regs = { s.regs with pc := if s.cyc.forced then s.regs.pc else s.regs.pc + 1 } ∧
    ∀ n, n ≠ (stackAddress s.regs.sp).toNat → n ≠ (stackAddress (s.regs.sp - 1)).toNat →
      n ≠ (stackAddress (s.regs.sp - 2)).toNat → u.mem.get n = s.mem.get n

/-- R269, R272: with NMI and IRQ both pending, NMI is entered and then, P.I set or not, IRQ is entered at the next
cycle before the NMI handler's first instruction, whose address it pushes. -/
def Obligations.IrqEntryNestsInNmiEntry : Prop :=
  ∀ (s : State), s.ready → s.atCycle → s.pending = { nmi := true, irq := true } → s.sched.stop = false →
    s.sched.pause = false → 8 ≤ s.budget.credit →
    let handler := word (s.byteAt 0xFFFB) (s.byteAt 0xFFFA)
    ∃ t u v, step s = .next t ∧ step t = .next u ∧ step u = .next v ∧
      t.regs.pc = handler ∧ t.pending = { nmi := false, irq := true } ∧
      v.regs.pc = word (s.byteAt 0xFFFF) (s.byteAt 0xFFFE) ∧ v.pending = { nmi := false, irq := false } ∧
      v.regs.sp = s.regs.sp - 6 ∧ v.budget.total = s.budget.total + 14 ∧
      v.byteAt (stackAddress (s.regs.sp - 3)) = hi8 handler ∧ v.byteAt (stackAddress (s.regs.sp - 4)) = lo8 handler

/-! ### Whole-machine rules: every step, under any wiring -/

/-- Memory keeps its canonical form. -/
def Obligations.StepKeepsMemoryCanonical : Prop :=
  ∀ (s t : State), s.mem.wf = true → step s = .next t → t.mem.wf = true

/-- The reset machine has canonical memory and flat RAM. -/
def Obligations.ResetIsReady : Prop := State.reset.ready

/-- R41: no step but `powerUp` writes P.U or P.B. -/
def Obligations.StepKeepsUnusedAndBreakFlags : Prop :=
  ∀ (s t : State), step s = .next t → s.sched.turns.head? ≠ some .powerUp →
    t.regs.p.u = s.regs.p.u ∧ t.regs.p.b = s.regs.p.b

/-- R61, R64: no step changes a listener list. -/
def Obligations.StepKeepsListenerLists : Prop :=
  ∀ (s t : State), step s = .next t → t.wires.sameListeners s.wires

/-- R46, R260: a fatal status is final: no step changes it, and none but `powerUp` changes a register, a byte of memory
or the wires; with no turn listed there is no step. -/
def Obligations.FatalStatusIsFinal : Prop :=
  ∀ (s : State) (k : FatalKind) (opcode : Byte) (a : Word), s.run = .fatal k opcode a →
    (s.sched.turns = [] → step s = .fault (.fatal k opcode a)) ∧
    ∀ t, step s = .next t → t.run = s.run ∧ t.safe = false ∧
      (s.sched.turns.head? ≠ some .powerUp → t.regs = s.regs ∧ t.mem = s.mem ∧ t.wires = s.wires)

/-- R107, R262, R263: a running machine can only end fatally by an unimplemented opcode: the other two kinds cannot be
raised. -/
def Obligations.OnlyUnimplementedOpcodesEndARunFatally : Prop :=
  ∀ (s t : State) (k : FatalKind) (opcode : Byte) (a : Word), step s = .next t → s.safe = true →
    t.run = .fatal k opcode a → k = .unimplementedOpcode ∧ opcode ∈ unimplementedOpcodes ∧ a = s.regs.pc

/-- R265, R269: a request stays pending over every step but a `cycle()` and `powerUp`; and a cycle with both pending
leaves IRQ pending. -/
def Obligations.RequestsStayPendingUntilServed : Prop :=
  ∀ (s t : State), step s = .next t → s.sched.turns.head? ≠ some .powerUp →
    (s.loop ≠ .cycle → (s.pending.nmi = true → t.pending.nmi = true) ∧ (s.pending.irq = true → t.pending.irq = true)) ∧
    (s.pending.nmi = true → s.pending.irq = true → t.pending.irq = true)

/-- R5, R42, R67, R293: only the execution agent (and the host's `powerUp`) touches registers, memory, lines and buses;
the pending requests change by a `request` turn alone, which sets the one it names (R265). -/
def Obligations.OtherAgentsTouchNoArchitecturalState : Prop :=
  ∀ (s t : State) (turn : Turn) (rest : List Turn), s.sched.turns = turn :: rest → turn ≠ .execution → turn ≠ .powerUp →
    step s = .next t →
    t.regs = s.regs ∧ t.mem = s.mem ∧ t.wires = s.wires ∧ t.env = s.env ∧ t.run = s.run ∧ t.loop = s.loop ∧
      t.cyc = s.cyc ∧ t.sched.turns = rest ∧
      t.pending = match turn with
        | .request .nmi => { s.pending with nmi := true }
        | .request .irq => { s.pending with irq := true }
        | _ => s.pending

/-- R35: the address latch is unobservable across steps: two states that differ in it only step to states that differ in
it only, or stop alike. -/
def Obligations.AddressLatchIsUnobservable : Prop :=
  ∀ (s t : State), SameButLatch s t →
    match step s, step t with
    | .next s', .next t' => SameButLatch s' t'
    | .fault r, .fault q => r = q
    | .refused r, .refused q => r = q
    | _, _ => False

/-! ### Reset, flags, lines and buses -/

/-- R53, R300: `powerUp` with any reset values, in any state with flat RAM. The counters, the wake signal and memory are
unchanged, nothing is pushed, the clock is HIGH afterwards, and the run status is Running, but for a fatal one, which is
never cleared (R46). And the host's call of it, as a listed turn, under any wiring: it is refused while `runLoop` runs
(R296); otherwise the step answers what `powerUp` does with the reset values, and `runLoop` is then still to be called.
The model's choice (notes/assumptions/18.md): that the address latch stays as it is, that the call is refused while
`runLoop` runs, and that `runLoop` is to be called after it, also where a run has ended; and the turn's reset values
(notes/assumptions/1.md). -/
def Obligations.PowerUpGivesTheResetState : Prop :=
  (∀ (v : Config.ResetValues) (s : State), s.wires.isFlatRam →
    ∃ t, powerUp v s = .ok () t ∧
      t.regs = { a := v.a, x := v.x, y := v.y, p := v.p, sp := 0xFD, adl := s.regs.adl,
                 pc := word (s.byteAt 0xFFFD) (s.byteAt 0xFFFC) } ∧
      t.pending = { nmi := false, irq := false } ∧ t.budget = s.budget ∧ t.sched = s.sched ∧ t.mem = s.mem ∧
      (s.run = .running ∨ s.run = .stopped → t.run = .running) ∧
      (∀ kind opcode address, s.run = .fatal kind opcode address → t.run = s.run) ∧ t.wires.clock.level = true ∧
      t.cyc.trace = s.cyc.trace ++ [s.readOf 0xFFFC, s.readOf 0xFFFD]) ∧
  (∀ (s : State) (rest : List Turn), s.sched.turns = .powerUp :: rest →
    let u := { s with sched := { s.sched with turns := rest } }
    (s.run = .running ∧ s.loop ≠ .idle → step s = .refused .powerUpWhileRunning) ∧
    (s.run ≠ .running ∨ s.loop = .idle →
      (∀ t, powerUp Config.resetValues u = .ok () t → step s = .next { t with loop := .idle }) ∧
      (∀ r, powerUp Config.resetValues u = .fault r → step s = .fault r) ∧
      (∀ r, powerUp Config.resetValues u = .refused r → step s = .refused r)))

/-- R75, R301: a device's `install()` appends its listeners, in its order, and touches nothing but the wires; its
`powerUp()` touches the state of devices alone, and stores each of its bytes, the last one where several are for one
address; the boot installs every device, powers up every device, then the core. R53: the reset state is what the boot
with the flat RAM leaves of the constructed machine. The model's choice, and no rule of the spec: that `install()` makes
the lines it names and those it listens on (notes/assumptions/19.md; the wiring assembly makes them, R60, R301 step 1);
A, X, Y and the flags (1.md); the flat RAM as the one device and the levels and buses before it (8.md); that memory
which lists nothing reads as 0, so that PC is 0x0000 (9.md); what a device and its contents are (16.md). -/
def Obligations.ResetIsPowerUpOfConstruction : Prop :=
  (∀ (d : Device) (s : State),
    (∀ n level, ((install d s).wires.line n).listeners level = (s.wires.line n).listeners level ++
      (d.listeners.filter fun l => decide (l.line = n ∧ l.level = level)).map Listener.reaction) ∧
    (∀ n, ((install d s).wires.line n).level = (s.wires.line n).level) ∧
    (∀ n ∈ d.lines, (install d s).wires.made n = true) ∧
    (∀ l ∈ d.listeners, (install d s).wires.made l.line = true) ∧
    install d s = s.setWires (install d s).wires) ∧
  (∀ (d : Device) (s : State), powerUpDevice d s = (s.setMem (powerUpDevice d s).mem).setEnv (powerUpDevice d s).env ∧
    (s.mem.wf = true → (powerUpDevice d s).mem.wf = true ∧
      ∀ a, (∀ c ∈ d.contents, c.1 ≠ a) → (powerUpDevice d s).byteAt a = s.byteAt a) ∧
    ∀ xs ys a v, d.contents = xs ++ (a, v) :: ys → (∀ c ∈ ys, c.1 ≠ a) → s.mem.wf = true →
      (powerUpDevice d s).byteAt a = v) ∧
  (∀ (devices : List Device) (v : Config.ResetValues) (s : State), boot devices v s =
    powerUp v (devices.foldl (fun s d => powerUpDevice d s) (devices.foldl (fun s d => install d s) s))) ∧
  boot [Device.flatRam] Config.resetValues State.constructed = .ok () State.reset ∧
  State.reset.regs.sp = 0xFD ∧ State.reset.pending = { nmi := false, irq := false } ∧
  State.reset.budget = { credit := 0, total := 0 } ∧ State.reset.sched.wake = false ∧
  State.reset.sched.stop = false ∧ State.reset.sched.pause = false ∧ State.reset.run = .running

/-- R40: `fromByte` and `getByte` are inverse, but for U and B with `ignore`. -/
def Obligations.StatusByteRoundTrip : Prop :=
  (∀ (p : Flags) (ignore : Bool), fromByte (getByte p) ignore p = p) ∧
  (∀ (b : Byte) (p : Flags), getByte (fromByte b false p) = b) ∧
  (∀ (b : Byte) (p : Flags), ∀ k ∈ [7, 6, 3, 2, 1, 0], (getByte (fromByte b true p)).getLsbD k = b.getLsbD k)

/-- R62, R63: `setState` sets the level and then runs the level's listeners, in their order, even if the line was already
at that level; a `setState` that a listener calls is the same operation, however deep it nests (where memory is
canonical, which every step keeps). A listener reads the buses and the lines as they are when it runs, and drives a line,
writes a bus or stores a byte by what it read; of two actions of one listener the first is completed before the second.
`registerListener` appends to the list of its level (R61). The kinds of callback are the model's choice
(notes/assumptions/16.md). -/
def Obligations.DispatchIsLevelTriggeredAndOrdered : Prop :=
  (∀ (n : LineName) (level : Bool) (s : State), s.mem.wf = true →
    setState n level s = dispatch setState ((s.wires.line n).listeners level) (s.setLevel n level)) ∧
  (∀ (n : LineName) (level : Bool) (s : State), s.wires.made n = true →
    ((s.setLevel n level).wires.line n).level = level) ∧
  (∀ (n : LineName) (level before : Bool) (s : State),
    setState n level (s.setLevel n before) = setState n level s) ∧
  (∀ (first later : List Reaction) (s : State),
    dispatch setState (first ++ later) s = (dispatch setState first s).bind fun _ t => dispatch setState later t) ∧
  (∀ (m : LineName) (b : Bool) (e v : Reading) (s : State), dispatch setState [.setLine m b] s = setState m b s ∧
    dispatch setState [.writeAddr e] s = .ok () (s.writeAddrBus (e.value s)) ∧
    dispatch setState [.writeData e] s = .ok () (s.writeDataBus (e.value s)) ∧
    dispatch setState [.store e v] s =
      .ok () (s.setMem (s.mem.set (e.value s % 2 ^ 16) (BitVec.ofNat 8 (v.value s))))) ∧
  (∀ (on : Reading) (first last : Nat) (r q : Reaction) (s : State),
    dispatch setState [.both r q] s = dispatch setState [r, q] s ∧
    dispatch setState [.branch on first last r q] s =
      dispatch setState [if first ≤ on.value s ∧ on.value s ≤ last then r else q] s) ∧
  (∀ (n : LineName) (s : State), Reading.addr.value s = s.wires.addr.value.toNat ∧
    Reading.data.value s = s.wires.data.value.toNat ∧
    (Reading.level n).value s = (if (s.wires.line n).level then 1 else 0)) ∧
  (∀ (n : LineName) (level : Bool) (r : Reaction) (s : State),
    ((s.registerListener n level r).wires.line n).listeners level = (s.wires.line n).listeners level ++ [r] ∧
    ((s.registerListener n level r).wires.line n).listeners (!level) = (s.wires.line n).listeners (!level))

/-- R63: a listener that re-asserts the level being dispatched, without condition, never completes: "a hang of the
execution agent", which the model answers by a fault of that name. -/
def Obligations.ReassertingListenerNeverCompletes : Prop :=
  ∀ (n : LineName) (level : Bool) (rest : List Reaction) (s : State),
    (s.wires.line n).listeners level = .setLine n level :: rest → setState n level s = .fault .dispatchUnbounded

/-- R63: a nested dispatch runs whole before the outer one goes on: with a listener that drives `m` and then another on
`n`, all the listeners of `m` (here ones that write both buses) run before that other, which writes the data bus again.
What each writes is what it reads when it runs: the second of `m` may write to the address bus what the first left on the
data bus. -/
def Obligations.NestedDispatchRunsFirst : Prop :=
  ∀ (n m : LineName) (a b : Bool) (x y z : Reading) (s : State), n ≠ m →
    (s.wires.line n).listeners a = [.setLine m b, .writeData y] →
    (s.wires.line m).listeners b = [.writeData x, .writeAddr z] →
    let t := (s.setLevel n a).setLevel m b
    let u := t.writeDataBus (x.value t)
    let v := u.writeAddrBus (z.value u)
    setState n a s = .ok () (v.writeDataBus (y.value v))

/-- R64: registering a listener during a dispatch is refused. -/
def Obligations.RegistrationDuringDispatchIsRefused : Prop :=
  ∀ (n m : LineName) (level b : Bool) (r : Reaction) (rest : List Reaction) (s : State),
    (s.wires.line n).listeners level = .register m b r :: rest →
    setState n level s = .refused .registrationDuringDispatch

/-- R65, R66: a bus stores its value masked to its width, and a read that no device answers gives the value last
written to the data bus. -/
def Obligations.UndrivenReadGivesTheLastDataBusValue : Prop :=
  (∀ (x : Nat) (b : Bus 8), (b.write x).read.toNat = x % 2 ^ 8) ∧
  (∀ (x : Nat) (b : Bus 16), (b.write x).read.toNat = x % 2 ^ 16) ∧
  ∀ (a : Word) (v : Nat) (s : State), s.wires.rw.onHigh = [] → s.wires.clock.onHigh = [] →
    ∃ t, memRead a (s.writeDataBus v) = .ok (BitVec.ofNat 8 v) t ∧ t.mem = s.mem ∧ t.regs = s.regs

/-- R76, R265 (b): a transaction that the environment answers gives RESPONDER's byte, its next state, and its requests
merged into the pending ones, whatever RESPONDER is. -/
def Obligations.ResponderAnswersTheTransaction : Prop :=
  ∀ (a : Word) (v : Byte) (s : State), s.wires.rw.onHigh = [] → s.wires.rw.onLow = [] →
    s.wires.clock.onHigh = [.responder] →
    let q := Config.respRead s.env a s.wires.data.value
    let w := Config.respWrite s.env a v
    (∃ t, memRead a s = .ok q.data t ∧ t.env = q.env ∧ t.mem = s.mem ∧
      t.pending = { nmi := s.pending.nmi || q.nmi, irq := s.pending.irq || q.irq }) ∧
    (∃ t, memWrite a v s = .ok () t ∧ t.env = w.env ∧ t.mem = s.mem ∧
      t.pending = { nmi := s.pending.nmi || w.nmi, irq := s.pending.irq || w.irq })

/-! ### The scheduler -/

/-- R281: a tick stores the credit, then releases the wake signal; nothing else changes. -/
def Obligations.TickStoresCreditThenReleases : Prop :=
  ∀ (s : State) (rest : List Turn), s.sched.turns = .ticker :: .ticker :: rest → s.sched.ticking = true →
    s.sched.ticker = .idle →
    ∃ t u, step s = .next t ∧ step t = .next u ∧
      t.budget = { s.budget with credit := Config.creditPerTick } ∧ t.sched.wake = s.sched.wake ∧
      u = { s with budget := { s.budget with credit := Config.creditPerTick },
                   sched := { s.sched with wake := true, turns := rest } }

/-- R285, R286, R287, R301: `runLoop`, once called, begins at the boundary. There `stop` is looked at first, then
`pause`, then the credit. A hold ends when `pause` is false, and goes on to the gate whatever `stop` holds. With credit
the gate leaves `wake` alone; without, it takes a release or waits; a wait ends by a release alone, without another look
at the credit; with no release and no ticker there is no step. Two clauses are the model's reading: that the end of a
hold goes on to the gate whatever `stop` holds (notes/assumptions/17.md), and that where no turn is listed the execution
agent moves, the call of `runLoop` included (notes/assumptions/7.md). -/
def Obligations.RunLoopOrder : Prop :=
  ∀ (s : State), s.run = .running → s.sched.turns = [] →
    let Gate :=
      (1 ≤ s.budget.credit → step s = .next { s with loop := .cycle }) ∧
      (s.budget.credit < 1 → s.sched.wake = true →
        step s = .next { s with loop := .cycle, sched := { s.sched with wake := false } }) ∧
      (s.budget.credit < 1 → s.sched.wake = false → step s = .next { s with loop := .waiting })
    (s.loop = .idle → step s = .next { s with loop := .boundary }) ∧
    (s.loop = .boundary →
      (s.sched.stop = true → step s = .next { s with run := .stopped }) ∧
      (s.sched.stop = false → s.sched.pause = true → step s = .next { s with loop := .held }) ∧
      (s.sched.stop = false → s.sched.pause = false → Gate)) ∧
    (s.loop = .held → (s.sched.pause = true → step s = .fault .heldByPause) ∧ (s.sched.pause = false → Gate)) ∧
    (s.loop = .waiting →
      (s.sched.wake = true → step s = .next { s with loop := .cycle, sched := { s.sched with wake := false } }) ∧
      (s.sched.wake = false → s.sched.ticking = false → step s = .fault .starved))

/-- R289: the diagnostic agent reads and resets the cumulative counter and changes nothing else. -/
def Obligations.DiagnosticReadsAndResetsTotal : Prop :=
  ∀ (s : State) (rest : List Turn), s.sched.turns = .diagnostic :: rest →
    step s = .next { s with budget := { s.budget with total := 0 },
                            sched := { s.sched with report := s.budget.total, turns := rest } }

/-- R281, R143: the credit never exceeds CREDIT_PER_TICK. -/
def Obligations.CreditStaysWithinTheGrant : Prop :=
  ∀ (s t : State), step s = .next t → s.budget.credit ≤ Config.creditPerTick → t.budget.credit ≤ Config.creditPerTick

/-- R290: the bound on throughput, as a potential: every step charges at most what `allowance` loses, and only a tick.1
adds to it, at most CREDIT_PER_TICK + 13. So N ticks from construction, where both are 0, charge at most
N * (CREDIT_PER_TICK + 13). And the bound for one period, any run of steps from a tick.1 on that has no other: at most
CREDIT_PER_TICK + 13, and at most one cycle of 7 more where a wake signal of an earlier tick was left over at that
tick.1, which R281 and R285 allow beyond the count of R290 (notes/assumptions/15.md). Where CREDIT_PER_TICK is 0, the
cycle that was past the gate at the tick.1 counts in place of the credit. -/
def Obligations.ChargesStayWithinTheTicks : Prop :=
  (∀ (s t : State), step s = .next t → s.budget.credit ≤ Config.creditPerTick →
    s.sched.turns.head? ≠ some .diagnostic →
    t.budget.total + allowance t ≤ s.budget.total + allowance s +
      (if s.sched.ticker = .idle ∧ t.sched.ticker = .granted then Config.creditPerTick + 13 else 0)) ∧
  ∀ (run : Nat → State) (n : Nat), (run 0).sched.ticker = .granted → (run 0).budget.credit = Config.creditPerTick →
    (∀ k < n, step (run k) = .next (run (k + 1)) ∧ (run k).sched.turns.head? ≠ some .diagnostic ∧
      ¬((run k).sched.ticker = .idle ∧ (run (k + 1)).sched.ticker = .granted)) →
    (run n).budget.total ≤ (run 0).budget.total +
      (if 1 ≤ Config.creditPerTick then Config.creditPerTick + 13 else 14) + (if (run 0).sched.wake then 7 else 0)
end

