-- ==== Sys2Proof/Laws/Bits.lean ====
section
/-! SUPPORT. The slices and the concatenation of R9 as numbers, and that they undo one another. -/

namespace Sys2Proof

theorem toNat_word (hi lo : Byte) : (word hi lo).toNat = hi.toNat * 256 + lo.toNat := by
  show (hi ++ lo : BitVec (8 + 8)).toNat = _
  rw [BitVec.toNat_append, ← Nat.shiftLeft_add_eq_or_of_lt lo.isLt, Nat.shiftLeft_eq]

theorem toNat_lo8 (w : Word) : (lo8 w).toNat = w.toNat % 256 := by simp [lo8]

theorem toNat_hi8 (w : Word) : (hi8 w).toNat = w.toNat / 256 := by
  simp only [hi8, BitVec.extractLsb'_toNat, Nat.shiftRight_eq_div_pow]
  omega

@[simp] theorem word_hi8_lo8 (w : Word) : word (hi8 w) (lo8 w) = w := by
  apply BitVec.eq_of_toNat_eq
  rw [toNat_word, toNat_hi8, toNat_lo8]
  omega

@[simp] theorem lo8_word (hi lo : Byte) : lo8 (word hi lo) = lo := by
  apply BitVec.eq_of_toNat_eq
  rw [toNat_lo8, toNat_word]
  omega

@[simp] theorem hi8_word (hi lo : Byte) : hi8 (word hi lo) = hi := by
  apply BitVec.eq_of_toNat_eq
  rw [toNat_hi8, toNat_word]
  omega

/-- Different bytes designate different stack addresses. -/
theorem toNat_word_ne (page a b : Byte) (h : a ≠ b) : (word page a).toNat ≠ (word page b).toNat := by
  rw [toNat_word, toNat_word]
  bv_omega

end Sys2Proof
end

