-- ==== Sys2Proof/Laws/Memory.lean ====
section
/-! SUPPORT. Memory: storing keeps the canonical form, and a byte reads as it was last stored. -/

namespace Sys2Proof.Machine

theorem Memory.wfFrom_weaken {lo hi : Nat} (h : hi ≤ lo) : ∀ {m : Memory}, Memory.wfFrom lo m = true → Memory.wfFrom hi m = true
  | [], _ => rfl
  | (k, v) :: m, hm => by
    simp only [Memory.wfFrom, Bool.and_eq_true, decide_eq_true_eq] at hm ⊢
    exact ⟨⟨⟨by omega, hm.1.1.2⟩, hm.1.2⟩, hm.2⟩

theorem Memory.wfFrom_set {a : Nat} (ha : a < 65536) (v : Byte) :
    ∀ {m : Memory} {lo : Nat}, lo ≤ a → Memory.wfFrom lo m = true → Memory.wfFrom lo (m.set a v) = true
  | [], lo, hlo, _ => by
    by_cases hv : v = Memory.unlisted <;> simp [Memory.set, Memory.wfFrom, hv, hlo, ha]
  | (k, w) :: m, lo, hlo, hm => by
    simp only [Memory.wfFrom, Bool.and_eq_true, decide_eq_true_eq, bne_iff_ne, ne_eq] at hm
    obtain ⟨⟨⟨hk, hk'⟩, hw⟩, hm⟩ := hm
    simp only [Memory.set]
    split_ifs with h1 h2 h3 h4
    · simp [Memory.wfFrom, hk, hk', hw, hm]
    · simp only [Memory.wfFrom, Bool.and_eq_true, decide_eq_true_eq, bne_iff_ne, ne_eq]
      exact ⟨⟨⟨hlo, ha⟩, h2⟩, ⟨⟨by omega, hk'⟩, hw⟩, hm⟩
    · exact Memory.wfFrom_weaken (by omega) hm
    · simp only [Memory.wfFrom, Bool.and_eq_true, decide_eq_true_eq, bne_iff_ne, ne_eq]
      exact ⟨⟨⟨hlo, ha⟩, h4⟩, h3 ▸ hm⟩
    · simp only [Memory.wfFrom, Bool.and_eq_true, decide_eq_true_eq, bne_iff_ne, ne_eq]
      exact ⟨⟨⟨hk, hk'⟩, hw⟩, Memory.wfFrom_set ha v (by omega) hm⟩

/-- Every memory operation keeps the canonical form. -/
theorem Memory.wf_set {m : Memory} {a : Nat} (ha : a < 65536) (v : Byte) (h : m.wf = true) : (m.set a v).wf = true :=
  Memory.wfFrom_set ha v (Nat.zero_le a) h

theorem Memory.get_of_lt {a : Nat} : ∀ {m : Memory} {lo : Nat}, a < lo → Memory.wfFrom lo m = true → m.get a = Memory.unlisted
  | [], _, _, _ => rfl
  | (k, v) :: m, lo, h, hm => by
    simp only [Memory.wfFrom, Bool.and_eq_true, decide_eq_true_eq] at hm
    have hk : k ≠ a := by omega
    simpa [Memory.get, hk] using Memory.get_of_lt (by omega) hm.2

theorem Memory.get_cons (k : Nat) (w : Byte) (m : Memory) (b : Nat) :
    Memory.get ((k, w) :: m) b = if k = b then w else Memory.get m b := rfl

theorem Memory.get_set_from (a : Nat) (v : Byte) (b : Nat) :
    ∀ {m : Memory} {lo : Nat}, Memory.wfFrom lo m = true →
      Memory.get (Memory.set m a v) b = if b = a then v else Memory.get m b
  | [], _, _ => by
    rw [Memory.set]
    by_cases hv : v = Memory.unlisted <;> by_cases hb : b = a <;>
      simp [Memory.get, hv, hb, eq_comm (a := a)]
  | (k, w) :: m, lo, hm => by
    simp only [Memory.wfFrom, Bool.and_eq_true, decide_eq_true_eq] at hm
    obtain ⟨-, hm⟩ := hm
    have low : ∀ c, c ≤ k → Memory.get m c = Memory.unlisted := fun c hc => Memory.get_of_lt (by omega) hm
    have ih : Memory.get (Memory.set m a v) b = if b = a then v else Memory.get m b := Memory.get_set_from a v b hm
    rw [Memory.set]
    by_cases h1 : a < k
    · by_cases hv : v = Memory.unlisted
      · by_cases hb : b = a
        · simp [h1, hv, hb, Memory.get_cons, low a (by omega), show k ≠ a by omega]
        · simp [h1, hv, hb]
      · by_cases hb : b = a
        · simp [h1, hv, hb, Memory.get_cons]
        · simp [h1, hv, hb, Memory.get_cons, show a ≠ b from fun h => hb h.symm]
    · by_cases h2 : a = k
      · subst h2
        by_cases hv : v = Memory.unlisted <;> by_cases hb : b = a <;>
          simp [hv, hb, Memory.get_cons, low a le_rfl, eq_comm (a := a)]
      · simp only [h1, h2, if_false, Memory.get_cons, ih]
        by_cases hk : k = b
        · simp [hk, show b ≠ a by omega]
        · simp [hk]

/-- A byte of canonical memory reads as the byte last stored there; every other byte reads as before. -/
theorem Memory.get_set {m : Memory} (h : m.wf = true) (a : Nat) (v : Byte) (b : Nat) :
    (m.set a v).get b = if b = a then v else m.get b := Memory.get_set_from a v b h

/-- Storing cells one after another keeps the canonical form and every byte for which there is no cell. -/
theorem Memory.foldl_set {m : Memory} (h : m.wf = true) (cells : List (Word × Byte)) :
    Memory.wf (cells.foldl (fun m c => m.set c.1.toNat c.2) m) = true ∧
    ∀ a : Word, (∀ c ∈ cells, c.1 ≠ a) →
      Memory.get (cells.foldl (fun m c => m.set c.1.toNat c.2) m) a.toNat = m.get a.toNat := by
  induction cells generalizing m with
  | nil => exact ⟨h, fun _ _ => rfl⟩
  | cons c cells ih =>
    obtain ⟨kept, other⟩ := ih (Memory.wf_set c.1.isLt c.2 h)
    refine ⟨kept, fun a ha => ?_⟩
    rw [List.foldl_cons, other a fun d hd => ha d (List.mem_cons_of_mem _ hd), Memory.get_set h,
      if_neg fun e => ha c List.mem_cons_self (BitVec.eq_of_toNat_eq e.symm)]

end Sys2Proof.Machine
end

