-- ==== Sys2Proof/Laws/Res.lean ====
section
/-! SUPPORT. What an operation can answer: a predicate on its outcome that follows the order of the statements. -/

namespace Sys2Proof.Machine

/-- Every state the operation answers meets `P`, every fatal state meets `F`; where it stops, nothing is claimed. -/
def Res.post {α : Type} (P : α → State → Prop) (F : State → Prop) : Res α → Prop
  | .ok v s => P v s
  | .fatal s => F s
  | .fault _ => True
  | .refused _ => True

@[simp] theorem Res.bind_ok {α β : Type} (v : α) (s : State) (f : α → State → Res β) : (Res.ok v s).bind f = f v s := rfl
@[simp] theorem Res.bind_fatal {α β : Type} (s : State) (f : α → State → Res β) : (Res.fatal s).bind f = .fatal s := rfl
@[simp] theorem Res.bind_fault {α β : Type} (r : Fault) (f : α → State → Res β) : (Res.fault r).bind f = .fault r := rfl
@[simp] theorem Res.bind_refused {α β : Type} (r : Refusal) (f : α → State → Res β) :
    (Res.refused r).bind f = .refused r := rfl

@[simp] theorem Res.post_ok {α : Type} (P : α → State → Prop) (F : State → Prop) (v : α) (s : State) :
    (Res.ok v s).post P F ↔ P v s := Iff.rfl
@[simp] theorem Res.post_fatal {α : Type} (P : α → State → Prop) (F : State → Prop) (s : State) :
    (Res.fatal s : Res α).post P F ↔ F s := Iff.rfl
@[simp] theorem Res.post_fault {α : Type} (P : α → State → Prop) (F : State → Prop) (r : Fault) :
    (Res.fault r : Res α).post P F := trivial
@[simp] theorem Res.post_refused {α : Type} (P : α → State → Prop) (F : State → Prop) (r : Refusal) :
    (Res.refused r : Res α).post P F := trivial

theorem Res.post_bind {α β : Type} {P : α → State → Prop} {Q : β → State → Prop} {F : State → Prop}
    {r : Res α} {f : α → State → Res β} (h : r.post P F) (hf : ∀ v s, P v s → (f v s).post Q F) :
    (r.bind f).post Q F := by
  cases r with
  | ok v s => exact hf v s h
  | fatal s => exact h
  | fault _ => trivial
  | refused _ => trivial

/-- The rest of an operation matters only for what comes before it. -/
theorem Res.bind_congr {α β : Type} (r : Res α) {f g : α → State → Res β} (h : ∀ v s, r = .ok v s → f v s = g v s) :
    r.bind f = r.bind g := by
  cases r with
  | ok v s => exact h v s rfl
  | _ => rfl

theorem Res.post_mono {α : Type} {P Q : α → State → Prop} {F G : State → Prop} {r : Res α} (h : r.post P F)
    (hPQ : ∀ v s, P v s → Q v s) (hFG : ∀ s, F s → G s) : r.post Q G := by
  cases r with
  | ok v s => exact hPQ v s h
  | fatal s => exact hFG s h
  | fault _ => trivial
  | refused _ => trivial

end Sys2Proof.Machine
end

