-- ==== Sys2Proof/Laws/State.lean ====
section
/-! SUPPORT. One lemma per field and update of the state, each true by definition, so that no proof unfolds a record
update. -/

namespace Sys2Proof.Machine

@[simp] theorem State.setRegs_regs (s : State) (r : Regs) : (s.setRegs r).regs = r := rfl
@[simp] theorem State.setRegs_pending (s : State) (r : Regs) : (s.setRegs r).pending = s.pending := rfl
@[simp] theorem State.setRegs_budget (s : State) (r : Regs) : (s.setRegs r).budget = s.budget := rfl
@[simp] theorem State.setRegs_wires (s : State) (r : Regs) : (s.setRegs r).wires = s.wires := rfl
@[simp] theorem State.setRegs_mem (s : State) (r : Regs) : (s.setRegs r).mem = s.mem := rfl
@[simp] theorem State.setRegs_env (s : State) (r : Regs) : (s.setRegs r).env = s.env := rfl
@[simp] theorem State.setRegs_sched (s : State) (r : Regs) : (s.setRegs r).sched = s.sched := rfl
@[simp] theorem State.setRegs_run (s : State) (r : Regs) : (s.setRegs r).run = s.run := rfl
@[simp] theorem State.setRegs_loop (s : State) (r : Regs) : (s.setRegs r).loop = s.loop := rfl
@[simp] theorem State.setRegs_cyc (s : State) (r : Regs) : (s.setRegs r).cyc = s.cyc := rfl

@[simp] theorem State.setPending_regs (s : State) (v : Pending) : (s.setPending v).regs = s.regs := rfl
@[simp] theorem State.setPending_pending (s : State) (v : Pending) : (s.setPending v).pending = v := rfl
@[simp] theorem State.setPending_budget (s : State) (v : Pending) : (s.setPending v).budget = s.budget := rfl
@[simp] theorem State.setPending_wires (s : State) (v : Pending) : (s.setPending v).wires = s.wires := rfl
@[simp] theorem State.setPending_mem (s : State) (v : Pending) : (s.setPending v).mem = s.mem := rfl
@[simp] theorem State.setPending_env (s : State) (v : Pending) : (s.setPending v).env = s.env := rfl
@[simp] theorem State.setPending_sched (s : State) (v : Pending) : (s.setPending v).sched = s.sched := rfl
@[simp] theorem State.setPending_run (s : State) (v : Pending) : (s.setPending v).run = s.run := rfl
@[simp] theorem State.setPending_loop (s : State) (v : Pending) : (s.setPending v).loop = s.loop := rfl
@[simp] theorem State.setPending_cyc (s : State) (v : Pending) : (s.setPending v).cyc = s.cyc := rfl

@[simp] theorem State.setBudget_regs (s : State) (v : Budget) : (s.setBudget v).regs = s.regs := rfl
@[simp] theorem State.setBudget_pending (s : State) (v : Budget) : (s.setBudget v).pending = s.pending := rfl
@[simp] theorem State.setBudget_budget (s : State) (v : Budget) : (s.setBudget v).budget = v := rfl
@[simp] theorem State.setBudget_wires (s : State) (v : Budget) : (s.setBudget v).wires = s.wires := rfl
@[simp] theorem State.setBudget_mem (s : State) (v : Budget) : (s.setBudget v).mem = s.mem := rfl
@[simp] theorem State.setBudget_env (s : State) (v : Budget) : (s.setBudget v).env = s.env := rfl
@[simp] theorem State.setBudget_sched (s : State) (v : Budget) : (s.setBudget v).sched = s.sched := rfl
@[simp] theorem State.setBudget_run (s : State) (v : Budget) : (s.setBudget v).run = s.run := rfl
@[simp] theorem State.setBudget_loop (s : State) (v : Budget) : (s.setBudget v).loop = s.loop := rfl
@[simp] theorem State.setBudget_cyc (s : State) (v : Budget) : (s.setBudget v).cyc = s.cyc := rfl

@[simp] theorem State.setWires_regs (s : State) (v : Wires) : (s.setWires v).regs = s.regs := rfl
@[simp] theorem State.setWires_pending (s : State) (v : Wires) : (s.setWires v).pending = s.pending := rfl
@[simp] theorem State.setWires_budget (s : State) (v : Wires) : (s.setWires v).budget = s.budget := rfl
@[simp] theorem State.setWires_wires (s : State) (v : Wires) : (s.setWires v).wires = v := rfl
@[simp] theorem State.setWires_mem (s : State) (v : Wires) : (s.setWires v).mem = s.mem := rfl
@[simp] theorem State.setWires_env (s : State) (v : Wires) : (s.setWires v).env = s.env := rfl
@[simp] theorem State.setWires_sched (s : State) (v : Wires) : (s.setWires v).sched = s.sched := rfl
@[simp] theorem State.setWires_run (s : State) (v : Wires) : (s.setWires v).run = s.run := rfl
@[simp] theorem State.setWires_loop (s : State) (v : Wires) : (s.setWires v).loop = s.loop := rfl
@[simp] theorem State.setWires_cyc (s : State) (v : Wires) : (s.setWires v).cyc = s.cyc := rfl

@[simp] theorem State.setMem_regs (s : State) (v : Memory) : (s.setMem v).regs = s.regs := rfl
@[simp] theorem State.setMem_pending (s : State) (v : Memory) : (s.setMem v).pending = s.pending := rfl
@[simp] theorem State.setMem_budget (s : State) (v : Memory) : (s.setMem v).budget = s.budget := rfl
@[simp] theorem State.setMem_wires (s : State) (v : Memory) : (s.setMem v).wires = s.wires := rfl
@[simp] theorem State.setMem_mem (s : State) (v : Memory) : (s.setMem v).mem = v := rfl
@[simp] theorem State.setMem_env (s : State) (v : Memory) : (s.setMem v).env = s.env := rfl
@[simp] theorem State.setMem_sched (s : State) (v : Memory) : (s.setMem v).sched = s.sched := rfl
@[simp] theorem State.setMem_run (s : State) (v : Memory) : (s.setMem v).run = s.run := rfl
@[simp] theorem State.setMem_loop (s : State) (v : Memory) : (s.setMem v).loop = s.loop := rfl
@[simp] theorem State.setMem_cyc (s : State) (v : Memory) : (s.setMem v).cyc = s.cyc := rfl

@[simp] theorem State.setEnv_regs (s : State) (v : Config.Env) : (s.setEnv v).regs = s.regs := rfl
@[simp] theorem State.setEnv_pending (s : State) (v : Config.Env) : (s.setEnv v).pending = s.pending := rfl
@[simp] theorem State.setEnv_budget (s : State) (v : Config.Env) : (s.setEnv v).budget = s.budget := rfl
@[simp] theorem State.setEnv_wires (s : State) (v : Config.Env) : (s.setEnv v).wires = s.wires := rfl
@[simp] theorem State.setEnv_mem (s : State) (v : Config.Env) : (s.setEnv v).mem = s.mem := rfl
@[simp] theorem State.setEnv_env (s : State) (v : Config.Env) : (s.setEnv v).env = v := rfl
@[simp] theorem State.setEnv_sched (s : State) (v : Config.Env) : (s.setEnv v).sched = s.sched := rfl
@[simp] theorem State.setEnv_run (s : State) (v : Config.Env) : (s.setEnv v).run = s.run := rfl
@[simp] theorem State.setEnv_loop (s : State) (v : Config.Env) : (s.setEnv v).loop = s.loop := rfl
@[simp] theorem State.setEnv_cyc (s : State) (v : Config.Env) : (s.setEnv v).cyc = s.cyc := rfl

@[simp] theorem State.setSched_regs (s : State) (v : Sched) : (s.setSched v).regs = s.regs := rfl
@[simp] theorem State.setSched_pending (s : State) (v : Sched) : (s.setSched v).pending = s.pending := rfl
@[simp] theorem State.setSched_budget (s : State) (v : Sched) : (s.setSched v).budget = s.budget := rfl
@[simp] theorem State.setSched_wires (s : State) (v : Sched) : (s.setSched v).wires = s.wires := rfl
@[simp] theorem State.setSched_mem (s : State) (v : Sched) : (s.setSched v).mem = s.mem := rfl
@[simp] theorem State.setSched_env (s : State) (v : Sched) : (s.setSched v).env = s.env := rfl
@[simp] theorem State.setSched_sched (s : State) (v : Sched) : (s.setSched v).sched = v := rfl
@[simp] theorem State.setSched_run (s : State) (v : Sched) : (s.setSched v).run = s.run := rfl
@[simp] theorem State.setSched_loop (s : State) (v : Sched) : (s.setSched v).loop = s.loop := rfl
@[simp] theorem State.setSched_cyc (s : State) (v : Sched) : (s.setSched v).cyc = s.cyc := rfl

@[simp] theorem State.setRun_regs (s : State) (v : RunStatus) : (s.setRun v).regs = s.regs := rfl
@[simp] theorem State.setRun_pending (s : State) (v : RunStatus) : (s.setRun v).pending = s.pending := rfl
@[simp] theorem State.setRun_budget (s : State) (v : RunStatus) : (s.setRun v).budget = s.budget := rfl
@[simp] theorem State.setRun_wires (s : State) (v : RunStatus) : (s.setRun v).wires = s.wires := rfl
@[simp] theorem State.setRun_mem (s : State) (v : RunStatus) : (s.setRun v).mem = s.mem := rfl
@[simp] theorem State.setRun_env (s : State) (v : RunStatus) : (s.setRun v).env = s.env := rfl
@[simp] theorem State.setRun_sched (s : State) (v : RunStatus) : (s.setRun v).sched = s.sched := rfl
@[simp] theorem State.setRun_run (s : State) (v : RunStatus) : (s.setRun v).run = v := rfl
@[simp] theorem State.setRun_loop (s : State) (v : RunStatus) : (s.setRun v).loop = s.loop := rfl
@[simp] theorem State.setRun_cyc (s : State) (v : RunStatus) : (s.setRun v).cyc = s.cyc := rfl

@[simp] theorem State.setLoop_regs (s : State) (v : LoopPoint) : (s.setLoop v).regs = s.regs := rfl
@[simp] theorem State.setLoop_pending (s : State) (v : LoopPoint) : (s.setLoop v).pending = s.pending := rfl
@[simp] theorem State.setLoop_budget (s : State) (v : LoopPoint) : (s.setLoop v).budget = s.budget := rfl
@[simp] theorem State.setLoop_wires (s : State) (v : LoopPoint) : (s.setLoop v).wires = s.wires := rfl
@[simp] theorem State.setLoop_mem (s : State) (v : LoopPoint) : (s.setLoop v).mem = s.mem := rfl
@[simp] theorem State.setLoop_env (s : State) (v : LoopPoint) : (s.setLoop v).env = s.env := rfl
@[simp] theorem State.setLoop_sched (s : State) (v : LoopPoint) : (s.setLoop v).sched = s.sched := rfl
@[simp] theorem State.setLoop_run (s : State) (v : LoopPoint) : (s.setLoop v).run = s.run := rfl
@[simp] theorem State.setLoop_loop (s : State) (v : LoopPoint) : (s.setLoop v).loop = v := rfl
@[simp] theorem State.setLoop_cyc (s : State) (v : LoopPoint) : (s.setLoop v).cyc = s.cyc := rfl

@[simp] theorem State.setCyc_regs (s : State) (v : CycleLatch) : (s.setCyc v).regs = s.regs := rfl
@[simp] theorem State.setCyc_pending (s : State) (v : CycleLatch) : (s.setCyc v).pending = s.pending := rfl
@[simp] theorem State.setCyc_budget (s : State) (v : CycleLatch) : (s.setCyc v).budget = s.budget := rfl
@[simp] theorem State.setCyc_wires (s : State) (v : CycleLatch) : (s.setCyc v).wires = s.wires := rfl
@[simp] theorem State.setCyc_mem (s : State) (v : CycleLatch) : (s.setCyc v).mem = s.mem := rfl
@[simp] theorem State.setCyc_env (s : State) (v : CycleLatch) : (s.setCyc v).env = s.env := rfl
@[simp] theorem State.setCyc_sched (s : State) (v : CycleLatch) : (s.setCyc v).sched = s.sched := rfl
@[simp] theorem State.setCyc_run (s : State) (v : CycleLatch) : (s.setCyc v).run = s.run := rfl
@[simp] theorem State.setCyc_loop (s : State) (v : CycleLatch) : (s.setCyc v).loop = s.loop := rfl
@[simp] theorem State.setCyc_cyc (s : State) (v : CycleLatch) : (s.setCyc v).cyc = v := rfl

@[simp] theorem State.setA_regs (s : State) (v : Byte) : (s.setA v).regs = { s.regs with a := v } := rfl
@[simp] theorem State.setA_pending (s : State) (v : Byte) : (s.setA v).pending = s.pending := rfl
@[simp] theorem State.setA_budget (s : State) (v : Byte) : (s.setA v).budget = s.budget := rfl
@[simp] theorem State.setA_wires (s : State) (v : Byte) : (s.setA v).wires = s.wires := rfl
@[simp] theorem State.setA_mem (s : State) (v : Byte) : (s.setA v).mem = s.mem := rfl
@[simp] theorem State.setA_env (s : State) (v : Byte) : (s.setA v).env = s.env := rfl
@[simp] theorem State.setA_sched (s : State) (v : Byte) : (s.setA v).sched = s.sched := rfl
@[simp] theorem State.setA_run (s : State) (v : Byte) : (s.setA v).run = s.run := rfl
@[simp] theorem State.setA_loop (s : State) (v : Byte) : (s.setA v).loop = s.loop := rfl
@[simp] theorem State.setA_cyc (s : State) (v : Byte) : (s.setA v).cyc = s.cyc := rfl

@[simp] theorem State.setX_regs (s : State) (v : Byte) : (s.setX v).regs = { s.regs with x := v } := rfl
@[simp] theorem State.setX_pending (s : State) (v : Byte) : (s.setX v).pending = s.pending := rfl
@[simp] theorem State.setX_budget (s : State) (v : Byte) : (s.setX v).budget = s.budget := rfl
@[simp] theorem State.setX_wires (s : State) (v : Byte) : (s.setX v).wires = s.wires := rfl
@[simp] theorem State.setX_mem (s : State) (v : Byte) : (s.setX v).mem = s.mem := rfl
@[simp] theorem State.setX_env (s : State) (v : Byte) : (s.setX v).env = s.env := rfl
@[simp] theorem State.setX_sched (s : State) (v : Byte) : (s.setX v).sched = s.sched := rfl
@[simp] theorem State.setX_run (s : State) (v : Byte) : (s.setX v).run = s.run := rfl
@[simp] theorem State.setX_loop (s : State) (v : Byte) : (s.setX v).loop = s.loop := rfl
@[simp] theorem State.setX_cyc (s : State) (v : Byte) : (s.setX v).cyc = s.cyc := rfl

@[simp] theorem State.setY_regs (s : State) (v : Byte) : (s.setY v).regs = { s.regs with y := v } := rfl
@[simp] theorem State.setY_pending (s : State) (v : Byte) : (s.setY v).pending = s.pending := rfl
@[simp] theorem State.setY_budget (s : State) (v : Byte) : (s.setY v).budget = s.budget := rfl
@[simp] theorem State.setY_wires (s : State) (v : Byte) : (s.setY v).wires = s.wires := rfl
@[simp] theorem State.setY_mem (s : State) (v : Byte) : (s.setY v).mem = s.mem := rfl
@[simp] theorem State.setY_env (s : State) (v : Byte) : (s.setY v).env = s.env := rfl
@[simp] theorem State.setY_sched (s : State) (v : Byte) : (s.setY v).sched = s.sched := rfl
@[simp] theorem State.setY_run (s : State) (v : Byte) : (s.setY v).run = s.run := rfl
@[simp] theorem State.setY_loop (s : State) (v : Byte) : (s.setY v).loop = s.loop := rfl
@[simp] theorem State.setY_cyc (s : State) (v : Byte) : (s.setY v).cyc = s.cyc := rfl

@[simp] theorem State.setSP_regs (s : State) (v : Byte) : (s.setSP v).regs = { s.regs with sp := v } := rfl
@[simp] theorem State.setSP_pending (s : State) (v : Byte) : (s.setSP v).pending = s.pending := rfl
@[simp] theorem State.setSP_budget (s : State) (v : Byte) : (s.setSP v).budget = s.budget := rfl
@[simp] theorem State.setSP_wires (s : State) (v : Byte) : (s.setSP v).wires = s.wires := rfl
@[simp] theorem State.setSP_mem (s : State) (v : Byte) : (s.setSP v).mem = s.mem := rfl
@[simp] theorem State.setSP_env (s : State) (v : Byte) : (s.setSP v).env = s.env := rfl
@[simp] theorem State.setSP_sched (s : State) (v : Byte) : (s.setSP v).sched = s.sched := rfl
@[simp] theorem State.setSP_run (s : State) (v : Byte) : (s.setSP v).run = s.run := rfl
@[simp] theorem State.setSP_loop (s : State) (v : Byte) : (s.setSP v).loop = s.loop := rfl
@[simp] theorem State.setSP_cyc (s : State) (v : Byte) : (s.setSP v).cyc = s.cyc := rfl

@[simp] theorem State.setPC_regs (s : State) (v : Word) : (s.setPC v).regs = { s.regs with pc := v } := rfl
@[simp] theorem State.setPC_pending (s : State) (v : Word) : (s.setPC v).pending = s.pending := rfl
@[simp] theorem State.setPC_budget (s : State) (v : Word) : (s.setPC v).budget = s.budget := rfl
@[simp] theorem State.setPC_wires (s : State) (v : Word) : (s.setPC v).wires = s.wires := rfl
@[simp] theorem State.setPC_mem (s : State) (v : Word) : (s.setPC v).mem = s.mem := rfl
@[simp] theorem State.setPC_env (s : State) (v : Word) : (s.setPC v).env = s.env := rfl
@[simp] theorem State.setPC_sched (s : State) (v : Word) : (s.setPC v).sched = s.sched := rfl
@[simp] theorem State.setPC_run (s : State) (v : Word) : (s.setPC v).run = s.run := rfl
@[simp] theorem State.setPC_loop (s : State) (v : Word) : (s.setPC v).loop = s.loop := rfl
@[simp] theorem State.setPC_cyc (s : State) (v : Word) : (s.setPC v).cyc = s.cyc := rfl

@[simp] theorem State.setADL_regs (s : State) (v : Word) : (s.setADL v).regs = { s.regs with adl := v } := rfl
@[simp] theorem State.setADL_pending (s : State) (v : Word) : (s.setADL v).pending = s.pending := rfl
@[simp] theorem State.setADL_budget (s : State) (v : Word) : (s.setADL v).budget = s.budget := rfl
@[simp] theorem State.setADL_wires (s : State) (v : Word) : (s.setADL v).wires = s.wires := rfl
@[simp] theorem State.setADL_mem (s : State) (v : Word) : (s.setADL v).mem = s.mem := rfl
@[simp] theorem State.setADL_env (s : State) (v : Word) : (s.setADL v).env = s.env := rfl
@[simp] theorem State.setADL_sched (s : State) (v : Word) : (s.setADL v).sched = s.sched := rfl
@[simp] theorem State.setADL_run (s : State) (v : Word) : (s.setADL v).run = s.run := rfl
@[simp] theorem State.setADL_loop (s : State) (v : Word) : (s.setADL v).loop = s.loop := rfl
@[simp] theorem State.setADL_cyc (s : State) (v : Word) : (s.setADL v).cyc = s.cyc := rfl

@[simp] theorem State.setP_regs (s : State) (v : Flags) : (s.setP v).regs = { s.regs with p := v } := rfl
@[simp] theorem State.setP_pending (s : State) (v : Flags) : (s.setP v).pending = s.pending := rfl
@[simp] theorem State.setP_budget (s : State) (v : Flags) : (s.setP v).budget = s.budget := rfl
@[simp] theorem State.setP_wires (s : State) (v : Flags) : (s.setP v).wires = s.wires := rfl
@[simp] theorem State.setP_mem (s : State) (v : Flags) : (s.setP v).mem = s.mem := rfl
@[simp] theorem State.setP_env (s : State) (v : Flags) : (s.setP v).env = s.env := rfl
@[simp] theorem State.setP_sched (s : State) (v : Flags) : (s.setP v).sched = s.sched := rfl
@[simp] theorem State.setP_run (s : State) (v : Flags) : (s.setP v).run = s.run := rfl
@[simp] theorem State.setP_loop (s : State) (v : Flags) : (s.setP v).loop = s.loop := rfl
@[simp] theorem State.setP_cyc (s : State) (v : Flags) : (s.setP v).cyc = s.cyc := rfl

@[simp] theorem loadA_regs (s : State) (v : Byte) : (loadA v s).regs = { s.regs with a := v, p := setNZ v s.regs.p } := rfl
@[simp] theorem loadA_pending (s : State) (v : Byte) : (loadA v s).pending = s.pending := rfl
@[simp] theorem loadA_budget (s : State) (v : Byte) : (loadA v s).budget = s.budget := rfl
@[simp] theorem loadA_wires (s : State) (v : Byte) : (loadA v s).wires = s.wires := rfl
@[simp] theorem loadA_mem (s : State) (v : Byte) : (loadA v s).mem = s.mem := rfl
@[simp] theorem loadA_env (s : State) (v : Byte) : (loadA v s).env = s.env := rfl
@[simp] theorem loadA_sched (s : State) (v : Byte) : (loadA v s).sched = s.sched := rfl
@[simp] theorem loadA_run (s : State) (v : Byte) : (loadA v s).run = s.run := rfl
@[simp] theorem loadA_loop (s : State) (v : Byte) : (loadA v s).loop = s.loop := rfl
@[simp] theorem loadA_cyc (s : State) (v : Byte) : (loadA v s).cyc = s.cyc := rfl

@[simp] theorem loadX_regs (s : State) (v : Byte) : (loadX v s).regs = { s.regs with x := v, p := setNZ v s.regs.p } := rfl
@[simp] theorem loadX_pending (s : State) (v : Byte) : (loadX v s).pending = s.pending := rfl
@[simp] theorem loadX_budget (s : State) (v : Byte) : (loadX v s).budget = s.budget := rfl
@[simp] theorem loadX_wires (s : State) (v : Byte) : (loadX v s).wires = s.wires := rfl
@[simp] theorem loadX_mem (s : State) (v : Byte) : (loadX v s).mem = s.mem := rfl
@[simp] theorem loadX_env (s : State) (v : Byte) : (loadX v s).env = s.env := rfl
@[simp] theorem loadX_sched (s : State) (v : Byte) : (loadX v s).sched = s.sched := rfl
@[simp] theorem loadX_run (s : State) (v : Byte) : (loadX v s).run = s.run := rfl
@[simp] theorem loadX_loop (s : State) (v : Byte) : (loadX v s).loop = s.loop := rfl
@[simp] theorem loadX_cyc (s : State) (v : Byte) : (loadX v s).cyc = s.cyc := rfl

@[simp] theorem loadY_regs (s : State) (v : Byte) : (loadY v s).regs = { s.regs with y := v, p := setNZ v s.regs.p } := rfl
@[simp] theorem loadY_pending (s : State) (v : Byte) : (loadY v s).pending = s.pending := rfl
@[simp] theorem loadY_budget (s : State) (v : Byte) : (loadY v s).budget = s.budget := rfl
@[simp] theorem loadY_wires (s : State) (v : Byte) : (loadY v s).wires = s.wires := rfl
@[simp] theorem loadY_mem (s : State) (v : Byte) : (loadY v s).mem = s.mem := rfl
@[simp] theorem loadY_env (s : State) (v : Byte) : (loadY v s).env = s.env := rfl
@[simp] theorem loadY_sched (s : State) (v : Byte) : (loadY v s).sched = s.sched := rfl
@[simp] theorem loadY_run (s : State) (v : Byte) : (loadY v s).run = s.run := rfl
@[simp] theorem loadY_loop (s : State) (v : Byte) : (loadY v s).loop = s.loop := rfl
@[simp] theorem loadY_cyc (s : State) (v : Byte) : (loadY v s).cyc = s.cyc := rfl

@[simp] theorem takeA_regs (s : State) (q : Byte × Flags) : (takeA q s).regs = { s.regs with a := q.1, p := q.2 } := rfl
@[simp] theorem takeA_pending (s : State) (q : Byte × Flags) : (takeA q s).pending = s.pending := rfl
@[simp] theorem takeA_budget (s : State) (q : Byte × Flags) : (takeA q s).budget = s.budget := rfl
@[simp] theorem takeA_wires (s : State) (q : Byte × Flags) : (takeA q s).wires = s.wires := rfl
@[simp] theorem takeA_mem (s : State) (q : Byte × Flags) : (takeA q s).mem = s.mem := rfl
@[simp] theorem takeA_env (s : State) (q : Byte × Flags) : (takeA q s).env = s.env := rfl
@[simp] theorem takeA_sched (s : State) (q : Byte × Flags) : (takeA q s).sched = s.sched := rfl
@[simp] theorem takeA_run (s : State) (q : Byte × Flags) : (takeA q s).run = s.run := rfl
@[simp] theorem takeA_loop (s : State) (q : Byte × Flags) : (takeA q s).loop = s.loop := rfl
@[simp] theorem takeA_cyc (s : State) (q : Byte × Flags) : (takeA q s).cyc = s.cyc := rfl

@[simp] theorem State.record_regs (s : State) (t : Transaction) : (s.record t).regs = s.regs := rfl
@[simp] theorem State.record_pending (s : State) (t : Transaction) : (s.record t).pending = s.pending := rfl
@[simp] theorem State.record_budget (s : State) (t : Transaction) : (s.record t).budget = s.budget := rfl
@[simp] theorem State.record_wires (s : State) (t : Transaction) : (s.record t).wires = s.wires := rfl
@[simp] theorem State.record_mem (s : State) (t : Transaction) : (s.record t).mem = s.mem := rfl
@[simp] theorem State.record_env (s : State) (t : Transaction) : (s.record t).env = s.env := rfl
@[simp] theorem State.record_sched (s : State) (t : Transaction) : (s.record t).sched = s.sched := rfl
@[simp] theorem State.record_run (s : State) (t : Transaction) : (s.record t).run = s.run := rfl
@[simp] theorem State.record_loop (s : State) (t : Transaction) : (s.record t).loop = s.loop := rfl
@[simp] theorem State.record_cyc (s : State) (t : Transaction) : (s.record t).cyc = { s.cyc with trace := s.cyc.trace ++ [t] } := rfl

@[simp] theorem State.writeAddrBus_regs (s : State) (v : Nat) : (s.writeAddrBus v).regs = s.regs := rfl
@[simp] theorem State.writeAddrBus_pending (s : State) (v : Nat) : (s.writeAddrBus v).pending = s.pending := rfl
@[simp] theorem State.writeAddrBus_budget (s : State) (v : Nat) : (s.writeAddrBus v).budget = s.budget := rfl
@[simp] theorem State.writeAddrBus_wires (s : State) (v : Nat) : (s.writeAddrBus v).wires = { s.wires with addr := ⟨BitVec.ofNat 16 v⟩ } := rfl
@[simp] theorem State.writeAddrBus_mem (s : State) (v : Nat) : (s.writeAddrBus v).mem = s.mem := rfl
@[simp] theorem State.writeAddrBus_env (s : State) (v : Nat) : (s.writeAddrBus v).env = s.env := rfl
@[simp] theorem State.writeAddrBus_sched (s : State) (v : Nat) : (s.writeAddrBus v).sched = s.sched := rfl
@[simp] theorem State.writeAddrBus_run (s : State) (v : Nat) : (s.writeAddrBus v).run = s.run := rfl
@[simp] theorem State.writeAddrBus_loop (s : State) (v : Nat) : (s.writeAddrBus v).loop = s.loop := rfl
@[simp] theorem State.writeAddrBus_cyc (s : State) (v : Nat) : (s.writeAddrBus v).cyc = s.cyc := rfl

@[simp] theorem State.writeDataBus_regs (s : State) (v : Nat) : (s.writeDataBus v).regs = s.regs := rfl
@[simp] theorem State.writeDataBus_pending (s : State) (v : Nat) : (s.writeDataBus v).pending = s.pending := rfl
@[simp] theorem State.writeDataBus_budget (s : State) (v : Nat) : (s.writeDataBus v).budget = s.budget := rfl
@[simp] theorem State.writeDataBus_wires (s : State) (v : Nat) : (s.writeDataBus v).wires = { s.wires with data := ⟨BitVec.ofNat 8 v⟩ } := rfl
@[simp] theorem State.writeDataBus_mem (s : State) (v : Nat) : (s.writeDataBus v).mem = s.mem := rfl
@[simp] theorem State.writeDataBus_env (s : State) (v : Nat) : (s.writeDataBus v).env = s.env := rfl
@[simp] theorem State.writeDataBus_sched (s : State) (v : Nat) : (s.writeDataBus v).sched = s.sched := rfl
@[simp] theorem State.writeDataBus_run (s : State) (v : Nat) : (s.writeDataBus v).run = s.run := rfl
@[simp] theorem State.writeDataBus_loop (s : State) (v : Nat) : (s.writeDataBus v).loop = s.loop := rfl
@[simp] theorem State.writeDataBus_cyc (s : State) (v : Nat) : (s.writeDataBus v).cyc = s.cyc := rfl

@[simp] theorem State.charge_regs (s : State) (n : Nat) : (s.charge n).regs = s.regs := rfl
@[simp] theorem State.charge_pending (s : State) (n : Nat) : (s.charge n).pending = s.pending := rfl
@[simp] theorem State.charge_budget (s : State) (n : Nat) : (s.charge n).budget = { credit := s.budget.credit - n, total := s.budget.total + n } := rfl
@[simp] theorem State.charge_wires (s : State) (n : Nat) : (s.charge n).wires = s.wires := rfl
@[simp] theorem State.charge_mem (s : State) (n : Nat) : (s.charge n).mem = s.mem := rfl
@[simp] theorem State.charge_env (s : State) (n : Nat) : (s.charge n).env = s.env := rfl
@[simp] theorem State.charge_sched (s : State) (n : Nat) : (s.charge n).sched = s.sched := rfl
@[simp] theorem State.charge_run (s : State) (n : Nat) : (s.charge n).run = s.run := rfl
@[simp] theorem State.charge_loop (s : State) (n : Nat) : (s.charge n).loop = s.loop := rfl
@[simp] theorem State.charge_cyc (s : State) (n : Nat) : (s.charge n).cyc = s.cyc := rfl

@[simp] theorem State.setCredit_regs (s : State) (v : Int) : (s.setCredit v).regs = s.regs := rfl
@[simp] theorem State.setCredit_pending (s : State) (v : Int) : (s.setCredit v).pending = s.pending := rfl
@[simp] theorem State.setCredit_budget (s : State) (v : Int) : (s.setCredit v).budget = { s.budget with credit := v } := rfl
@[simp] theorem State.setCredit_wires (s : State) (v : Int) : (s.setCredit v).wires = s.wires := rfl
@[simp] theorem State.setCredit_mem (s : State) (v : Int) : (s.setCredit v).mem = s.mem := rfl
@[simp] theorem State.setCredit_env (s : State) (v : Int) : (s.setCredit v).env = s.env := rfl
@[simp] theorem State.setCredit_sched (s : State) (v : Int) : (s.setCredit v).sched = s.sched := rfl
@[simp] theorem State.setCredit_run (s : State) (v : Int) : (s.setCredit v).run = s.run := rfl
@[simp] theorem State.setCredit_loop (s : State) (v : Int) : (s.setCredit v).loop = s.loop := rfl
@[simp] theorem State.setCredit_cyc (s : State) (v : Int) : (s.setCredit v).cyc = s.cyc := rfl

@[simp] theorem State.setWake_regs (s : State) (v : Bool) : (s.setWake v).regs = s.regs := rfl
@[simp] theorem State.setWake_pending (s : State) (v : Bool) : (s.setWake v).pending = s.pending := rfl
@[simp] theorem State.setWake_budget (s : State) (v : Bool) : (s.setWake v).budget = s.budget := rfl
@[simp] theorem State.setWake_wires (s : State) (v : Bool) : (s.setWake v).wires = s.wires := rfl
@[simp] theorem State.setWake_mem (s : State) (v : Bool) : (s.setWake v).mem = s.mem := rfl
@[simp] theorem State.setWake_env (s : State) (v : Bool) : (s.setWake v).env = s.env := rfl
@[simp] theorem State.setWake_sched (s : State) (v : Bool) : (s.setWake v).sched = { s.sched with wake := v } := rfl
@[simp] theorem State.setWake_run (s : State) (v : Bool) : (s.setWake v).run = s.run := rfl
@[simp] theorem State.setWake_loop (s : State) (v : Bool) : (s.setWake v).loop = s.loop := rfl
@[simp] theorem State.setWake_cyc (s : State) (v : Bool) : (s.setWake v).cyc = s.cyc := rfl

@[simp] theorem State.beginCycle_regs (s : State) (f : Bool) : (s.beginCycle f).regs = s.regs := rfl
@[simp] theorem State.beginCycle_pending (s : State) (f : Bool) : (s.beginCycle f).pending = s.pending := rfl
@[simp] theorem State.beginCycle_budget (s : State) (f : Bool) : (s.beginCycle f).budget = s.budget := rfl
@[simp] theorem State.beginCycle_wires (s : State) (f : Bool) : (s.beginCycle f).wires = s.wires := rfl
@[simp] theorem State.beginCycle_mem (s : State) (f : Bool) : (s.beginCycle f).mem = s.mem := rfl
@[simp] theorem State.beginCycle_env (s : State) (f : Bool) : (s.beginCycle f).env = s.env := rfl
@[simp] theorem State.beginCycle_sched (s : State) (f : Bool) : (s.beginCycle f).sched = s.sched := rfl
@[simp] theorem State.beginCycle_run (s : State) (f : Bool) : (s.beginCycle f).run = s.run := rfl
@[simp] theorem State.beginCycle_loop (s : State) (f : Bool) : (s.beginCycle f).loop = s.loop := rfl
@[simp] theorem State.beginCycle_cyc (s : State) (f : Bool) : (s.beginCycle f).cyc = { forced := f, opcode := 0x00, opcAddr := s.regs.pc, trace := [] } := rfl

@[simp] theorem State.setLevel_regs (s : State) (n : LineName) (b : Bool) : (s.setLevel n b).regs = s.regs := rfl
@[simp] theorem State.setLevel_pending (s : State) (n : LineName) (b : Bool) : (s.setLevel n b).pending = s.pending := rfl
@[simp] theorem State.setLevel_budget (s : State) (n : LineName) (b : Bool) : (s.setLevel n b).budget = s.budget := rfl
@[simp] theorem State.setLevel_wires (s : State) (n : LineName) (b : Bool) : (s.setLevel n b).wires = s.wires.setLine n { s.wires.line n with level := b } := rfl
@[simp] theorem State.setLevel_mem (s : State) (n : LineName) (b : Bool) : (s.setLevel n b).mem = s.mem := rfl
@[simp] theorem State.setLevel_env (s : State) (n : LineName) (b : Bool) : (s.setLevel n b).env = s.env := rfl
@[simp] theorem State.setLevel_sched (s : State) (n : LineName) (b : Bool) : (s.setLevel n b).sched = s.sched := rfl
@[simp] theorem State.setLevel_run (s : State) (n : LineName) (b : Bool) : (s.setLevel n b).run = s.run := rfl
@[simp] theorem State.setLevel_loop (s : State) (n : LineName) (b : Bool) : (s.setLevel n b).loop = s.loop := rfl
@[simp] theorem State.setLevel_cyc (s : State) (n : LineName) (b : Bool) : (s.setLevel n b).cyc = s.cyc := rfl

@[simp] theorem State.mergeRequests_regs (s : State) (a b : Bool) : (s.mergeRequests a b).regs = s.regs := rfl
@[simp] theorem State.mergeRequests_pending (s : State) (a b : Bool) : (s.mergeRequests a b).pending = { nmi := s.pending.nmi || a, irq := s.pending.irq || b } := rfl
@[simp] theorem State.mergeRequests_budget (s : State) (a b : Bool) : (s.mergeRequests a b).budget = s.budget := rfl
@[simp] theorem State.mergeRequests_wires (s : State) (a b : Bool) : (s.mergeRequests a b).wires = s.wires := rfl
@[simp] theorem State.mergeRequests_mem (s : State) (a b : Bool) : (s.mergeRequests a b).mem = s.mem := rfl
@[simp] theorem State.mergeRequests_env (s : State) (a b : Bool) : (s.mergeRequests a b).env = s.env := rfl
@[simp] theorem State.mergeRequests_sched (s : State) (a b : Bool) : (s.mergeRequests a b).sched = s.sched := rfl
@[simp] theorem State.mergeRequests_run (s : State) (a b : Bool) : (s.mergeRequests a b).run = s.run := rfl
@[simp] theorem State.mergeRequests_loop (s : State) (a b : Bool) : (s.mergeRequests a b).loop = s.loop := rfl
@[simp] theorem State.mergeRequests_cyc (s : State) (a b : Bool) : (s.mergeRequests a b).cyc = s.cyc := rfl

@[simp] theorem State.registerListener_regs (s : State) (n : LineName) (b : Bool) (r : Reaction) : (s.registerListener n b r).regs = s.regs := rfl
@[simp] theorem State.registerListener_pending (s : State) (n : LineName) (b : Bool) (r : Reaction) : (s.registerListener n b r).pending = s.pending := rfl
@[simp] theorem State.registerListener_budget (s : State) (n : LineName) (b : Bool) (r : Reaction) : (s.registerListener n b r).budget = s.budget := rfl
@[simp] theorem State.registerListener_wires (s : State) (n : LineName) (b : Bool) (r : Reaction) : (s.registerListener n b r).wires = (s.wires.make n).setLine n (((s.wires.make n).line n).register b r) := rfl
@[simp] theorem State.registerListener_mem (s : State) (n : LineName) (b : Bool) (r : Reaction) : (s.registerListener n b r).mem = s.mem := rfl
@[simp] theorem State.registerListener_env (s : State) (n : LineName) (b : Bool) (r : Reaction) : (s.registerListener n b r).env = s.env := rfl
@[simp] theorem State.registerListener_sched (s : State) (n : LineName) (b : Bool) (r : Reaction) : (s.registerListener n b r).sched = s.sched := rfl
@[simp] theorem State.registerListener_run (s : State) (n : LineName) (b : Bool) (r : Reaction) : (s.registerListener n b r).run = s.run := rfl
@[simp] theorem State.registerListener_loop (s : State) (n : LineName) (b : Bool) (r : Reaction) : (s.registerListener n b r).loop = s.loop := rfl
@[simp] theorem State.registerListener_cyc (s : State) (n : LineName) (b : Bool) (r : Reaction) : (s.registerListener n b r).cyc = s.cyc := rfl

@[simp] theorem State.raiseRequest_regs (s : State) (k : Interrupt) : (s.raiseRequest k).regs = s.regs := by cases k <;> rfl
@[simp] theorem State.raiseRequest_budget (s : State) (k : Interrupt) : (s.raiseRequest k).budget = s.budget := by cases k <;> rfl
@[simp] theorem State.raiseRequest_wires (s : State) (k : Interrupt) : (s.raiseRequest k).wires = s.wires := by cases k <;> rfl
@[simp] theorem State.raiseRequest_mem (s : State) (k : Interrupt) : (s.raiseRequest k).mem = s.mem := by cases k <;> rfl
@[simp] theorem State.raiseRequest_env (s : State) (k : Interrupt) : (s.raiseRequest k).env = s.env := by cases k <;> rfl
@[simp] theorem State.raiseRequest_sched (s : State) (k : Interrupt) : (s.raiseRequest k).sched = s.sched := by cases k <;> rfl
@[simp] theorem State.raiseRequest_run (s : State) (k : Interrupt) : (s.raiseRequest k).run = s.run := by cases k <;> rfl
@[simp] theorem State.raiseRequest_loop (s : State) (k : Interrupt) : (s.raiseRequest k).loop = s.loop := by cases k <;> rfl
@[simp] theorem State.raiseRequest_cyc (s : State) (k : Interrupt) : (s.raiseRequest k).cyc = s.cyc := by cases k <;> rfl
@[simp] theorem State.raiseRequest_nmi (s : State) : (s.raiseRequest .nmi).pending = { s.pending with nmi := true } := rfl
@[simp] theorem State.raiseRequest_irq (s : State) : (s.raiseRequest .irq).pending = { s.pending with irq := true } := rfl

@[simp] theorem State.clearRequest_regs (s : State) (k : Interrupt) : (s.clearRequest k).regs = s.regs := by cases k <;> rfl
@[simp] theorem State.clearRequest_budget (s : State) (k : Interrupt) : (s.clearRequest k).budget = s.budget := by cases k <;> rfl
@[simp] theorem State.clearRequest_wires (s : State) (k : Interrupt) : (s.clearRequest k).wires = s.wires := by cases k <;> rfl
@[simp] theorem State.clearRequest_mem (s : State) (k : Interrupt) : (s.clearRequest k).mem = s.mem := by cases k <;> rfl
@[simp] theorem State.clearRequest_env (s : State) (k : Interrupt) : (s.clearRequest k).env = s.env := by cases k <;> rfl
@[simp] theorem State.clearRequest_sched (s : State) (k : Interrupt) : (s.clearRequest k).sched = s.sched := by cases k <;> rfl
@[simp] theorem State.clearRequest_run (s : State) (k : Interrupt) : (s.clearRequest k).run = s.run := by cases k <;> rfl
@[simp] theorem State.clearRequest_loop (s : State) (k : Interrupt) : (s.clearRequest k).loop = s.loop := by cases k <;> rfl
@[simp] theorem State.clearRequest_cyc (s : State) (k : Interrupt) : (s.clearRequest k).cyc = s.cyc := by cases k <;> rfl
@[simp] theorem State.clearRequest_nmi (s : State) : (s.clearRequest .nmi).pending = { s.pending with nmi := false } := rfl
@[simp] theorem State.clearRequest_irq (s : State) : (s.clearRequest .irq).pending = { s.pending with irq := false } := rfl

/-- A line reads as it was last replaced, and no other line changes. -/
theorem Wires.line_setLine (w : Wires) (n m : LineName) (l : Line) :
    (w.setLine n l).line m = if m = n ∧ w.made n = true then l else w.line m := by
  cases n <;> cases m <;> try (simp [Wires.line, Wires.setLine, Wires.made]; done)
  rename_i j k
  by_cases hj : j < w.device.length
  · by_cases hk : k = j
    · subst hk; simp [Wires.line, Wires.setLine, Wires.made, hj]
    · have hk' : ¬ j = k := fun h => hk h.symm
      simp [Wires.line, Wires.setLine, Wires.made, hk, hk']
  · have h : w.device.set j l = w.device := List.set_eq_of_length_le (by omega)
    simp [Wires.line, Wires.setLine, Wires.made, hj, h]

/-- A line that the wiring has not made has no listeners. -/
theorem Wires.line_of_not_made {w : Wires} {n : LineName} (h : w.made n = false) : w.line n = .unlistened := by
  cases n <;> simp_all [Wires.made, Wires.line]

@[simp] theorem Wires.setLine_count (w : Wires) (n : LineName) (l : Line) : (w.setLine n l).count = w.count := by
  cases n <;> simp [Wires.setLine, Wires.count]

theorem Wires.made_congr {w v : Wires} (h : v.count = w.count) (n : LineName) : v.made n = w.made n := by
  cases n <;> simp_all [Wires.made, Wires.count]

@[simp] theorem Wires.made_setLine (w : Wires) (n m : LineName) (l : Line) : (w.setLine n l).made m = w.made m :=
  Wires.made_congr (Wires.setLine_count w n l) m

@[simp] theorem Wires.setLine_setLine (w : Wires) (n : LineName) (k l : Line) :
    (w.setLine n k).setLine n l = w.setLine n l := by
  cases n <;> simp [Wires.setLine]

/-- Driving a line twice is driving it the second time. -/
theorem State.setLevel_setLevel (s : State) (n : LineName) (b level : Bool) :
    (s.setLevel n b).setLevel n level = s.setLevel n level := by
  unfold State.setLevel
  simp only [State.setWires_wires, Wires.setLine_setLine, Wires.line_setLine]
  cases s.wires.made n <;> simp <;> rfl

/-- Registration appends to the list of its level (R61). -/
theorem Line.listeners_register (l : Line) (level b : Bool) (r : Reaction) : (l.register level r).listeners b =
    if b = level then l.listeners b ++ [r] else l.listeners b := by
  cases level <;> cases b <;> rfl

theorem Wires.made_make_of_made {w : Wires} {n : LineName} (h : w.made n = true) (m : LineName) :
    (w.make m).made n = true := by
  cases n <;> cases m <;> simp_all [Wires.made, Wires.make]
  omega

/-- Making a line makes it, and changes no line. -/
@[simp] theorem Wires.made_make (w : Wires) (n : LineName) : (w.make n).made n = true := by
  cases n <;> simp [Wires.made, Wires.make]
  omega

@[simp] theorem Wires.line_make (w : Wires) (n m : LineName) : (w.make n).line m = w.line m := by
  cases n <;> cases m <;> try rfl
  rename_i j k
  simp only [Wires.line, Wires.make, List.getD_eq_getElem?_getD]
  by_cases hk : k < w.device.length
  · rw [List.getElem?_append_left hk]
  · rw [List.getElem?_append_right (by omega), List.getElem?_replicate, List.getElem?_eq_none (by omega)]
    split <;> rfl

@[simp] theorem Wires.setLine_addr (w : Wires) (n : LineName) (l : Line) : (w.setLine n l).addr = w.addr := by
  cases n <;> rfl

@[simp] theorem Wires.setLine_data (w : Wires) (n : LineName) (l : Line) : (w.setLine n l).data = w.data := by
  cases n <;> rfl

end Sys2Proof.Machine
end

