-- ==== Sys2Proof/Laws/Bus.lean ====
section
/-! SUPPORT. What a line dispatch and a bus transaction can do: under any wiring, and with flat RAM. -/

namespace Sys2Proof.Machine

theorem Wires.sameListeners_refl (w : Wires) : w.sameListeners w := fun _ _ => rfl

theorem Wires.sameListeners_trans {u v w : Wires} (h : u.sameListeners v) (h' : v.sameListeners w) : u.sameListeners w :=
  fun n b => (h n b).trans (h' n b)

/-- What no listener touches, whatever the wiring: the registers, the budget, the scheduler, the run status, the loop
point, the per-cycle selectors, the lines there are and the listener lists. Memory stays canonical and a request stays pending. -/
structure Untouched (s t : State) : Prop where
  regs : t.regs = s.regs
  budget : t.budget = s.budget
  sched : t.sched = s.sched
  run : t.run = s.run
  loop : t.loop = s.loop
  forced : t.cyc.forced = s.cyc.forced
  opcode : t.cyc.opcode = s.cyc.opcode
  opcAddr : t.cyc.opcAddr = s.cyc.opcAddr
  listeners : t.wires.sameListeners s.wires
  count : t.wires.count = s.wires.count
  wf : s.mem.wf = true → t.mem.wf = true
  nmi : s.pending.nmi = true → t.pending.nmi = true
  irq : s.pending.irq = true → t.pending.irq = true

theorem Untouched.refl (s : State) : Untouched s s := by
  constructor <;> first | rfl | exact id | exact Wires.sameListeners_refl _

theorem Untouched.trans {s t u : State} (h : Untouched s t) (k : Untouched t u) : Untouched s u where
  regs := k.regs.trans h.regs
  budget := k.budget.trans h.budget
  sched := k.sched.trans h.sched
  run := k.run.trans h.run
  loop := k.loop.trans h.loop
  forced := k.forced.trans h.forced
  opcode := k.opcode.trans h.opcode
  opcAddr := k.opcAddr.trans h.opcAddr
  listeners := Wires.sameListeners_trans k.listeners h.listeners
  count := k.count.trans h.count
  wf := k.wf ∘ h.wf
  nmi := k.nmi ∘ h.nmi
  irq := k.irq ∘ h.irq

theorem untouched_setWires {s : State} {w : Wires} (h : w.sameListeners s.wires) (hc : w.count = s.wires.count) :
    Untouched s (s.setWires w) := by
  constructor <;> first | rfl | exact id | exact h | exact hc

theorem Wires.sameListeners_addr (w : Wires) (a : Bus 16) : Wires.sameListeners { w with addr := a } w :=
  fun n _ => by cases n <;> rfl

theorem Wires.sameListeners_data (w : Wires) (d : Bus 8) : Wires.sameListeners { w with data := d } w :=
  fun n _ => by cases n <;> rfl

theorem untouched_writeAddrBus (s : State) (v : Nat) : Untouched s (s.writeAddrBus v) :=
  untouched_setWires (Wires.sameListeners_addr _ _) rfl

theorem untouched_writeDataBus (s : State) (v : Nat) : Untouched s (s.writeDataBus v) :=
  untouched_setWires (Wires.sameListeners_data _ _) rfl

theorem Wires.sameListeners_setLevel (w : Wires) (n : LineName) (level : Bool) :
    (w.setLine n { w.line n with level := level }).sameListeners w := by
  intro m b
  rw [Wires.line_setLine]
  split
  · rename_i h; rw [h.1]; rfl
  · rfl

theorem untouched_setLevel (s : State) (n : LineName) (level : Bool) : Untouched s (s.setLevel n level) :=
  untouched_setWires (Wires.sameListeners_setLevel _ _ _) (Wires.setLine_count _ _ _)

theorem untouched_setEnv (s : State) (e : Config.Env) : Untouched s (s.setEnv e) := by
  constructor <;> first | rfl | exact id | exact Wires.sameListeners_refl _

theorem untouched_mergeRequests (s : State) (a b : Bool) : Untouched s (s.mergeRequests a b) := by
  constructor <;> first | rfl | exact id | exact Wires.sameListeners_refl _ | (intro h; simp [h])

theorem untouched_raiseRequest (s : State) (k : Interrupt) : Untouched s (s.raiseRequest k) := by
  cases k <;> constructor <;> first | rfl | exact id | exact Wires.sameListeners_refl _ | (intro _; rfl)

theorem untouched_setMem (s : State) (a : Word) (v : Byte) : Untouched s (s.setMem (s.mem.set a.toNat v)) where
  regs := rfl
  budget := rfl
  sched := rfl
  run := rfl
  loop := rfl
  forced := rfl
  opcode := rfl
  opcAddr := rfl
  listeners := Wires.sameListeners_refl _
  count := rfl
  wf := Memory.wf_set a.isLt v
  nmi := id
  irq := id

theorem untouched_record (s : State) (t : Transaction) : Untouched s (s.record t) := by
  constructor <;> first | rfl | exact id | exact Wires.sameListeners_refl _

theorem untouched_ramReact (s : State) : Untouched s (ramReact s) := by
  unfold ramReact
  split
  · exact untouched_writeDataBus _ _
  · exact untouched_setMem _ _ _

theorem untouched_responderReact (s : State) : Untouched s (responderReact s) := by
  unfold responderReact
  split
  · exact ((untouched_writeDataBus _ _).trans (untouched_setEnv _ _)).trans (untouched_mergeRequests _ _ _)
  · exact (untouched_setEnv _ _).trans (untouched_mergeRequests _ _ _)

/-- A device that reacts to an address reacts where the bus holds one of the range. -/
theorem react_onAddress (set : LineName → Bool → State → Res Unit) (first last : Word) (r : Reaction) (s : State) :
    react set (.onAddress first last r) s =
      if first ≤ s.wires.addr.read ∧ s.wires.addr.read ≤ last then react set r s else .ok () s := by
  exact if_congr Iff.rfl rfl rfl

/-- A device that watches a line reacts where the line has the level. -/
theorem react_onLevel (set : LineName → Bool → State → Res Unit) (n : LineName) (level : Bool) (r : Reaction)
    (s : State) :
    react set (.onLevel n level r) s = if (s.wires.line n).level = level then react set r s else .ok () s := by
  refine if_congr ?_ rfl rfl
  show level.toNat ≤ (s.wires.line n).level.toNat ∧ (s.wires.line n).level.toNat ≤ level.toNat ↔ _
  generalize (s.wires.line n).level = b
  revert b level; decide

/-- A device that watches the data bus reacts where it holds one of the range. -/
theorem react_onData (set : LineName → Bool → State → Res Unit) (first last : Byte) (r : Reaction) (s : State) :
    react set (.onData first last r) s =
      if first ≤ s.wires.data.read ∧ s.wires.data.read ≤ last then react set r s else .ok () s := by
  exact if_congr Iff.rfl rfl rfl

/-- No operation of the substrate ends a cycle with a fatal condition. -/
abbrev NoFatal : State → Prop := fun _ => False

theorem react_untouched {set : LineName → Bool → State → Res Unit}
    (hset : ∀ n b s, (set n b s).post (fun _ t => Untouched s t) NoFatal) (r : Reaction) (s : State) :
    (react set r s).post (fun _ t => Untouched s t) NoFatal := by
  induction r generalizing s with
  | ram => exact untouched_ramReact s
  | responder => exact untouched_responderReact s
  | setLine n b => exact hset n b s
  | writeAddr _ => exact untouched_writeAddrBus s _
  | writeData _ => exact untouched_writeDataBus s _
  | request k => exact untouched_raiseRequest s k
  | register _ _ _ _ => trivial
  | store a v => exact untouched_setMem s _ _
  | nothing => exact Untouched.refl s
  | both r q ihr ihq =>
    exact Res.post_bind (ihr s) fun _ t h => Res.post_mono (ihq t) (fun _ _ k => h.trans k) fun _ => id
  | branch on first last r q ihr ihq =>
    unfold react
    split
    · exact ihr s
    · exact ihq s

theorem dispatch_untouched {set : LineName → Bool → State → Res Unit}
    (hset : ∀ n b s, (set n b s).post (fun _ t => Untouched s t) NoFatal) (rs : List Reaction) :
    ∀ s, (dispatch set rs s).post (fun _ t => Untouched s t) NoFatal := by
  induction rs with
  | nil => exact fun s => Untouched.refl s
  | cons r rs ih =>
    exact fun s => Res.post_bind (react_untouched hset r s) fun _ t h =>
      Res.post_mono (ih t) (fun _ _ k => h.trans k) fun _ => id

theorem setStateWithin_untouched (depth : Nat) :
    ∀ n b s, (setStateWithin depth n b s).post (fun _ t => Untouched s t) NoFatal := by
  induction depth with
  | zero => exact fun _ _ _ => trivial
  | succ d ih =>
    exact fun n b s => Res.post_mono (dispatch_untouched ih _ _)
      (fun _ _ k => (untouched_setLevel s n b).trans k) fun _ => id

/-- Everything `setState` can do, whatever the wiring. -/
theorem setState_untouched (n : LineName) (b : Bool) (s : State) :
    (setState n b s).post (fun _ t => Untouched s t) NoFatal := setStateWithin_untouched _ n b s

theorem clockAfterTransaction_eq (s : State) : clockAfterTransaction s = .ok () s := rfl

/-- Everything a read transaction can do, whatever the wiring. -/
theorem memRead_untouched (a : Word) (s : State) : (memRead a s).post (fun _ t => Untouched s t) NoFatal := by
  refine Res.post_bind (setState_untouched _ _ _) fun _ t h => ?_
  refine Res.post_bind (setState_untouched _ _ _) fun _ u k => ?_
  exact (((untouched_writeAddrBus s _).trans h).trans k).trans (untouched_record _ _)

/-- Everything a write transaction can do, whatever the wiring. -/
theorem memWrite_untouched (a : Word) (v : Byte) (s : State) :
    (memWrite a v s).post (fun _ t => Untouched s t) NoFatal := by
  refine Res.post_bind (setState_untouched _ _ _) fun _ t h => ?_
  refine Res.post_bind (setState_untouched _ _ _) fun _ u k => ?_
  exact ((((untouched_writeAddrBus s _).trans (untouched_writeDataBus _ _)).trans h).trans k).trans
    (untouched_record _ _)

/-- A pointer, vector or word read, whatever the wiring. -/
theorem readPair_untouched (a b : Word) (s : State) : (readPair a b s).post (fun _ t => Untouched s t) NoFatal := by
  refine Res.post_bind (memRead_untouched a s) fun _ t h => ?_
  exact Res.post_bind (memRead_untouched b t) fun _ u k => h.trans k

/-- `setState` sets the level, then runs the listeners; the calls they make are bounded alike. -/
theorem setState_eq (n : LineName) (b : Bool) (s : State) : setState n b s =
    dispatch (setStateWithin (courses s.wires.count + 99)) ((s.wires.line n).listeners b) (s.setLevel n b) := rfl

/-- A line without listeners for a level only takes the level. -/
theorem setState_unlistened {n : LineName} {b : Bool} {s : State} (h : (s.wires.line n).listeners b = []) :
    setState n b s = .ok () (s.setLevel n b) := by
  rw [setState_eq, h]
  rfl

theorem isFlatRam_afterRead {s : State} (h : s.wires.isFlatRam) (a : Word) : (afterRead a s).wires.isFlatRam := h
theorem isFlatRam_afterWrite {s : State} (h : s.wires.isFlatRam) (a : Word) (v : Byte) :
    (afterWrite a v s).wires.isFlatRam := h

/-- Flat RAM answers a read with the byte it holds. -/
theorem memRead_flatRam {s : State} (h : s.wires.isFlatRam) (a : Word) :
    memRead a s = .ok (s.byteAt a) (afterRead a s) := by
  obtain ⟨h1, h2, h3, h4⟩ := h
  unfold memRead
  rw [setState_unlistened (by simpa [Wires.line, Line.listeners, Config.readLevel] using h1)]
  simp only [Res.bind_ok]
  rw [setState_eq]
  simp only [State.setLevel_wires, State.writeAddrBus_wires, Wires.setLine, Wires.line, Line.listeners, h3, if_true,
    dispatch, react, ramReact, Res.bind_ok, clockAfterTransaction_eq]
  simp [State.setLevel, State.setWires, Wires.setLine, Wires.line, State.writeAddrBus, State.writeDataBus, Bus.write,
    Bus.read, State.record, State.setCyc, afterRead, State.readOf, State.byteAt]

/-- Flat RAM takes the byte written. -/
theorem memWrite_flatRam {s : State} (h : s.wires.isFlatRam) (a : Word) (v : Byte) :
    memWrite a v s = .ok () (afterWrite a v s) := by
  obtain ⟨h1, h2, h3, h4⟩ := h
  unfold memWrite
  rw [setState_unlistened (by simpa [Wires.line, Line.listeners, Config.writeLevel] using h2)]
  simp only [Res.bind_ok]
  rw [setState_eq]
  simp only [State.setLevel_wires, State.writeAddrBus_wires, State.writeDataBus_wires, Wires.setLine, Wires.line,
    Line.listeners, h3, if_true, dispatch, react, ramReact, Res.bind_ok, clockAfterTransaction_eq]
  simp [State.setLevel, State.setWires, Wires.setLine, Wires.line, State.writeAddrBus, State.writeDataBus, Bus.write,
    Bus.read, State.record, State.setCyc, State.setMem, afterWrite, Config.readLevel, Config.writeLevel]

@[simp] theorem afterRead_regs (a : Word) (s : State) : (afterRead a s).regs = s.regs := rfl
@[simp] theorem afterRead_pending (a : Word) (s : State) : (afterRead a s).pending = s.pending := rfl
@[simp] theorem afterRead_budget (a : Word) (s : State) : (afterRead a s).budget = s.budget := rfl
@[simp] theorem afterRead_mem (a : Word) (s : State) : (afterRead a s).mem = s.mem := rfl
@[simp] theorem afterRead_env (a : Word) (s : State) : (afterRead a s).env = s.env := rfl
@[simp] theorem afterRead_sched (a : Word) (s : State) : (afterRead a s).sched = s.sched := rfl
@[simp] theorem afterRead_run (a : Word) (s : State) : (afterRead a s).run = s.run := rfl
@[simp] theorem afterRead_loop (a : Word) (s : State) : (afterRead a s).loop = s.loop := rfl
@[simp] theorem afterRead_cyc (a : Word) (s : State) :
    (afterRead a s).cyc = { s.cyc with trace := s.cyc.trace ++ [s.readOf a] } := rfl
@[simp] theorem afterRead_byteAt (a b : Word) (s : State) : (afterRead a s).byteAt b = s.byteAt b := rfl
@[simp] theorem afterWrite_regs (a : Word) (v : Byte) (s : State) : (afterWrite a v s).regs = s.regs := rfl
@[simp] theorem afterWrite_pending (a : Word) (v : Byte) (s : State) : (afterWrite a v s).pending = s.pending := rfl
@[simp] theorem afterWrite_budget (a : Word) (v : Byte) (s : State) : (afterWrite a v s).budget = s.budget := rfl
@[simp] theorem afterWrite_mem (a : Word) (v : Byte) (s : State) : (afterWrite a v s).mem = s.mem.set a.toNat v := rfl
@[simp] theorem afterWrite_env (a : Word) (v : Byte) (s : State) : (afterWrite a v s).env = s.env := rfl
@[simp] theorem afterWrite_sched (a : Word) (v : Byte) (s : State) : (afterWrite a v s).sched = s.sched := rfl
@[simp] theorem afterWrite_run (a : Word) (v : Byte) (s : State) : (afterWrite a v s).run = s.run := rfl
@[simp] theorem afterWrite_loop (a : Word) (v : Byte) (s : State) : (afterWrite a v s).loop = s.loop := rfl
@[simp] theorem afterWrite_cyc (a : Word) (v : Byte) (s : State) :
    (afterWrite a v s).cyc = { s.cyc with trace := s.cyc.trace ++ [⟨true, a, v⟩] } := rfl

/-- What a transaction with flat RAM leaves as it was on the wires. -/
structure Rewired (w v : Wires) : Prop where
  listeners : v.sameListeners w
  nmi : v.nmi = w.nmi
  irq : v.irq = w.irq
  reset : v.reset = w.reset
  device : v.device = w.device

theorem Rewired.refl (w : Wires) : Rewired w w := ⟨Wires.sameListeners_refl _, rfl, rfl, rfl, rfl⟩

theorem Rewired.trans {u v w : Wires} (h : Rewired u v) (k : Rewired v w) : Rewired u w :=
  ⟨Wires.sameListeners_trans k.listeners h.listeners, k.nmi.trans h.nmi, k.irq.trans h.irq, k.reset.trans h.reset,
    k.device.trans h.device⟩

theorem rewired_afterRead (a : Word) (s : State) : Rewired s.wires (afterRead a s).wires :=
  ⟨fun n b => by cases n <;> rfl, rfl, rfl, rfl, rfl⟩

theorem rewired_afterWrite (a : Word) (v : Byte) (s : State) : Rewired s.wires (afterWrite a v s).wires :=
  ⟨fun n b => by cases n <;> rfl, rfl, rfl, rfl, rfl⟩

/-- The end of a cycle with flat RAM wiring: nothing listens to clock LOW. -/
theorem finish_flatRam {s : State} (h : s.wires.isFlatRam) (i : Instr) (crossed : Bool) :
    finish i (.ok crossed s) =
      .next (((s.charge (i.cost crossed)).setLevel .clock false).setLoop .boundary) := by
  unfold finish
  simp only [Res.bind_ok]
  rw [setState_unlistened (by simpa [Wires.line, Line.listeners] using h.2.2.2)]

end Sys2Proof.Machine
end

