-- ==== Sys2Proof/Laws/Operands.lean ====
section
/-! SUPPORT. What operand resolution, the operand helpers, the stack operations, interrupt entry and return can do:
with flat RAM, and, as for the registers, under any wiring. -/

namespace Sys2Proof.Machine

theorem readPair_flatRam {s : State} (h : s.wires.isFlatRam) (a b : Word) :
    readPair a b s = .ok (word (s.byteAt b) (s.byteAt a)) (afterRead b (afterRead a s)) := by
  unfold readPair
  rw [memRead_flatRam h, Res.bind_ok, memRead_flatRam (isFlatRam_afterRead h a)]
  rfl

/-- The state after the pointer of a mode, if it has one, has been read from flat RAM. -/
def afterPointer (o : Operand) (s : State) : State :=
  match pointerCells o s.regs with
  | some (lowAt, highAt) => afterRead highAt (afterRead lowAt s)
  | none => s

theorem afterPointer_cases (o : Operand) (s : State) :
    (pointerCells o s.regs = none ∧ afterPointer o s = s) ∨
    ∃ a b, pointerCells o s.regs = some (a, b) ∧ afterPointer o s = afterRead b (afterRead a s) := by
  unfold afterPointer
  cases h : pointerCells o s.regs with
  | none => exact .inl ⟨rfl, rfl⟩
  | some q => exact .inr ⟨q.1, q.2, rfl, rfl⟩

@[simp] theorem afterPointer_regs (o : Operand) (s : State) : (afterPointer o s).regs = s.regs := by
  obtain ⟨-, h⟩ | ⟨a, b, -, h⟩ := afterPointer_cases o s <;> simp [h]
@[simp] theorem afterPointer_pending (o : Operand) (s : State) : (afterPointer o s).pending = s.pending := by
  obtain ⟨-, h⟩ | ⟨a, b, -, h⟩ := afterPointer_cases o s <;> simp [h]
@[simp] theorem afterPointer_budget (o : Operand) (s : State) : (afterPointer o s).budget = s.budget := by
  obtain ⟨-, h⟩ | ⟨a, b, -, h⟩ := afterPointer_cases o s <;> simp [h]
@[simp] theorem afterPointer_mem (o : Operand) (s : State) : (afterPointer o s).mem = s.mem := by
  obtain ⟨-, h⟩ | ⟨a, b, -, h⟩ := afterPointer_cases o s <;> simp [h]
@[simp] theorem afterPointer_env (o : Operand) (s : State) : (afterPointer o s).env = s.env := by
  obtain ⟨-, h⟩ | ⟨a, b, -, h⟩ := afterPointer_cases o s <;> simp [h]
@[simp] theorem afterPointer_sched (o : Operand) (s : State) : (afterPointer o s).sched = s.sched := by
  obtain ⟨-, h⟩ | ⟨a, b, -, h⟩ := afterPointer_cases o s <;> simp [h]
@[simp] theorem afterPointer_run (o : Operand) (s : State) : (afterPointer o s).run = s.run := by
  obtain ⟨-, h⟩ | ⟨a, b, -, h⟩ := afterPointer_cases o s <;> simp [h]
@[simp] theorem afterPointer_byteAt (o : Operand) (s : State) (a : Word) : (afterPointer o s).byteAt a = s.byteAt a := by
  simp [State.byteAt]
@[simp] theorem afterPointer_cyc (o : Operand) (s : State) :
    (afterPointer o s).cyc = { s.cyc with trace := s.cyc.trace ++ pointerReads o s } := by
  obtain ⟨k, h⟩ | ⟨a, b, k, h⟩ := afterPointer_cases o s <;>
    simp [h, pointerReads, k, State.readOf]

theorem isFlatRam_afterPointer {s : State} (h : s.wires.isFlatRam) (o : Operand) :
    (afterPointer o s).wires.isFlatRam := by
  obtain ⟨-, k⟩ | ⟨a, b, -, k⟩ := afterPointer_cases o s <;> rw [k] <;> exact h

theorem rewired_afterPointer (o : Operand) (s : State) : Rewired s.wires (afterPointer o s).wires := by
  obtain ⟨-, k⟩ | ⟨a, b, -, k⟩ := afterPointer_cases o s <;> rw [k]
  · exact Rewired.refl _
  · exact (rewired_afterRead a s).trans (rewired_afterRead b _)

/-- Operand resolution with flat RAM: the pointer is read, ADL takes the effective address, and `pageCrossed` is
answered. -/
theorem resolve_flatRam {s : State} (h : s.wires.isFlatRam) (o : Operand) :
    resolve o s = .ok (crossing o s) ((afterPointer o s).setADL (effectiveAddress o s)) := by
  unfold resolve crossing effectiveAddress pointerIn afterPointer
  cases pointerCells o s.regs with
  | none => rfl
  | some q => simp [readPair_flatRam h]

/-- An operand that `operand()` reads from memory. -/
theorem operand_memory {o : Operand} (h : o ≠ .acc) (h' : o ≠ .imp) (h'' : ∀ b, o ≠ .imm b) (s : State) :
    operand o s = memRead s.regs.adl s := by
  cases o <;> first | rfl | exact absurd rfl h | exact absurd rfl h' | exact absurd rfl (h'' _)

/-- Operand resolution under any wiring: of the registers it changes ADL only. -/
theorem resolve_any (o : Operand) (s : State) :
    (resolve o s).post (fun _ t => ∃ a u, Untouched s u ∧ t = u.setADL a) NoFatal := by
  unfold resolve
  cases pointerCells o s.regs with
  | none => exact ⟨_, s, Untouched.refl s, rfl⟩
  | some q => exact Res.post_bind (readPair_untouched _ _ s) fun _ t h => ⟨_, t, h, rfl⟩

/-- A byte of the instruction stream under any wiring: of the registers it changes PC only. -/
theorem fetchByte_any (s : State) :
    (fetchByte s).post (fun _ t => ∃ u, Untouched s u ∧ t = u.setPC (s.regs.pc + 1)) NoFatal :=
  Res.post_bind (memRead_untouched _ s) fun _ t h => ⟨t, h, by rw [h.regs]⟩

/-- A push under any wiring: of the registers it changes SP only. -/
theorem push_any (v : Byte) (s : State) :
    (push v s).post (fun _ t => ∃ u, Untouched s u ∧ t = u.setSP (s.regs.sp - 1)) NoFatal :=
  Res.post_bind (memWrite_untouched _ _ s) fun _ t h => ⟨t, h, by rw [h.regs]⟩

/-- A pull under any wiring: of the registers it changes SP only. -/
theorem pull_any (s : State) : (pull s).post (fun _ t => Untouched (s.setSP (s.regs.sp + 1)) t) NoFatal :=
  memRead_untouched _ _

@[simp] theorem byteAt_setRegs (r : Regs) (s : State) (a : Word) : (s.setRegs r).byteAt a = s.byteAt a := rfl

theorem fetchByte_flatRam {s : State} (h : s.wires.isFlatRam) :
    fetchByte s = .ok (s.byteAt s.regs.pc) ((afterRead s.regs.pc s).setPC (s.regs.pc + 1)) := by
  unfold fetchByte
  rw [memRead_flatRam h]
  rfl

theorem push_flatRam {s : State} (h : s.wires.isFlatRam) (v : Byte) :
    push v s = .ok () ((afterWrite (stackAddress s.regs.sp) v s).setSP (s.regs.sp - 1)) := by
  unfold push
  rw [memWrite_flatRam h]
  rfl

theorem pull_flatRam {s : State} (h : s.wires.isFlatRam) :
    pull s = .ok (s.byteAt (stackAddress (s.regs.sp + 1)))
      (afterRead (stackAddress (s.regs.sp + 1)) (s.setSP (s.regs.sp + 1))) := by
  unfold pull
  exact memRead_flatRam (s := s.setSP (s.regs.sp + 1)) h _

theorem byte_sub_one_sub_one (b : Byte) : b - 1 - 1 = b - 2 := by bv_omega
theorem byte_sub_two_sub_one (b : Byte) : b - 2 - 1 = b - 3 := by bv_omega
theorem byte_add_one_add_one (b : Byte) : b + 1 + 1 = b + 2 := by bv_omega
theorem byte_add_two_add_one (b : Byte) : b + 2 + 1 = b + 3 := by bv_omega

/-- A word pushed to flat RAM: high byte, then low byte. -/
theorem pushWord_flatRam {s : State} (h : s.wires.isFlatRam) (w : Word) :
    pushWord w s = .ok () ((afterWrite (stackAddress (s.regs.sp - 1)) (lo8 w)
      ((afterWrite (stackAddress s.regs.sp) (hi8 w) s).setSP (s.regs.sp - 1))).setSP (s.regs.sp - 2)) := by
  unfold pushWord
  rw [push_flatRam h, Res.bind_ok, push_flatRam (by exact h), ← byte_sub_one_sub_one]
  rfl

/-- A word pulled from flat RAM: low byte, then high byte. -/
theorem pullWord_flatRam {s : State} (h : s.wires.isFlatRam) :
    pullWord s = .ok
      (word (s.byteAt (stackAddress (s.regs.sp + 2))) (s.byteAt (stackAddress (s.regs.sp + 1))))
      (afterRead (stackAddress (s.regs.sp + 2))
        ((afterRead (stackAddress (s.regs.sp + 1)) (s.setSP (s.regs.sp + 1))).setSP (s.regs.sp + 2))) := by
  unfold pullWord
  rw [pull_flatRam h, Res.bind_ok, pull_flatRam (by exact h), ← byte_add_one_add_one]
  rfl

end Sys2Proof.Machine
end

