-- ==== Sys2Proof/Laws/Completion.lean ====
section
/-! SUPPORT. With flat RAM, what each shape of handler answers, and that the end of the cycle then completes the
instruction with that effect. -/

namespace Sys2Proof.Machine

/-- What a handler leaves when flat RAM has answered its transactions `bus`: new registers and memory, and everything
but the budget as `CompletesWith` says. -/
structure Handled (s u : State) (regs : Regs) (memory : Nat → Byte) (pending : Pending) (bus : List Transaction) :
    Prop where
  flat : u.wires.isFlatRam
  regs : u.regs = regs
  memory : ∀ a, u.mem.get a = memory a
  pending : u.pending = pending
  cyc : u.cyc = { s.cyc with trace := s.cyc.trace ++ bus }
  budget : u.budget = s.budget
  env : u.env = s.env
  sched : u.sched = s.sched
  run : u.run = s.run
  rewired : Rewired s.wires u.wires

/-- The end of the cycle turns what the handler left into the effect of the instruction. -/
theorem completesWith_of_handled {i : Instr} {s u : State} {crossed : Bool} {e : Effect}
    (hexec : exec i s = finish i (.ok crossed u)) (h : Handled s u e.regs e.memory e.pending e.bus)
    (hcost : e.cost = i.cost crossed) : CompletesWith i s e := by
  refine ⟨_, hexec.trans (finish_flatRam h.flat i crossed), h.regs, h.memory, h.pending, h.cyc, ?_, h.env, h.sched,
    h.run, rfl, ?_, rfl, h.rewired.nmi, h.rewired.irq, h.rewired.reset, h.rewired.device⟩
  · simp [h.budget, hcost]
  · exact Wires.sameListeners_trans (untouched_setLevel (u.charge (i.cost crossed)) .clock false).listeners
      h.rewired.listeners

/-- Nothing has happened yet. -/
theorem handled_refl {s : State} (h : s.wires.isFlatRam) : Handled s s s.regs s.mem.get s.pending [] :=
  ⟨h, rfl, fun _ => rfl, rfl, by simp, rfl, rfl, rfl, rfl, Rewired.refl _⟩

/-- A change of registers after it. -/
theorem Handled.setRegs {s u : State} {r : Regs} {m : Nat → Byte} {p : Pending} {b : List Transaction}
    (h : Handled s u r m p b) (r' : Regs) : Handled s (u.setRegs r') r' m p b :=
  ⟨h.flat, rfl, h.memory, h.pending, h.cyc, h.budget, h.env, h.sched, h.run, h.rewired⟩

/-- One read transaction after it. -/
theorem Handled.afterRead {s u : State} {r : Regs} {m : Nat → Byte} {p : Pending} {b : List Transaction}
    (h : Handled s u r m p b) (a : Word) : Handled s (afterRead a u) r m p (b ++ [⟨false, a, m a.toNat⟩]) :=
  ⟨h.flat, h.regs, h.memory, h.pending, by simp [h.cyc, State.readOf, State.byteAt, h.memory], h.budget, h.env, h.sched,
    h.run, h.rewired.trans (rewired_afterRead a u)⟩

/-- One write transaction after it, memory being canonical. -/
theorem Handled.afterWrite {s u : State} {r : Regs} {m : Nat → Byte} {p : Pending} {b : List Transaction}
    (h : Handled s u r m p b) (hwf : u.mem.wf = true) (a : Word) (v : Byte) :
    Handled s (afterWrite a v u) r (fun n => if n = a.toNat then v else m n) p (b ++ [⟨true, a, v⟩]) :=
  ⟨h.flat, h.regs, fun n => by simp [Memory.get_set hwf, h.memory], h.pending, by simp [h.cyc], h.budget, h.env,
    h.sched, h.run, h.rewired.trans (rewired_afterWrite a v u)⟩

/-- Operand resolution with flat RAM. -/
theorem handled_resolve {s : State} (h : s.wires.isFlatRam) (o : Operand) :
    Handled s ((afterPointer o s).setADL (effectiveAddress o s)) { s.regs with adl := effectiveAddress o s } s.mem.get
      s.pending (pointerReads o s) := by
  constructor
  case flat => exact isFlatRam_afterPointer h o
  case rewired => exact rewired_afterPointer o s
  all_goals simp

/-- The state after the handler has its operand. -/
def afterOperand (o : Operand) (s : State) : State :=
  match o with
  | .acc | .imm _ => (afterPointer o s).setADL (effectiveAddress o s)
  | o => afterRead (effectiveAddress o s) ((afterPointer o s).setADL (effectiveAddress o s))

/-- `operand()` after operand resolution, with flat RAM. -/
theorem operand_resolved {s : State} (h : s.wires.isFlatRam) {o : Operand} (ho : o ≠ .imp) :
    operand o ((afterPointer o s).setADL (effectiveAddress o s)) = .ok (operandIn o s) (afterOperand o s) := by
  have hf := (handled_resolve h o).flat
  have key : memRead (effectiveAddress o s) ((afterPointer o s).setADL (effectiveAddress o s)) =
      .ok (s.byteAt (effectiveAddress o s))
        (afterRead (effectiveAddress o s) ((afterPointer o s).setADL (effectiveAddress o s))) := by
    rw [memRead_flatRam hf]
    simp [State.byteAt]
  cases o <;> first
    | exact absurd rfl ho
    | exact key
    | rfl

theorem handled_operand {s : State} (h : s.wires.isFlatRam) (o : Operand) (ho : o ≠ .imp) :
    Handled s (afterOperand o s) { s.regs with adl := effectiveAddress o s } s.mem.get s.pending
      (pointerReads o s ++ operandReads o s) := by
  have hr := handled_resolve h o
  cases o <;> first
    | exact absurd rfl ho
    | exact hr.afterRead _
    | simpa [operandReads, afterOperand] using hr

/-- A handler that reads its operand and changes registers, with flat RAM. -/
theorem reading_flatRam {s : State} (h : s.wires.isFlatRam) {o : Operand} (ho : o ≠ .imp)
    (effect : Byte → State → State) :
    reading o effect s = .ok (crossing o s) (effect (operandIn o s) (afterOperand o s)) := by
  unfold reading
  rw [resolve_flatRam h, Res.bind_ok, operand_resolved h ho, Res.bind_ok]

/-- A handler that stores a byte, with flat RAM. -/
theorem storing_flatRam {s : State} (h : s.wires.isFlatRam) (o : Operand) (value : Regs → Byte) :
    storing o value s = .ok (crossing o s) (afterWrite (effectiveAddress o s)
      (value { s.regs with adl := effectiveAddress o s }) ((afterPointer o s).setADL (effectiveAddress o s))) := by
  unfold storing
  rw [resolve_flatRam h, Res.bind_ok, memWrite_flatRam (handled_resolve h o).flat, Res.bind_ok]
  simp

/-- A read-modify-write handler on memory, with flat RAM. -/
theorem modifying_flatRam {s : State} (h : s.wires.isFlatRam) {o : Operand} (ho : o ≠ .imp) (ha : o ≠ .acc)
    (result : Byte → Flags → Byte × Flags) :
    modifying o result s = .ok (crossing o s)
      ((afterWrite (effectiveAddress o s) (result (operandIn o s) s.regs.p).1 (afterOperand o s)).setP
        (result (operandIn o s) s.regs.p).2) := by
  have hh := handled_operand h o ho
  unfold modifying
  rw [resolve_flatRam h, Res.bind_ok, operand_resolved h ho, Res.bind_ok]
  have hw : ∀ v, writeBack o v (afterOperand o s) = memWrite (effectiveAddress o s) v (afterOperand o s) := by
    intro v
    cases o <;> first
      | exact absurd rfl ho
      | exact absurd rfl ha
      | (simp [writeBack, hh.regs])
  simp only [hw, hh.regs, memWrite_flatRam hh.flat, Res.bind_ok]

/-- A read-modify-write handler on the accumulator, under any wiring. -/
theorem modifying_acc (result : Byte → Flags → Byte × Flags) (s : State) :
    modifying .acc result s = .ok false
      (s.setRegs { s.regs with a := (result s.regs.a s.regs.p).1, p := (result s.regs.a s.regs.p).2 }) := rfl

/-- An instruction whose handler reads its operand and sets the registers to `f operand registers`. -/
theorem completesWith_reading {i : Instr} {o : Operand} {s : State} {effect : Byte → State → State}
    {f : Byte → Regs → Regs} (hexec : exec i s = finish i (reading o effect s))
    (heffect : ∀ m u, effect m u = u.setRegs (f m u.regs)) (h : s.wires.isFlatRam) (ho : o ≠ .imp) :
    CompletesWith i s (registerEffect i s (f (operandIn o s) { s.regs with adl := effectiveAddress o s })
      (pointerReads o s ++ operandReads o s) (crossing o s)) := by
  have hh := handled_operand h o ho
  refine completesWith_of_handled (hexec.trans (by rw [reading_flatRam h ho])) ?_ rfl
  rw [heffect, hh.regs]
  exact hh.setRegs _

/-- An instruction whose handler stores a byte. -/
theorem completesWith_storing {i : Instr} {o : Operand} {s : State} {value : Regs → Byte}
    (hexec : exec i s = finish i (storing o value s)) (h : s.ready)
    (hvalue : value { s.regs with adl := effectiveAddress o s } = value s.regs) :
    CompletesWith i s
      { regs := { s.regs with adl := effectiveAddress o s }, memory := stored s (effectiveAddress o s) (value s.regs),
        pending := s.pending, bus := pointerReads o s ++ [⟨true, effectiveAddress o s, value s.regs⟩],
        cost := i.cost (crossing o s) } := by
  refine completesWith_of_handled (hexec.trans (by rw [storing_flatRam h.1])) ?_ rfl
  rw [hvalue]
  exact (handled_resolve h.1 o).afterWrite (by simpa using h.2) _ _

/-- An instruction whose handler reads, changes and writes the byte at the effective address. -/
theorem completesWith_modifying {i : Instr} {o : Operand} {s : State} {result : Byte → Flags → Byte × Flags}
    (hexec : exec i s = finish i (modifying o result s)) (h : s.ready) (ho : o ≠ .imp) (ha : o ≠ .acc) :
    CompletesWith i s
      { regs := { s.regs with adl := effectiveAddress o s, p := (result (operandIn o s) s.regs.p).2 },
        memory := stored s (effectiveAddress o s) (result (operandIn o s) s.regs.p).1, pending := s.pending,
        bus := pointerReads o s ++ operandReads o s ++
          [⟨true, effectiveAddress o s, (result (operandIn o s) s.regs.p).1⟩],
        cost := i.cost (crossing o s) } := by
  have hh := handled_operand h.1 o ho
  have hm : (afterOperand o s).mem.wf = true := by
    cases o <;> simpa [afterOperand] using h.2
  refine completesWith_of_handled (hexec.trans (by rw [modifying_flatRam h.1 ho ha])) ?_ rfl
  simp only [State.setP, afterWrite_regs, hh.regs]
  exact (hh.afterWrite hm (effectiveAddress o s) (result (operandIn o s) s.regs.p).1).setRegs
    { s.regs with adl := effectiveAddress o s, p := (result (operandIn o s) s.regs.p).2 }

/-- An instruction in implied mode whose handler sets the registers to `f registers`. -/
theorem completesWith_implied {i : Instr} {s : State} {effect : State → State} {f : Regs → Regs}
    (hexec : exec i s = finish i (implied effect s)) (heffect : ∀ u, effect u = u.setRegs (f u.regs))
    (h : s.wires.isFlatRam) : CompletesWith i s (registerEffect i s (f s.regs) [] false) :=
  completesWith_of_handled hexec (by rw [heffect]; exact (handled_refl h).setRegs _) rfl

/-- A well-formed instruction's operand is in one of the modes of its mnemonic. -/
theorem mode_mem_of_wellFormed {i : Instr} {m : Mnemonic} (hm : i.mnemonic = some m) (h : i.wellFormed = true) :
    i.operand.mode ∈ m.modes := by
  cases i <;> first
    | (simp only [Instr.mnemonic, Option.some.injEq, reduceCtorEq] at hm; subst hm
       simpa [Instr.wellFormed, Instr.mnemonic] using h)
    | simp [Instr.mnemonic] at hm

/-- A mnemonic without an implied mode has no implied operand in a well-formed instruction. -/
theorem operand_ne_imp {i : Instr} {m : Mnemonic} (hm : i.mnemonic = some m) (h : i.wellFormed = true)
    (hi : Mode.imp ∉ m.modes) : i.operand ≠ .imp := by
  intro he
  have := mode_mem_of_wellFormed hm h
  rw [he] at this
  exact hi this

end Sys2Proof.Machine
end

