-- ==== Sys2Proof/Laws/Decode.lean ====
section
/-! SUPPORT. Facts of the descriptor table that other proofs cite: each is a check of the sixteen rows of the map. -/

namespace Sys2Proof

/-- What holds of every slot of the sixteen rows holds of every slot of the table. -/
theorem forall_table {P : Descriptor → Prop} (h0 : ∀ d ∈ tableRow0, P d) (h1 : ∀ d ∈ tableRow1, P d)
    (h2 : ∀ d ∈ tableRow2, P d) (h3 : ∀ d ∈ tableRow3, P d) (h4 : ∀ d ∈ tableRow4, P d) (h5 : ∀ d ∈ tableRow5, P d)
    (h6 : ∀ d ∈ tableRow6, P d) (h7 : ∀ d ∈ tableRow7, P d) (h8 : ∀ d ∈ tableRow8, P d) (h9 : ∀ d ∈ tableRow9, P d)
    (hA : ∀ d ∈ tableRowA, P d) (hB : ∀ d ∈ tableRowB, P d) (hC : ∀ d ∈ tableRowC, P d) (hD : ∀ d ∈ tableRowD, P d)
    (hE : ∀ d ∈ tableRowE, P d) (hF : ∀ d ∈ tableRowF, P d) : ∀ d ∈ table, P d := by
  simp only [table, List.forall_mem_append, and_assoc]
  exact ⟨h0, h1, h2, h3, h4, h5, h6, h7, h8, h9, hA, hB, hC, hD, hE, hF⟩

/-- The length field is the length R100 gives the mode. -/
theorem table_length : ∀ d ∈ table, d.length = 1 + d.mode.operandBytes := by
  apply forall_table <;> decide

/-- No slot costs more than 7 cycles, page crossing included (R290). -/
theorem table_cost : ∀ d ∈ table, d.baseCycles + (if d.pageCross then 1 else 0) ≤ 7 := by
  apply forall_table <;> decide

/-- Every slot's mode is one its mnemonic has. -/
theorem table_modes : ∀ d ∈ table, d.mnemonic.modes.contains d.mode = true := by
  apply forall_table <;> decide

/-- MAXCOST = 7 (R290). -/
theorem Instr.cost_le (i : Instr) (crossed : Bool) : i.cost crossed ≤ 7 := by
  unfold Instr.cost
  split
  · rename_i d h
    obtain ⟨m, -, hm⟩ : ∃ m, i.mnemonic = some m ∧ descriptorOf m i.operand.mode = some d := by
      simpa [Instr.descriptor, Option.bind_eq_some_iff] using h
    have := table_cost d (List.mem_of_find?_eq_some hm)
    revert this
    cases crossed <;> cases d.pageCross <;> simp
    omega
  · exact Nat.zero_le 7

theorem Mode.assemble_mode (m : Mode) (byte1 byte2 : Byte) : (m.assemble byte1 byte2).mode = m := by cases m <;> rfl

theorem Descriptor.instr_mnemonic (d : Descriptor) (byte1 byte2 : Byte) :
    (d.instr byte1 byte2).mnemonic = some d.mnemonic := by
  obtain ⟨_, m, _, _, _, _⟩ := d
  cases m <;> rfl

/-- Of a mnemonic's modes, the one an instruction's operand is in does not depend on its operand bytes. -/
theorem Mnemonic.instr_operand_mode (m : Mnemonic) (mode : Mode) (byte1 byte2 : Byte) (h : mode ∈ m.modes) :
    (m.instr (mode.assemble byte1 byte2)).operand.mode = mode := by
  cases m <;> (revert h; cases mode <;> first | (intro _; rfl) | (intro h; simp [Mnemonic.modes] at h))

theorem table_instr_mode {d : Descriptor} (hd : d ∈ table) (byte1 byte2 : Byte) :
    (d.instr byte1 byte2).operand.mode = d.mode :=
  Mnemonic.instr_operand_mode d.mnemonic d.mode byte1 byte2 (by simpa using table_modes d hd)

/-- A pair of a mnemonic and a mode stands in one slot. -/
theorem table_descriptorOf : ∀ d ∈ table, descriptorOf d.mnemonic d.mode = some d := by
  apply forall_table <;> decide

/-- The descriptor of the instruction of a slot is that slot's. -/
theorem table_instr_descriptor {d : Descriptor} (hd : d ∈ table) (byte1 byte2 : Byte) :
    (d.instr byte1 byte2).descriptor = some d := by
  simp [Instr.descriptor, Descriptor.instr_mnemonic, table_instr_mode hd, table_descriptorOf d hd]

/-- Each opcode byte has one slot. -/
theorem table_opcode : ∀ d ∈ table, Sys2Proof.descriptor d.opcode = some d := by
  apply forall_table <;> decide

/-- Every mode of every mnemonic has a slot. -/
theorem modes_descriptorOf (m : Mnemonic) : ∀ mode ∈ m.modes, (descriptorOf m mode).isSome = true := by
  cases m <;> decide

theorem descriptorOf_eq_some {m : Mnemonic} {mode : Mode} {d : Descriptor} (h : descriptorOf m mode = some d) :
    d ∈ table ∧ d.mnemonic = m ∧ d.mode = mode :=
  ⟨List.mem_of_find?_eq_some h, by simpa using List.find?_some h⟩

theorem descriptor_eq_some {opcode : Byte} {d : Descriptor} (h : Sys2Proof.descriptor opcode = some d) :
    d ∈ table ∧ d.opcode = opcode :=
  ⟨List.mem_of_find?_eq_some h, by simpa using List.find?_some h⟩

theorem descriptor_unimplemented : ∀ opcode ∈ unimplementedOpcodes, Sys2Proof.descriptor opcode = none := by
  set_option maxRecDepth 20000 in decide

theorem unimplemented_of_descriptor : ∀ opcode, Sys2Proof.descriptor opcode = none → opcode ∈ unimplementedOpcodes := by
  set_option maxRecDepth 20000 in decide

/-- The operand bytes of the instruction of a slot are the bytes it was made of. -/
theorem Mnemonic.instr_operand_bytes (m : Mnemonic) (mode : Mode) (byte1 byte2 : Byte) (h : mode ∈ m.modes) :
    (m.instr (mode.assemble byte1 byte2)).operand.bytes =
      match mode.operandBytes with
      | 0 => []
      | 1 => [byte1]
      | _ => [byte1, byte2] := by
  cases m <;> (revert h; cases mode <;> first
    | (intro _; rfl)
    | (intro h; simp [Mnemonic.modes] at h; done)
    | (intro _
       simp [Mnemonic.instr, Mode.assemble, Instr.operand, Operand.bytes, Operand.wordField, Mode.operandBytes]))

theorem encode_of_descriptor {i : Instr} {m : Mnemonic} (hm : i.mnemonic = some m) {d : Descriptor}
    (hd : i.descriptor = some d) : encode i = some (d.opcode :: i.operand.bytes) := by
  cases i <;> simp_all [encode, Instr.mnemonic]

end Sys2Proof
end

