-- ==== Sys2Proof/Laws/Dispatch.lean ====
section
/-! SUPPORT. How deep a dispatch nests: its course is decided by finitely many things, so the bound of `setState` stops
no dispatch that completes (R63), where memory is canonical. -/

namespace Sys2Proof.Machine

/-! ### What decides the course of a dispatch -/

/-- The two states agree on all that decides the course of a dispatch: the buses, the lines and their levels, the
listeners, every byte of memory, and the environment's state. Both memories are canonical. -/
structure SameCourse (s t : State) : Prop where
  addr : t.wires.addr = s.wires.addr
  data : t.wires.data = s.wires.data
  byte : ∀ a : Word, t.mem.get a.toNat = s.mem.get a.toNat
  env : t.env = s.env
  wf : s.mem.wf = true ∧ t.mem.wf = true
  level : ∀ n, (t.wires.line n).level = (s.wires.line n).level
  listeners : t.wires.sameListeners s.wires
  count : t.wires.count = s.wires.count

/-- Only the requests, and what no listener reads, differ. -/
theorem SameCourse.of_eq {s t u v : State} (h : SameCourse s t) (hs : u.wires = s.wires) (ht : v.wires = t.wires)
    (ms : u.mem = s.mem) (mt : v.mem = t.mem) (es : u.env = s.env) (et : v.env = t.env) : SameCourse u v := by
  constructor <;> simp only [hs, ht, ms, mt, es, et]
  · exact h.addr
  · exact h.data
  · exact h.byte
  · exact h.env
  · exact h.wf
  · exact h.level
  · exact h.listeners
  · exact h.count

theorem SameCourse.setEnv {s t : State} (h : SameCourse s t) (e : Config.Env) :
    SameCourse (s.setEnv e) (t.setEnv e) := { h with env := rfl }

theorem SameCourse.writeAddrBus {s t : State} (h : SameCourse s t) (v : Nat) :
    SameCourse (s.writeAddrBus v) (t.writeAddrBus v) :=
  { h with
    addr := rfl
    level := fun n => by have := h.level n; cases n <;> exact this
    listeners := fun n b => by have := h.listeners n b; cases n <;> exact this }

theorem SameCourse.writeDataBus {s t : State} (h : SameCourse s t) (v : Nat) :
    SameCourse (s.writeDataBus v) (t.writeDataBus v) :=
  { h with
    data := rfl
    level := fun n => by have := h.level n; cases n <;> exact this
    listeners := fun n b => by have := h.listeners n b; cases n <;> exact this }

theorem SameCourse.store {s t : State} (h : SameCourse s t) (a : Word) (v : Byte) :
    SameCourse (s.setMem (s.mem.set a.toNat v)) (t.setMem (t.mem.set a.toNat v)) :=
  { h with
    byte := fun b => by
      simp only [State.setMem_mem, Memory.get_set h.wf.1, Memory.get_set h.wf.2, h.byte]
    wf := ⟨Memory.wf_set a.isLt v h.wf.1, Memory.wf_set a.isLt v h.wf.2⟩ }

theorem SameCourse.setLevel {s t : State} (h : SameCourse s t) (n : LineName) (b : Bool) :
    SameCourse (s.setLevel n b) (t.setLevel n b) :=
  { h with
    addr := by simpa using h.addr
    data := by simpa using h.data
    level := fun m => by
      simp only [State.setLevel_wires, Wires.line_setLine, Wires.made_congr h.count n]
      split
      · rfl
      · exact h.level m
    listeners := Wires.sameListeners_trans (Wires.sameListeners_setLevel _ _ _) (Wires.sameListeners_trans h.listeners
      fun m c => (Wires.sameListeners_setLevel s.wires n b m c).symm)
    count := by simpa using h.count }

theorem SameCourse.value {s t : State} (h : SameCourse s t) (e : Reading) : e.value t = e.value s := by
  induction e <;> simp only [Reading.value, h.addr, h.data, h.level, h.byte, *]

theorem SameCourse.ramReact {s t : State} (h : SameCourse s t) : SameCourse (ramReact s) (ramReact t) := by
  unfold Machine.ramReact
  have hl : t.wires.rw.level = s.wires.rw.level := h.level .rw
  simp only [hl, h.addr, h.data, h.byte]
  split
  · exact h.writeDataBus _
  · exact h.store _ _

theorem SameCourse.responderReact {s t : State} (h : SameCourse s t) :
    SameCourse (responderReact s) (responderReact t) := by
  unfold Machine.responderReact
  have hl : t.wires.rw.level = s.wires.rw.level := h.level .rw
  simp only [hl, h.addr, h.data, h.env]
  split
  · exact ((h.writeDataBus _).setEnv _).of_eq rfl rfl rfl rfl rfl rfl
  · exact (h.setEnv _).of_eq rfl rfl rfl rfl rfl rfl

/-- Two answers of one course. -/
def Res.sameCourse : Res Unit → Res Unit → Prop
  | .ok _ s, .ok _ t => SameCourse s t
  | .fatal s, .fatal t => SameCourse s t
  | .fault r, .fault q => r = q
  | .refused r, .refused q => r = q
  | _, _ => False

theorem Res.sameCourse_bind {r q : Res Unit} (h : r.sameCourse q) {f : Unit → State → Res Unit}
    (hf : ∀ s t, SameCourse s t → (f () s).sameCourse (f () t)) : (r.bind f).sameCourse (q.bind f) := by
  cases r <;> cases q <;> first | exact h.elim | exact hf _ _ h | exact h

theorem react_sameCourse {set : LineName → Bool → State → Res Unit}
    (hset : ∀ n b s t, SameCourse s t → (set n b s).sameCourse (set n b t)) (r : Reaction) {s t : State}
    (h : SameCourse s t) : (react set r s).sameCourse (react set r t) := by
  induction r generalizing s t with
  | ram => exact h.ramReact
  | responder => exact h.responderReact
  | setLine n b => exact hset n b s t h
  | writeAddr v => simp only [react, h.value]; exact h.writeAddrBus _
  | writeData v => simp only [react, h.value]; exact h.writeDataBus _
  | request k => cases k <;> exact h.of_eq rfl rfl rfl rfl rfl rfl
  | register _ _ _ _ => exact rfl
  | store a v => simp only [react, h.value]; exact h.store _ _
  | nothing => exact h
  | both r q ihr ihq => exact Res.sameCourse_bind (ihr h) fun _ _ k => ihq k
  | branch on first last r q ihr ihq =>
    simp only [react, h.value]
    split
    · exact ihr h
    · exact ihq h

theorem dispatch_sameCourse {set : LineName → Bool → State → Res Unit}
    (hset : ∀ n b s t, SameCourse s t → (set n b s).sameCourse (set n b t)) (rs : List Reaction) :
    ∀ {s t : State}, SameCourse s t → (dispatch set rs s).sameCourse (dispatch set rs t) := by
  induction rs with
  | nil => exact fun h => h
  | cons r rs ih => exact fun h => Res.sameCourse_bind (react_sameCourse hset r h) fun _ _ k => ih k

theorem setStateWithin_sameCourse (depth : Nat) : ∀ n b s t, SameCourse s t →
    (setStateWithin depth n b s).sameCourse (setStateWithin depth n b t) := by
  induction depth with
  | zero => exact fun _ _ _ _ _ => rfl
  | succ d ih =>
    intro n b s t h
    unfold setStateWithin
    rw [h.listeners n b]
    exact dispatch_sameCourse ih _ (h.setLevel n b)

/-! ### Deeper bounds -/

/-- The dispatch completes, or is refused, without nesting deeper than `depth`. -/
def EndsWithin (depth : Nat) (n : LineName) (b : Bool) (s : State) : Prop :=
  setStateWithin depth n b s ≠ .fault .dispatchUnbounded

theorem endsWithin_congr {s t : State} (h : SameCourse s t) (depth : Nat) (n : LineName) (b : Bool)
    (hs : EndsWithin depth n b s) : EndsWithin depth n b t := by
  intro ht
  have := setStateWithin_sameCourse depth n b s t h
  rw [ht] at this
  unfold EndsWithin at hs
  revert this hs
  cases setStateWithin depth n b s <;> simp [Res.sameCourse]

theorem react_mono {f g : LineName → Bool → State → Res Unit}
    (hfg : ∀ n b s, f n b s ≠ .fault .dispatchUnbounded → g n b s = f n b s) (r : Reaction) (s : State)
    (h : react f r s ≠ .fault .dispatchUnbounded) : react g r s = react f r s := by
  induction r generalizing s with
  | setLine n b => exact hfg n b s h
  | both r q ihr ihq =>
    unfold react at h ⊢
    rw [ihr s fun hr => h (by rw [hr]; rfl)]
    exact Res.bind_congr _ fun _ t ht => ihq t fun hq => h (by rw [ht]; exact hq)
  | branch on first last r q ihr ihq =>
    unfold react at h ⊢
    split
    · rename_i hc
      rw [if_pos hc] at h
      exact ihr s h
    · rename_i hc
      rw [if_neg hc] at h
      exact ihq s h
  | _ => rfl

theorem dispatch_mono {f g : LineName → Bool → State → Res Unit}
    (hfg : ∀ n b s, f n b s ≠ .fault .dispatchUnbounded → g n b s = f n b s) (rs : List Reaction) :
    ∀ s, dispatch f rs s ≠ .fault .dispatchUnbounded → dispatch g rs s = dispatch f rs s := by
  induction rs with
  | nil => exact fun _ _ => rfl
  | cons r rs ih =>
    intro s h
    unfold dispatch at h ⊢
    rw [react_mono hfg r s fun hr => h (by rw [hr]; rfl)]
    exact Res.bind_congr _ fun _ t ht => ih t fun hq => h (by rw [ht]; exact hq)

/-- A dispatch that ends within a bound ends alike within every larger one. -/
theorem setStateWithin_succ (depth : Nat) : ∀ n b s, EndsWithin depth n b s →
    setStateWithin (depth + 1) n b s = setStateWithin depth n b s := by
  induction depth with
  | zero => exact fun _ _ _ h => absurd rfl h
  | succ d ih => exact fun n b s h => dispatch_mono ih _ _ h

theorem setStateWithin_of_le {d e : Nat} (h : d ≤ e) {n : LineName} {b : Bool} {s : State} (hd : EndsWithin d n b s) :
    setStateWithin e n b s = setStateWithin d n b s := by
  induction e, h using Nat.le_induction with
  | base => rfl
  | succ e _ ih => rw [setStateWithin_succ e n b s (by unfold EndsWithin; rwa [ih]), ih]

/-! ### The bound -/

/-- The state has the listeners and the lines of `s₀`, and its memory is canonical. -/
structure Fits (s₀ s : State) : Prop where
  listeners : s.wires.sameListeners s₀.wires
  count : s.wires.count = s₀.wires.count
  wf : s.mem.wf = true

theorem Untouched.fits {s₀ s t : State} (h : Untouched s t) (k : Fits s₀ s) : Fits s₀ t :=
  ⟨Wires.sameListeners_trans h.listeners k.listeners, h.count.trans k.count, h.wf k.wf⟩

theorem react_congr {f g : LineName → Bool → State → Res Unit} {s₀ : State}
    (hf : ∀ n b s, (f n b s).post (fun _ t => Untouched s t) NoFatal)
    (hfg : ∀ n b s, Fits s₀ s → f n b s = g n b s) (r : Reaction) (s : State) (hs : Fits s₀ s) :
    react f r s = react g r s := by
  induction r generalizing s with
  | setLine n b => exact hfg n b s hs
  | both r q ihr ihq =>
    unfold react
    rw [← ihr s hs]
    exact Res.bind_congr _ fun _ t ht => ihq t (Untouched.fits (by have := react_untouched hf r s; rwa [ht] at this) hs)
  | branch on first last r q ihr ihq => simp only [react, ihr s hs, ihq s hs]
  | _ => rfl

theorem dispatch_congr {f g : LineName → Bool → State → Res Unit} {s₀ : State}
    (hf : ∀ n b s, (f n b s).post (fun _ t => Untouched s t) NoFatal)
    (hfg : ∀ n b s, Fits s₀ s → f n b s = g n b s) (rs : List Reaction) :
    ∀ s, Fits s₀ s → dispatch f rs s = dispatch g rs s := by
  induction rs with
  | nil => exact fun _ _ => rfl
  | cons r rs ih =>
    intro s hs
    unfold dispatch
    rw [← react_congr hf hfg r s hs]
    exact Res.bind_congr _ fun _ t ht => ih t (Untouched.fits (by have := react_untouched hf r s; rwa [ht] at this) hs)

/-- The number of a line. -/
def LineName.number : LineName → Nat
  | .rw => 0
  | .clock => 1
  | .nmi => 2
  | .irq => 3
  | .reset => 4
  | .device k => k + 5

/-- The line of a number. -/
def LineName.numbered : Nat → LineName
  | 0 => .rw
  | 1 => .clock
  | 2 => .nmi
  | 3 => .irq
  | 4 => .reset
  | k + 5 => .device k

@[simp] theorem LineName.numbered_number (n : LineName) : LineName.numbered n.number = n := by cases n <;> rfl

theorem LineName.number_inj {n m : LineName} (h : n.number = m.number) : n = m := by
  rw [← n.numbered_number, h, m.numbered_number]

theorem Wires.made_iff {w : Wires} {n : LineName} : w.made n = true ↔ n.number < w.count := by
  cases n <;> simp [Wires.made, Wires.count, LineName.number]

/-- What decides the course of a call of `setState`, where there are `c` lines: the line and the level, the buses, the
levels, memory and the environment's state. -/
abbrev Course (c : Nat) : Type :=
  ((Fin c × Bool) × (Word × (Byte × (Fin c → Bool)))) × ((Word → Byte) × Config.Env)

/-- The course of a call on a line of that number. -/
structure Course.Of {c : Nat} (q : Course c) (n : LineName) (b : Bool) (s : State) : Prop where
  line : q.1.1.1.val = n.number
  level : q.1.1.2 = b
  addr : q.1.2.1 = s.wires.addr.value
  data : q.1.2.2.1 = s.wires.data.value
  levels : ∀ m : LineName, ∀ h : m.number < c, q.1.2.2.2 ⟨m.number, h⟩ = (s.wires.line m).level
  byte : ∀ a, q.2.1 a = s.mem.get a.toNat
  env : q.2.2 = s.env

theorem Course.exists_of {c : Nat} {n : LineName} (hn : n.number < c) (b : Bool) (s : State) :
    ∃ q : Course c, q.Of n b s :=
  ⟨(((⟨n.number, hn⟩, b), (s.wires.addr.value, (s.wires.data.value,
      fun k => (s.wires.line (.numbered k.val)).level))), (fun a => s.mem.get a.toNat, s.env)),
    rfl, rfl, rfl, rfl, fun m _ => by simp, fun _ => rfl, rfl⟩

theorem Bus.ext_value {w : Nat} {a b : Bus w} (h : a.value = b.value) : a = b := by
  cases a; cases b; exact congrArg _ h

/-- Calls of one course in states with the same listeners are on the same line and level, and take the same course. -/
theorem Course.same {s₀ : State} {q : Course s₀.wires.count} {n m : LineName} {b d : Bool} {s t : State}
    (hs : Fits s₀ s) (ht : Fits s₀ t) (h : q.Of n b s) (k : q.Of m d t) : n = m ∧ b = d ∧ SameCourse s t := by
  refine ⟨LineName.number_inj (h.line.symm.trans k.line), h.level.symm.trans k.level, ?_⟩
  refine { addr := Bus.ext_value (k.addr.symm.trans h.addr), data := Bus.ext_value (k.data.symm.trans h.data),
           byte := fun a => (k.byte a).symm.trans (h.byte a), env := k.env.symm.trans h.env, wf := ⟨hs.wf, ht.wf⟩,
           level := fun l => ?_, listeners := ?_, count := ht.count.trans hs.count.symm }
  · by_cases hl : l.number < s₀.wires.count
    · exact (k.levels l hl).symm.trans (h.levels l hl)
    · have hm : s₀.wires.made l = false := by rw [← Bool.not_eq_true, Wires.made_iff]; exact hl
      rw [Wires.line_of_not_made ((Wires.made_congr ht.count l).trans hm),
        Wires.line_of_not_made ((Wires.made_congr hs.count l).trans hm)]
  · exact Wires.sameListeners_trans ht.listeners fun l c => (hs.listeners l c).symm

theorem card_bitVec (w : Nat) : Fintype.card (BitVec w) = 2 ^ w := by
  rw [Fintype.card_congr ⟨BitVec.toFin, BitVec.ofFin, fun _ => rfl, fun _ => rfl⟩, Fintype.card_fin]

theorem card_bitVec_fun (v w : Nat) : Fintype.card (BitVec v → BitVec w) = (2 ^ w) ^ 2 ^ v := by
  rw [Fintype.card_fun, card_bitVec, card_bitVec]

theorem card_memory : Fintype.card (Word → Byte) = Memory.contents := by
  unfold Memory.contents
  exact card_bitVec_fun 16 8

theorem card_course (c : Nat) : Fintype.card (Course c) = courses c := by
  have hm := card_memory
  have hw := card_bitVec 16
  have hb := card_bitVec 8
  have hl : Fintype.card (Fin c → Bool) = 2 ^ c := by rw [Fintype.card_fun, Fintype.card_bool, Fintype.card_fin]
  unfold Course courses
  rw [Fintype.card_prod, Fintype.card_prod, Fintype.card_prod, Fintype.card_prod, Fintype.card_prod, Fintype.card_prod,
    hl, hw, hb, hm, Fintype.card_fin, Fintype.card_bool, Fintype.card_fin]
  generalize Memory.contents = m
  ring

/-- A rising chain of subsets of a finite type repeats itself by the size of the type. -/
theorem exists_chain_repeat {α : Type} [Fintype α] (T : Nat → Finset α) (h : ∀ d, T d ⊆ T (d + 1)) :
    ∃ d ≤ Fintype.card α, T (d + 1) = T d := by
  by_contra hc
  push Not at hc
  have grows : ∀ d, d ≤ Fintype.card α + 1 → d ≤ (T d).card := by
    intro d
    induction d with
    | zero => exact fun _ => Nat.zero_le _
    | succ d ih =>
      intro hd
      have := Finset.card_lt_card ((h d).ssubset_of_ne (hc d (by omega)).symm)
      have := ih (by omega)
      omega
  have := grows _ le_rfl
  have := (T (Fintype.card α + 1)).card_le_univ
  omega

/-- At some bound within `courses`, a larger one changes nothing. -/
theorem exists_saturated (s₀ : State) : ∃ d ≤ courses s₀.wires.count, ∀ n b s, Fits s₀ s →
    setStateWithin (d + 2) n b s = setStateWithin (d + 1) n b s := by
  classical
  let T : Nat → Finset (Course s₀.wires.count) := fun d =>
    Finset.univ.filter fun q => ∃ n b s, Fits s₀ s ∧ q.Of n b s ∧ EndsWithin (d + 1) n b s
  have hT : ∀ d, T d ⊆ T (d + 1) := by
    intro d q hq
    simp only [T, Finset.mem_filter, Finset.mem_univ, true_and] at hq ⊢
    obtain ⟨n, b, s, hs, ho, he⟩ := hq
    exact ⟨n, b, s, hs, ho, by unfold EndsWithin; rw [setStateWithin_succ _ n b s he]; exact he⟩
  obtain ⟨d, hd, heq⟩ := exists_chain_repeat T hT
  refine ⟨d, card_course s₀.wires.count ▸ hd, fun n b s hs => ?_⟩
  by_cases h1 : EndsWithin (d + 1) n b s
  · exact setStateWithin_succ _ n b s h1
  · by_cases h2 : EndsWithin (d + 2) n b s
    · exfalso
      by_cases hn : n.number < s₀.wires.count
      · obtain ⟨q, hq⟩ := Course.exists_of hn b s
        have : q ∈ T (d + 1) := by
          simp only [T, Finset.mem_filter, Finset.mem_univ, true_and]
          exact ⟨n, b, s, hs, hq, h2⟩
        rw [heq] at this
        simp only [T, Finset.mem_filter, Finset.mem_univ, true_and] at this
        obtain ⟨m, e, t, ht, ho, he⟩ := this
        obtain ⟨rfl, rfl, hc⟩ := Course.same ht hs ho hq
        exact h1 (endsWithin_congr hc _ _ _ he)
      · have hm : s.wires.made n = false := by
          rw [← Bool.not_eq_true, Wires.made_iff, hs.count]; exact hn
        apply h1
        unfold EndsWithin setStateWithin
        rw [Wires.line_of_not_made hm]
        cases b <;> exact fun h => by cases h
    · unfold EndsWithin at h1 h2
      rw [not_not] at h1 h2
      rw [h1, h2]

/-- Beyond `courses`, the bound changes nothing: what it stops never completes. -/
theorem setStateWithin_saturated {s₀ : State} {k : Nat} (hk : courses s₀.wires.count + 1 ≤ k) : ∀ n b s, Fits s₀ s →
    setStateWithin k n b s = setStateWithin (courses s₀.wires.count + 1) n b s := by
  obtain ⟨d, hd, h⟩ := exists_saturated s₀
  have all : ∀ j n b s, Fits s₀ s → setStateWithin (d + 1 + j) n b s = setStateWithin (d + 1) n b s := by
    intro j
    induction j with
    | zero => exact fun _ _ _ _ => rfl
    | succ j ih =>
      intro n b s hs
      rw [← h n b s hs]
      exact dispatch_congr (setStateWithin_untouched _) ih _ _ ((untouched_setLevel s n b).fits hs)
  intro n b s hs
  obtain ⟨i, hi⟩ := Nat.exists_eq_add_of_le (show d + 1 ≤ k by omega)
  obtain ⟨j, hj⟩ := Nat.exists_eq_add_of_le (show d + 1 ≤ courses s₀.wires.count + 1 by omega)
  rw [hi, hj, all i n b s hs, all j n b s hs]

/-- Within any bound beyond `courses`, `setState` is what it is. -/
theorem setState_eq_within {s₀ s : State} (hs : Fits s₀ s) {k : Nat} (hk : courses s₀.wires.count + 1 ≤ k) (n : LineName)
    (b : Bool) : setState n b s = setStateWithin k n b s := by
  rw [setStateWithin_saturated hk n b s hs, setState, hs.count]
  exact setStateWithin_saturated (by omega) n b s hs

end Sys2Proof.Machine
end

