-- ==== Sys2Proof/Laws/Entry.lean ====
section
/-! SUPPORT. What taking an interrupt, returning from one and `powerUp` do with flat RAM, and what `powerUp` and every
shared operation on the stack may change under any wiring. -/

namespace Sys2Proof.Machine

/-- The pending requests after one is cleared. -/
def Pending.without (k : Interrupt) (p : Pending) : Pending :=
  match k with
  | .nmi => { p with nmi := false }
  | .irq => { p with irq := false }

/-- A request served after what has been handled. -/
theorem Handled.clearRequest {s u : State} {r : Regs} {m : Nat → Byte} {p : Pending} {b : List Transaction}
    (h : Handled s u r m p b) (k : Interrupt) : Handled s (u.clearRequest k) r m (p.without k) b := by
  have := h.pending
  cases k <;> subst this <;>
    exact ⟨h.flat, h.regs, h.memory, rfl, h.cyc, h.budget, h.env, h.sched, h.run, h.rewired⟩

theorem stackAddress_ne_vector (b : Byte) :
    stackAddress b ≠ 0xFFFA ∧ stackAddress b ≠ 0xFFFB ∧ stackAddress b ≠ 0xFFFE ∧ stackAddress b ≠ 0xFFFF := by
  revert b; decide

/-- What an entry leaves in memory: the return address and the status byte. -/
def entryStored (ret : Word) (status : Byte) (s : State) : Nat → Byte := fun n =>
  if n = (stackAddress (s.regs.sp - 2)).toNat then status
  else if n = (stackAddress (s.regs.sp - 1)).toNat then lo8 ret
  else stored s (stackAddress s.regs.sp) (hi8 ret) n

theorem entryStored_vector (ret : Word) (status : Byte) (s : State) {v : Word}
    (h : v = 0xFFFA ∨ v = 0xFFFB ∨ v = 0xFFFE ∨ v = 0xFFFF) :
    entryStored ret status s v.toNat = s.mem.get v.toNat := by
  have key : ∀ b, v.toNat ≠ (stackAddress b).toNat := fun b e => by
    have := stackAddress_ne_vector b
    rw [← BitVec.eq_of_toNat_eq e] at this
    rcases h with rfl | rfl | rfl | rfl <;> simp at this
  simp [entryStored, stored, key]

/-- The state after an entry has saved PC and the status byte. -/
def entrySaved (ret : Word) (status : Byte) (s : State) : State :=
  (afterWrite (stackAddress (s.regs.sp - 2)) status
    ((afterWrite (stackAddress (s.regs.sp - 1)) (lo8 ret)
      ((afterWrite (stackAddress s.regs.sp) (hi8 ret) (s.setPC ret)).setSP (s.regs.sp - 1))).setSP
        (s.regs.sp - 2))).setSP (s.regs.sp - 3)

theorem handled_entrySaved {s : State} (hs : s.ready) (ret : Word) (status : Byte) :
    Handled s (entrySaved ret status s) { s.regs with pc := ret, sp := s.regs.sp - 3 } (entryStored ret status s)
      s.pending
      [⟨true, stackAddress s.regs.sp, hi8 ret⟩, ⟨true, stackAddress (s.regs.sp - 1), lo8 ret⟩,
        ⟨true, stackAddress (s.regs.sp - 2), status⟩] := by
  obtain ⟨hf, hwf⟩ := hs
  have w1 := Memory.wf_set (stackAddress s.regs.sp).isLt (hi8 ret) hwf
  have w2 := Memory.wf_set (stackAddress (s.regs.sp - 1)).isLt (lo8 ret) w1
  have h1 := (((handled_refl hf).setRegs { s.regs with pc := ret }).afterWrite hwf (stackAddress s.regs.sp)
    (hi8 ret)).setRegs { s.regs with pc := ret, sp := s.regs.sp - 1 }
  have h2 := (h1.afterWrite w1 (stackAddress (s.regs.sp - 1)) (lo8 ret)).setRegs
    { s.regs with pc := ret, sp := s.regs.sp - 2 }
  exact (h2.afterWrite w2 (stackAddress (s.regs.sp - 2)) status).setRegs { s.regs with pc := ret, sp := s.regs.sp - 3 }

/-- Interrupt entry and software BRK with flat RAM (R242): everything it does. -/
theorem interruptEntry_flatRam {s : State} (hs : s.ready) (forced : Bool) {ret vec : Word}
    (hret : ret = if forced then s.regs.pc else s.regs.pc + 1) (hvec : vec = vectorOf (served s.pending)) :
    ∃ u, interruptEntry forced s = .ok () u ∧
      Handled s u
        { s.regs with
          sp := s.regs.sp - 3
          p := { s.regs.p with i := true }
          pc := word (s.byteAt (vec + 1)) (s.byteAt vec) }
        (entryStored ret (brkByte forced s.regs.p) s) (s.pending.without (served s.pending))
        [⟨true, stackAddress s.regs.sp, hi8 ret⟩, ⟨true, stackAddress (s.regs.sp - 1), lo8 ret⟩,
          ⟨true, stackAddress (s.regs.sp - 2), brkByte forced s.regs.p⟩, s.readOf vec, s.readOf (vec + 1)] := by
  have hv : (vec = 0xFFFA ∧ vec + 1 = 0xFFFB) ∨ (vec = 0xFFFE ∧ vec + 1 = 0xFFFF) := by
    subst hvec
    cases served s.pending
    · exact .inl ⟨rfl, rfl⟩
    · exact .inr ⟨rfl, rfl⟩
  have hsaved := handled_entrySaved hs ret (brkByte forced s.regs.p)
  have m1 : (entrySaved ret (brkByte forced s.regs.p) s).byteAt vec = s.byteAt vec :=
    (hsaved.memory _).trans (entryStored_vector _ _ _ (by rcases hv with h | h <;> rw [h.1] <;> simp))
  have m2 : (entrySaved ret (brkByte forced s.regs.p) s).byteAt (vec + 1) = s.byteAt (vec + 1) :=
    (hsaved.memory _).trans (entryStored_vector _ _ _ (by rcases hv with h | h <;> rw [h.2] <;> simp))
  have h := (((((hsaved.setRegs { s.regs with pc := ret, sp := s.regs.sp - 3, p := { s.regs.p with i := true } }).afterRead
    vec).afterRead (vec + 1)).setRegs
    { s.regs with
      sp := s.regs.sp - 3
      p := { s.regs.p with i := true }
      pc := word (s.byteAt (vec + 1)) (s.byteAt vec) }).clearRequest (served s.pending))
  rw [← hsaved.memory, ← hsaved.memory, show (entrySaved ret (brkByte forced s.regs.p) s).mem.get vec.toNat = _ from m1,
    show (entrySaved ret (brkByte forced s.regs.p) s).mem.get (vec + 1).toNat = _ from m2] at h
  refine ⟨_, ?_, h⟩
  have e0 : (if forced = true then s else s.setPC (s.regs.pc + 1)) = s.setPC ret := by
    subst hret; cases forced <;> rfl
  unfold interruptEntry
  simp only [e0]
  rw [pushWord_flatRam (by exact hs.1), Res.bind_ok, push_flatRam (by exact hs.1), Res.bind_ok]
  show ((readWord (vectorOf (served s.pending)) ((_ : State).setP { s.regs.p with i := true })).bind _) = _
  rw [← hvec, readWord, readPair_flatRam (by exact hs.1), Res.bind_ok]
  have e1 : ∀ v, State.byteAt (State.setP { s.regs.p with i := true } (State.setSP (s.regs.sp - 2 - 1)
      (afterWrite (stackAddress (s.regs.sp - 2)) (brkByte forced s.regs.p)
        ((afterWrite (stackAddress (s.regs.sp - 1)) (lo8 ret)
          ((afterWrite (stackAddress s.regs.sp) (hi8 ret) (s.setPC ret)).setSP (s.regs.sp - 1))).setSP
            (s.regs.sp - 2))))) v = (entrySaved ret (brkByte forced s.regs.p) s).byteAt v := fun _ => rfl
  have e2 := (e1 vec).trans m1
  have e3 := (e1 (vec + 1)).trans m2
  rw [byte_sub_two_sub_one] at e2 e3
  show Res.ok () _ = _
  simp only [State.setPC, State.setSP, State.setRegs_regs, afterWrite_regs, byte_sub_two_sub_one] at e2 e3 ⊢
  rw [e2, e3]
  rfl

/-- Return from interrupt with flat RAM (R243): everything it does. -/
theorem returnFromInterrupt_flatRam {s : State} (h : s.wires.isFlatRam) :
    ∃ u, returnFromInterrupt s = .ok () u ∧
      Handled s u
        { s.regs with
          sp := s.regs.sp + 3
          p := fromByte (s.byteAt (stackAddress (s.regs.sp + 1))) true s.regs.p
          pc := word (s.byteAt (stackAddress (s.regs.sp + 3))) (s.byteAt (stackAddress (s.regs.sp + 2))) }
        s.mem.get s.pending
        [s.readOf (stackAddress (s.regs.sp + 1)), s.readOf (stackAddress (s.regs.sp + 2)),
          s.readOf (stackAddress (s.regs.sp + 3))] := by
  have h1 := (((handled_refl h).setRegs { s.regs with sp := s.regs.sp + 1 }).afterRead
    (stackAddress (s.regs.sp + 1))).setRegs
    { s.regs with sp := s.regs.sp + 1, p := fromByte (s.byteAt (stackAddress (s.regs.sp + 1))) true s.regs.p }
  have h2 := ((((h1.setRegs { s.regs with
      sp := s.regs.sp + 2, p := fromByte (s.byteAt (stackAddress (s.regs.sp + 1))) true s.regs.p }).afterRead
      (stackAddress (s.regs.sp + 2))).setRegs { s.regs with
      sp := s.regs.sp + 3, p := fromByte (s.byteAt (stackAddress (s.regs.sp + 1))) true s.regs.p }).afterRead
      (stackAddress (s.regs.sp + 3))).setRegs { s.regs with
        sp := s.regs.sp + 3
        p := fromByte (s.byteAt (stackAddress (s.regs.sp + 1))) true s.regs.p
        pc := word (s.byteAt (stackAddress (s.regs.sp + 3))) (s.byteAt (stackAddress (s.regs.sp + 2))) }
  refine ⟨_, ?_, h2⟩
  unfold returnFromInterrupt
  rw [pull_flatRam h, Res.bind_ok]
  dsimp only
  rw [pullWord_flatRam (by exact h), Res.bind_ok]
  simp only [State.setP, State.setSP, State.setRegs_regs, afterRead_regs]
  rw [show s.regs.sp + 1 + 1 = s.regs.sp + 2 by bv_omega, show s.regs.sp + 1 + 2 = s.regs.sp + 3 by bv_omega]
  rfl

/-- `powerUp` with flat RAM (R300): everything it does. -/
theorem powerUp_flatRam (v : Config.ResetValues) {s : State} (h : s.wires.isFlatRam) :
    powerUp v s = .ok () ((afterRead 0xFFFD (afterRead 0xFFFC
      (((s.setRegs { s.regs with a := v.a, x := v.x, y := v.y, p := v.p, sp := 0xFD }).setPending
        { nmi := false, irq := false }).setRun s.run.poweredUp))).setPC (word (s.byteAt 0xFFFD) (s.byteAt 0xFFFC))) := by
  unfold powerUp readWord
  dsimp only
  rw [readPair_flatRam (by exact h), Res.bind_ok]
  rfl

/-- `powerUp` with any wiring: where it completes, it writes the registers, the requests, the run status and PC, and
otherwise does what its two reads do. It is never fatal. -/
theorem powerUp_untouched (v : Config.ResetValues) (s : State) :
    (powerUp v s).post
      (fun _ t => ∃ u target, Untouched
        (((s.setRegs { s.regs with a := v.a, x := v.x, y := v.y, p := v.p, sp := 0xFD }).setPending
          { nmi := false, irq := false }).setRun s.run.poweredUp) u ∧ t = u.setPC target)
      NoFatal := by
  unfold powerUp
  exact Res.post_bind (readPair_untouched _ _ _) fun target u h => ⟨u, target, h, rfl⟩

end Sys2Proof.Machine
end

