-- ==== Sys2Proof/Laws/Fetch.lean ====
section
/-! SUPPORT. What the fetch of an instruction's bytes does with flat RAM, and the state it leaves. -/

namespace Sys2Proof.Machine

/-- The opcode latched after its read, before the operand bytes (R121), as `fetched` says it after them. -/
theorem afterBytes_setOpcode (n : Nat) (opcode : Byte) : ∀ u : State,
    afterBytes n (u.setCyc { u.cyc with opcode := opcode }) =
      (afterBytes n u).setCyc { (afterBytes n u).cyc with opcode := opcode } := by
  induction n with
  | zero => exact fun _ => rfl
  | succ n ih => exact fun u => ih ((afterRead u.regs.pc u).setPC (u.regs.pc + 1))

/-- `n` bytes read at PC: PC advances by `n`. -/
theorem afterBytes_regs (n : Nat) : ∀ s : State,
    (afterBytes n s).regs = { s.regs with pc := s.regs.pc + BitVec.ofNat 16 n } := by
  induction n with
  | zero => intro s; simp [afterBytes]
  | succ n ih =>
    intro s
    rw [afterBytes, ih]
    simp only [State.setPC, State.setRegs_regs, afterRead_regs]
    congr 1
    rw [BitVec.add_assoc, Nat.add_comm, BitVec.ofNat_add]
    rfl

theorem afterBytes_mem (n : Nat) : ∀ s : State, (afterBytes n s).mem = s.mem := by
  induction n with
  | zero => exact fun _ => rfl
  | succ n ih => exact fun s => ih ((afterRead s.regs.pc s).setPC (s.regs.pc + 1))

theorem isFlatRam_afterBytes (n : Nat) : ∀ {s : State}, s.wires.isFlatRam → (afterBytes n s).wires.isFlatRam := by
  induction n with
  | zero => exact fun h => h
  | succ n ih => exact fun h => ih (s := (afterRead _ _).setPC _) h

/-- The fetch with flat RAM (R121, R124): the instruction of the bytes at PC, and the state `fetched` describes. -/
theorem fetch_flatRam {s : State} (h : s.wires.isFlatRam) :
    fetch (s.beginCycle false) =
      match descriptor (s.byteAt s.regs.pc) with
      | none => .ok (.unimplemented (s.byteAt s.regs.pc)) (fetched 1 s)
      | some d =>
        match d.mode.operandBytes with
        | 0 => .ok (d.instr 0 0) (fetched 1 s)
        | 1 => .ok (d.instr (s.byteAt (s.regs.pc + 1)) 0) (fetched 2 s)
        | _ => .ok (d.instr (s.byteAt (s.regs.pc + 1)) (s.byteAt (s.regs.pc + 1 + 1))) (fetched 3 s) := by
  unfold fetch
  rw [fetchByte_flatRam (s := s.beginCycle false) h, Res.bind_ok]
  have e0 : (s.beginCycle false).byteAt (s.beginCycle false).regs.pc = s.byteAt s.regs.pc := rfl
  have e1 : ((afterRead (s.beginCycle false).regs.pc (s.beginCycle false)).setPC
      ((s.beginCycle false).regs.pc + 1)).setCyc
        { ((afterRead (s.beginCycle false).regs.pc (s.beginCycle false)).setPC
            ((s.beginCycle false).regs.pc + 1)).cyc with opcode := s.byteAt s.regs.pc } = fetched 1 s := rfl
  dsimp only
  rw [e0, e1]
  cases descriptor (s.byteAt s.regs.pc) with
  | none => rfl
  | some d =>
    dsimp only
    unfold fetchOperand
    have f1 : (fetched 1 s).wires.isFlatRam := h
    have f2 : (fetched 2 s).wires.isFlatRam := h
    have s1 : (fetchByte (fetched 1 s)) = .ok (s.byteAt (s.regs.pc + 1)) (fetched 2 s) :=
      fetchByte_flatRam f1
    have s2 : (fetchByte (fetched 2 s)) = .ok (s.byteAt (s.regs.pc + 1 + 1)) (fetched 3 s) :=
      fetchByte_flatRam f2
    cases d.mode <;> simp only [Mode.operandBytes, s1, s2, Res.bind_ok]

end Sys2Proof.Machine
end

