-- ==== Sys2Proof/Laws/Frame.lean ====
section
/-! SUPPORT. Everything an instruction can do under ANY wiring, said once: what every handler keeps, and the three ways
its cycle ends. Whole-machine rules follow from `exec_cases` and `cycle_cases` without unfolding a meaning. -/

namespace Sys2Proof.Machine

/-- What every handler keeps, whatever the wiring. With both requests pending, IRQ stays pending (R242, R269). -/
structure Kept (s t : State) : Prop where
  budget : t.budget = s.budget
  sched : t.sched = s.sched
  run : t.run = s.run
  loop : t.loop = s.loop
  opcAddr : t.cyc.opcAddr = s.cyc.opcAddr
  listeners : t.wires.sameListeners s.wires
  wf : s.mem.wf = true → t.mem.wf = true
  u : t.regs.p.u = s.regs.p.u
  b : t.regs.p.b = s.regs.p.b
  both : s.pending.nmi = true → s.pending.irq = true → t.pending.irq = true

theorem Kept.refl (s : State) : Kept s s := by
  constructor <;> first | rfl | exact id | exact Wires.sameListeners_refl _ | exact fun _ h => h

theorem Untouched.kept {s t : State} (h : Untouched s t) : Kept s t :=
  ⟨h.budget, h.sched, h.run, h.loop, h.opcAddr, h.listeners, h.wf, by rw [h.regs], by rw [h.regs],
    fun _ k => h.irq k⟩

/-- Transactions after what has been kept. -/
theorem Kept.untouched {s t u : State} (h : Kept s t) (k : Untouched t u) : Kept s u where
  budget := k.budget.trans h.budget
  sched := k.sched.trans h.sched
  run := k.run.trans h.run
  loop := k.loop.trans h.loop
  opcAddr := k.opcAddr.trans h.opcAddr
  listeners := Wires.sameListeners_trans k.listeners h.listeners
  wf := k.wf ∘ h.wf
  u := by rw [k.regs, h.u]
  b := by rw [k.regs, h.b]
  both := fun x y => k.irq (h.both x y)

/-- A change of registers that leaves P.U and P.B. -/
theorem Kept.setRegs {s t : State} (h : Kept s t) {r : Regs} (hu : r.p.u = t.regs.p.u) (hb : r.p.b = t.regs.p.b) :
    Kept s (t.setRegs r) :=
  ⟨h.budget, h.sched, h.run, h.loop, h.opcAddr, h.listeners, h.wf, hu.trans h.u, hb.trans h.b, h.both⟩

/-- How the handler of `i` ends fatally: after steps that keep what every handler keeps, with the latched address; that
of a well-formed instruction only for an unimplemented slot. -/
def EndsFatally (i : Instr) (s f : State) : Prop :=
  ∃ u k op, Kept s u ∧ f = u.setRun (.fatal k op u.cyc.opcAddr) ∧
    (i.wellFormed = true → i = .unimplemented op ∧ k = .unimplementedOpcode)

/-- What the handler of `i` may answer. -/
abbrev HandlerKeeps (i : Instr) (s : State) (r : Res Bool) : Prop := r.post (fun _ t => Kept s t) (EndsFatally i s)

theorem endsFatally_illFormed {i : Instr} (hi : i.wellFormed = false) {s t : State} (h : Kept s t) (k : FatalKind)
    (op : Byte) : EndsFatally i s (t.setRun (.fatal k op t.cyc.opcAddr)) :=
  ⟨t, k, op, h, rfl, fun w => by rw [hi] at w; cases w⟩

theorem resolve_kept (o : Operand) (s : State) : (resolve o s).post (fun _ t => Kept s t) NoFatal :=
  Res.post_mono (resolve_any o s) (fun _ _ ⟨_, _, h, e⟩ => e ▸ h.kept.setRegs rfl rfl) fun _ => id

theorem operand_kept {i : Instr} {o : Operand} (hi : o = .imp → i.wellFormed = false) {s t : State} (h : Kept s t) :
    (operand o t).post (fun _ u => Kept s u) (EndsFatally i s) := by
  cases o <;> first
    | exact h
    | exact endsFatally_illFormed (hi rfl) h _ _
    | exact Res.post_mono (memRead_untouched _ t) (fun _ _ k => h.untouched k) fun _ => False.elim

theorem writeBack_kept {i : Instr} {o : Operand} (hi : o = .imp → i.wellFormed = false) (v : Byte) {s t : State}
    (h : Kept s t) : (writeBack o v t).post (fun _ u => Kept s u) (EndsFatally i s) := by
  cases o <;> first
    | exact h.setRegs rfl rfl
    | exact endsFatally_illFormed (hi rfl) h _ _
    | exact Res.post_mono (memWrite_untouched _ v t) (fun _ _ k => h.untouched k) fun _ => False.elim

/-- An operation that keeps, run after what has been kept. -/
theorem post_of_noFatal {α : Type} {P : α → State → Prop} {i : Instr} {s : State} {r : Res α}
    (h : r.post P NoFatal) : r.post P (EndsFatally i s) := Res.post_mono h (fun _ _ => id) fun _ => False.elim

/-- A handler that reads its operand once and changes registers but neither P.U nor P.B. -/
theorem reading_keeps {i : Instr} {o : Operand} (hi : o = .imp → i.wellFormed = false)
    {effect : Byte → State → State} (s : State) (heffect : ∀ m t, Kept s t → Kept s (effect m t)) :
    HandlerKeeps i s (reading o effect s) :=
  Res.post_bind (post_of_noFatal (resolve_kept o s)) fun _ _ h =>
    Res.post_bind (operand_kept hi h) fun m t h => heffect m t h

theorem storing_keeps {i : Instr} (o : Operand) (value : Regs → Byte) (s : State) :
    HandlerKeeps i s (storing o value s) :=
  Res.post_bind (post_of_noFatal (resolve_kept o s)) fun _ t h =>
    Res.post_bind (post_of_noFatal (memWrite_untouched _ _ t)) fun _ _ k => h.untouched k

theorem modifying_keeps {i : Instr} {o : Operand} (hi : o = .imp → i.wellFormed = false)
    {result : Byte → Flags → Byte × Flags} (s : State) (hu : ∀ m p, (result m p).2.u = p.u)
    (hb : ∀ m p, (result m p).2.b = p.b) : HandlerKeeps i s (modifying o result s) :=
  Res.post_bind (post_of_noFatal (resolve_kept o s)) fun _ _ h =>
    Res.post_bind (operand_kept hi h) fun m u k =>
      Res.post_bind (writeBack_kept hi _ k) fun _ _ l =>
        l.setRegs ((hu m u.regs.p).trans (k.u.trans l.u.symm)) ((hb m u.regs.p).trans (k.b.trans l.b.symm))

theorem implied_keeps {i : Instr} {effect : State → State} {s : State} (h : Kept s (effect s)) :
    HandlerKeeps i s (implied effect s) := h

theorem running_keeps {i : Instr} {op : State → Res Unit} {s : State}
    (h : (op s).post (fun _ t => Kept s t) NoFatal) : HandlerKeeps i s (running op s) := Res.post_bind (post_of_noFatal h) fun _ _ k => k

theorem push_kept (v : Byte) {s t : State} (h : Kept s t) :
    (push v t).post (fun _ u => Kept s u ∧ (t.pending.nmi = true → u.pending.nmi = true)) NoFatal :=
  Res.post_mono (push_any v t) (fun _ _ ⟨_, k, e⟩ => e ▸ ⟨(h.untouched k).setRegs rfl rfl, k.nmi⟩) fun _ => id

theorem pull_kept {s t : State} (h : Kept s t) : (pull t).post (fun _ u => Kept s u) NoFatal :=
  Res.post_mono (pull_any t) (fun _ _ k => Kept.untouched (t := t.setSP (t.regs.sp + 1)) (h.setRegs rfl rfl) k)
    fun _ => id

theorem pushWord_kept (w : Word) {s t : State} (h : Kept s t) :
    (pushWord w t).post (fun _ u => Kept s u ∧ (t.pending.nmi = true → u.pending.nmi = true)) NoFatal :=
  Res.post_bind (push_kept _ h) fun _ _ k =>
    Res.post_mono (push_kept _ k.1) (fun _ _ l => ⟨l.1, l.2 ∘ k.2⟩) fun _ => id

theorem pullWord_kept {s t : State} (h : Kept s t) : (pullWord t).post (fun _ u => Kept s u) NoFatal :=
  Res.post_bind (pull_kept h) fun _ _ k => Res.post_bind (pull_kept k) fun _ _ l => l

/-- A request served: with both pending at the start, NMI is the one. -/
theorem Kept.clearRequest {s t : State} (h : Kept s t) {k : Interrupt} (hk : s.pending.nmi = true → k = .nmi) :
    Kept s (t.clearRequest k) := by
  constructor
  case both => exact fun x y => by rw [hk x]; exact h.both x y
  all_goals cases k
  all_goals first
    | exact h.budget | exact h.sched | exact h.run | exact h.loop | exact h.opcAddr
    | exact h.listeners | exact h.wf | exact h.u | exact h.b

theorem interruptEntry_kept (forced : Bool) (s : State) :
    (interruptEntry forced s).post (fun _ t => Kept s t) NoFatal := by
  have h0 : ∃ t, (if forced = true then s else s.setPC (s.regs.pc + 1)) = t ∧ Kept s t ∧
      t.pending = s.pending := by
    cases forced
    · exact ⟨_, rfl, (Kept.refl s).setRegs rfl rfl, rfl⟩
    · exact ⟨_, rfl, Kept.refl s, rfl⟩
  obtain ⟨t, e, h, hp⟩ := h0
  unfold interruptEntry
  rw [e]
  refine Res.post_bind (pushWord_kept _ h) fun _ u k => ?_
  refine Res.post_bind (push_kept _ k.1) fun _ v l => ?_
  refine Res.post_bind (readPair_untouched _ _ _) fun target w m => ?_
  show Kept s ((w.setPC target).clearRequest _)
  refine Kept.clearRequest (t := w.setPC target) (Kept.setRegs
    (Kept.untouched (t := v.setP { v.regs.p with i := true }) (l.1.setRegs rfl rfl) m) rfl rfl) fun x => ?_
  have : v.pending.nmi = true := l.2 (k.2 (by rw [hp]; exact x))
  show (if v.pending.nmi = true then _ else _) = _
  rw [if_pos this]

theorem returnFromInterrupt_kept (s : State) : (returnFromInterrupt s).post (fun _ t => Kept s t) NoFatal :=
  Res.post_bind (pull_kept (Kept.refl s)) fun _ t h =>
    Res.post_bind (pullWord_kept (t := t.setP _) (h.setRegs rfl rfl)) fun _ _ k => k.setRegs rfl rfl

theorem adcResult_keeps (a m : Byte) (p : Flags) : (adcResult a m p).2.u = p.u ∧ (adcResult a m p).2.b = p.b := by
  unfold adcResult
  split <;> exact ⟨rfl, rfl⟩

theorem sbcResult_keeps (a m : Byte) (p : Flags) : (sbcResult a m p).2.u = p.u ∧ (sbcResult a m p).2.b = p.b := by
  unfold sbcResult
  split <;> exact ⟨rfl, rfl⟩

/-- An instruction is its handler and the end of the cycle, and the handler keeps what every handler keeps. -/
theorem exec_handler (i : Instr) (s : State) : ∃ r, exec i s = finish i r ∧ HandlerKeeps i s r := by
  cases i
  case lda o => exact ⟨_, rfl, reading_keeps (by rintro rfl; rfl) s fun _ _ h => h.setRegs rfl rfl⟩
  case ldx o => exact ⟨_, rfl, reading_keeps (by rintro rfl; rfl) s fun _ _ h => h.setRegs rfl rfl⟩
  case ldy o => exact ⟨_, rfl, reading_keeps (by rintro rfl; rfl) s fun _ _ h => h.setRegs rfl rfl⟩
  case sta o => exact ⟨_, rfl, storing_keeps o _ s⟩
  case stx o => exact ⟨_, rfl, storing_keeps o _ s⟩
  case sty o => exact ⟨_, rfl, storing_keeps o _ s⟩
  case adc o => exact ⟨_, rfl, reading_keeps (by rintro rfl; rfl) s fun _ _ h => h.setRegs (adcResult_keeps _ _ _).1 (adcResult_keeps _ _ _).2⟩
  case sbc o => exact ⟨_, rfl, reading_keeps (by rintro rfl; rfl) s fun _ _ h => h.setRegs (sbcResult_keeps _ _ _).1 (sbcResult_keeps _ _ _).2⟩
  case and o => exact ⟨_, rfl, reading_keeps (by rintro rfl; rfl) s fun _ _ h => h.setRegs rfl rfl⟩
  case ora o => exact ⟨_, rfl, reading_keeps (by rintro rfl; rfl) s fun _ _ h => h.setRegs rfl rfl⟩
  case eor o => exact ⟨_, rfl, reading_keeps (by rintro rfl; rfl) s fun _ _ h => h.setRegs rfl rfl⟩
  case bit o => exact ⟨_, rfl, reading_keeps (by rintro rfl; rfl) s fun _ _ h => h.setRegs rfl rfl⟩
  case inc o => exact ⟨_, rfl, modifying_keeps (by rintro rfl; rfl) s (fun _ _ => rfl) fun _ _ => rfl⟩
  case dec o => exact ⟨_, rfl, modifying_keeps (by rintro rfl; rfl) s (fun _ _ => rfl) fun _ _ => rfl⟩
  case asl o => exact ⟨_, rfl, modifying_keeps (by rintro rfl; rfl) s (fun _ _ => rfl) fun _ _ => rfl⟩
  case lsr o => exact ⟨_, rfl, modifying_keeps (by rintro rfl; rfl) s (fun _ _ => rfl) fun _ _ => rfl⟩
  case rol o => exact ⟨_, rfl, modifying_keeps (by rintro rfl; rfl) s (fun _ _ => rfl) fun _ _ => rfl⟩
  case ror o => exact ⟨_, rfl, modifying_keeps (by rintro rfl; rfl) s (fun _ _ => rfl) fun _ _ => rfl⟩
  case pha => exact ⟨_, rfl, running_keeps (Res.post_mono (push_kept _ (Kept.refl s)) (fun _ _ k => k.1) fun _ => id)⟩
  case php => exact ⟨_, rfl, running_keeps (Res.post_mono (push_kept _ (Kept.refl s)) (fun _ _ k => k.1) fun _ => id)⟩
  case pla => exact ⟨_, rfl, running_keeps (Res.post_bind (pull_kept (Kept.refl s)) fun _ _ h => h.setRegs rfl rfl)⟩
  case plp => exact ⟨_, rfl, running_keeps (Res.post_bind (pull_kept (Kept.refl s)) fun _ _ h => h.setRegs rfl rfl)⟩
  case rts => exact ⟨_, rfl, running_keeps (Res.post_bind (pullWord_kept (Kept.refl s)) fun _ _ h => h.setRegs rfl rfl)⟩
  case brk => exact ⟨_, rfl, running_keeps (interruptEntry_kept _ s)⟩
  case rti => exact ⟨_, rfl, running_keeps (returnFromInterrupt_kept s)⟩
  case jsr w => exact ⟨_, rfl, Res.post_bind (post_of_noFatal (resolve_kept _ s)) fun _ _ h =>
      Res.post_bind (post_of_noFatal (pushWord_kept _ h)) fun _ _ k => k.1.setRegs rfl rfl⟩
  case unimplemented op => exact ⟨raiseFatal .unimplementedOpcode op s, rfl, s, _, _, Kept.refl s, rfl, fun _ => ⟨rfl, rfl⟩⟩
  case jmp o =>
    refine ⟨_, rfl, Res.post_bind (post_of_noFatal (resolve_kept o s)) fun _ t h => ?_⟩
    split
    · exact h.setRegs rfl rfl
    · rename_i hc
      exact endsFatally_illFormed (i := .jmp o) (Bool.eq_false_iff.mpr hc) h _ _
  case cmp o =>
    refine ⟨_, rfl, Res.post_bind (post_of_noFatal (resolve_kept o s)) fun _ t h => ?_⟩
    split
    · exact Res.post_bind (operand_kept (i := .cmp o) (by rintro rfl; rfl) h) fun _ _ k => k.setRegs rfl rfl
    · rename_i hc
      exact endsFatally_illFormed (i := .cmp o) (Bool.eq_false_iff.mpr hc) h _ _
  case cpx o =>
    refine ⟨_, rfl, Res.post_bind (post_of_noFatal (resolve_kept o s)) fun _ t h => ?_⟩
    split
    · exact Res.post_bind (operand_kept (i := .cpx o) (by rintro rfl; rfl) h) fun _ _ k => k.setRegs rfl rfl
    · rename_i hc
      exact endsFatally_illFormed (i := .cpx o) (Bool.eq_false_iff.mpr hc) h _ _
  case cpy o =>
    refine ⟨_, rfl, Res.post_bind (post_of_noFatal (resolve_kept o s)) fun _ t h => ?_⟩
    split
    · exact Res.post_bind (operand_kept (i := .cpy o) (by rintro rfl; rfl) h) fun _ _ k => k.setRegs rfl rfl
    · rename_i hc
      exact endsFatally_illFormed (i := .cpy o) (Bool.eq_false_iff.mpr hc) h _ _
  all_goals first
    | exact ⟨_, rfl, implied_keeps ((Kept.refl s).setRegs rfl rfl)⟩
    | exact ⟨_, rfl, implied_keeps (Kept.refl s)⟩
    | (refine ⟨_, rfl, Res.post_bind (post_of_noFatal (resolve_kept _ s)) fun _ t h => ?_⟩
       split
       · exact h.setRegs rfl rfl
       · exact h)

theorem Kept.trans {s t u : State} (h : Kept s t) (hn : s.pending.nmi = true → t.pending.nmi = true) (k : Kept t u) :
    Kept s u where
  budget := k.budget.trans h.budget
  sched := k.sched.trans h.sched
  run := k.run.trans h.run
  loop := k.loop.trans h.loop
  opcAddr := k.opcAddr.trans h.opcAddr
  listeners := Wires.sameListeners_trans k.listeners h.listeners
  wf := k.wf ∘ h.wf
  u := k.u.trans h.u
  b := k.b.trans h.b
  both := fun x y => k.both (hn x) (h.both x y)

/-- What holds between the state an instruction starts in and a state its cycle ends in, `s` being the state before
the fetch: the charge is the instruction's, the fatal end an unimplemented slot's. -/
def CycleEnds (i : Instr) (s t : State) : Prop :=
  (∃ u crossed v, Kept s u ∧ Untouched (u.charge (i.cost crossed)) v ∧ t = v.setLoop .boundary) ∨ EndsFatally i s t

/-- Everything `exec` can do when it answers a next state. -/
theorem exec_cases {i : Instr} {s t : State} (h : exec i s = .next t) : CycleEnds i s t := by
  obtain ⟨r, hr, hk⟩ := exec_handler i s
  rw [hr] at h
  unfold finish at h
  cases r with
  | ok crossed u =>
    simp only [Res.bind_ok] at h
    have hu := setState_untouched .clock false (u.charge (i.cost crossed))
    cases hc : setState .clock false (u.charge (i.cost crossed)) with
    | ok _ v =>
      rw [hc] at h hu
      exact .inl ⟨u, crossed, v, hk, hu, (Host.Outcome.next.inj h).symm⟩
    | fatal v => rw [hc] at hu; exact hu.elim
    | fault _ => rw [hc] at h; cases h
    | refused _ => rw [hc] at h; cases h
  | fatal f =>
    have : f = t := Host.Outcome.next.inj h
    exact .inr (this ▸ hk)
  | fault _ => cases h
  | refused _ => cases h

/-- Everything the fetch can do, whatever the wiring: its instruction is well formed. -/
theorem fetch_any (s : State) :
    (fetch s).post (fun i t => i.wellFormed = true ∧ Kept s t ∧ (s.pending.nmi = true → t.pending.nmi = true))
      NoFatal := by
  have byte : ∀ {t : State}, Kept s t → (s.pending.nmi = true → t.pending.nmi = true) →
      (fetchByte t).post (fun _ u => Kept s u ∧ (s.pending.nmi = true → u.pending.nmi = true)) NoFatal :=
    fun h hn => Res.post_mono (fetchByte_any _) (fun _ _ ⟨_, k, e⟩ => e ▸ ⟨(h.untouched k).setRegs rfl rfl, k.nmi ∘ hn⟩)
      fun _ => id
  unfold fetch
  refine Res.post_bind (byte (Kept.refl s) id) fun opcode t h => ?_
  have h' : Kept s (t.setCyc { t.cyc with opcode := opcode }) :=
    ⟨h.1.budget, h.1.sched, h.1.run, h.1.loop, h.1.opcAddr, h.1.listeners, h.1.wf, h.1.u, h.1.b, h.1.both⟩
  dsimp only
  cases hd : descriptor opcode with
  | none => exact ⟨by simpa [Instr.wellFormed] using unimplemented_of_descriptor opcode hd, h', h.2⟩
  | some d =>
    have hw : ∀ byte1 byte2, (d.instr byte1 byte2).wellFormed = true := fun byte1 byte2 => by
      have hm := (descriptor_eq_some hd).1
      have h1 := Descriptor.instr_mnemonic d byte1 byte2
      have h2 := table_instr_mode hm byte1 byte2
      have h3 := table_modes d hm
      generalize d.instr byte1 byte2 = i at h1 h2
      cases i <;> simp_all [Instr.wellFormed, Instr.mnemonic]
    dsimp only
    unfold fetchOperand
    split
    · exact ⟨hw _ _, h', h.2⟩
    · exact Res.post_bind (byte h' h.2) fun _ _ k => ⟨hw _ _, k⟩
    · exact Res.post_bind (byte h' h.2) fun _ _ k => Res.post_bind (byte k.1 k.2) fun _ _ l => ⟨hw _ _, l⟩

/-- Everything one `cycle()` can do when it answers a next state. -/
theorem cycle_cases {s t : State} (h : cycle s = .next t) :
    ∃ i, i.wellFormed = true ∧ CycleEnds i (s.beginCycle s.forced) t := by
  unfold cycle at h
  cases hf : s.forced with
  | true =>
    rw [hf, if_pos rfl] at h
    exact ⟨.brk, rfl, exec_cases h⟩
  | false =>
    rw [hf, if_neg (by decide)] at h
    have ha := fetch_any (s.beginCycle false)
    cases he : fetch (s.beginCycle false) with
    | ok i w =>
      rw [he] at h ha
      obtain ⟨hw, hk, hn⟩ := ha
      refine ⟨i, hw, ?_⟩
      rcases exec_cases h with ⟨u, c, v, hu, hv, rfl⟩ | ⟨u, k, op, hu, rfl, ho⟩
      · exact .inl ⟨u, c, v, hk.trans hn hu, hv, rfl⟩
      · exact .inr ⟨u, k, op, hk.trans hn hu, rfl, ho⟩
    | fatal w => rw [he] at ha; exact ha.elim
    | fault _ => rw [he] at h; cases h
    | refused _ => rw [he] at h; cases h

end Sys2Proof.Machine
end

