-- ==== Sys2Proof/Laws/Latch.lean ====
section
/-! SUPPORT. No listener reads a register (R60..R66 name none): a dispatch, and so a transaction, commutes with a change
of the registers. -/

namespace Sys2Proof.Machine

/-- The registers of every state an operation answers, replaced. -/
def Res.withRegs {α : Type} (f : Regs → Regs) : Res α → Res α
  | .ok v s => .ok v (s.setRegs (f s.regs))
  | .fatal s => .fatal (s.setRegs (f s.regs))
  | .fault r => .fault r
  | .refused r => .refused r

theorem Res.bind_withRegs {α β : Type} (f : Regs → Regs) (r : Res α) (k : α → State → Res β)
    (hk : ∀ v s, k v (s.setRegs (f s.regs)) = (k v s).withRegs f) :
    (r.withRegs f).bind k = (r.bind k).withRegs f := by
  cases r with
  | ok v s => exact hk v s
  | fatal _ => rfl
  | fault _ => rfl
  | refused _ => rfl

/-- No callback reads a register. -/
theorem Reading.value_setRegs (e : Reading) (g : Regs) (s : State) : e.value (s.setRegs g) = e.value s := by
  induction e <;> simp only [Reading.value, State.setRegs_wires, State.setRegs_mem, *]

theorem react_withRegs (f : Regs → Regs) {set : LineName → Bool → State → Res Unit}
    (hset : ∀ n b s, set n b (s.setRegs (f s.regs)) = (set n b s).withRegs f) (r : Reaction) (s : State) :
    react set r (s.setRegs (f s.regs)) = (react set r s).withRegs f := by
  induction r generalizing s with
  | ram =>
    by_cases h : s.wires.rw.level = Config.readLevel <;> simp only [react, ramReact, State.setRegs_wires, h] <;> rfl
  | responder =>
    by_cases h : s.wires.rw.level = Config.readLevel <;>
      simp only [react, responderReact, State.setRegs_wires, State.setRegs_env, h] <;> rfl
  | setLine n b => exact hset n b s
  | writeAddr v => simp only [react, v.value_setRegs]; rfl
  | writeData v => simp only [react, v.value_setRegs]; rfl
  | request k => cases k <;> rfl
  | register _ _ _ _ => rfl
  | store a v => simp only [react, a.value_setRegs, v.value_setRegs]; rfl
  | nothing => rfl
  | both r q ihr ihq =>
    unfold react
    rw [ihr]
    exact Res.bind_withRegs f _ _ fun _ s => ihq s
  | branch on first last r q ihr ihq =>
    simp only [react, on.value_setRegs]
    split
    · exact ihr s
    · exact ihq s

theorem dispatch_withRegs (f : Regs → Regs) {set : LineName → Bool → State → Res Unit}
    (hset : ∀ n b s, set n b (s.setRegs (f s.regs)) = (set n b s).withRegs f) (rs : List Reaction) :
    ∀ s, dispatch set rs (s.setRegs (f s.regs)) = (dispatch set rs s).withRegs f := by
  induction rs with
  | nil => exact fun _ => rfl
  | cons r rs ih =>
    intro s
    unfold dispatch
    rw [react_withRegs f hset]
    exact Res.bind_withRegs f _ _ fun _ s => ih s

theorem setStateWithin_withRegs (f : Regs → Regs) (depth : Nat) : ∀ n b s,
    setStateWithin depth n b (s.setRegs (f s.regs)) = (setStateWithin depth n b s).withRegs f := by
  induction depth with
  | zero => exact fun _ _ _ => rfl
  | succ d ih => exact fun n b s => dispatch_withRegs f ih _ (s.setLevel n b)

theorem setState_withRegs (f : Regs → Regs) (n : LineName) (b : Bool) (s : State) :
    setState n b (s.setRegs (f s.regs)) = (setState n b s).withRegs f := 
  setStateWithin_withRegs f _ n b s

/-- A read transaction does not look at the registers. -/
theorem memRead_withRegs (f : Regs → Regs) (a : Word) (s : State) :
    memRead a (s.setRegs (f s.regs)) = (memRead a s).withRegs f := by
  unfold memRead
  rw [show (s.setRegs (f s.regs)).writeAddrBus a.toNat =
    (s.writeAddrBus a.toNat).setRegs (f (s.writeAddrBus a.toNat).regs) from rfl, setState_withRegs]
  refine Res.bind_withRegs f _ _ fun _ s => ?_
  rw [setState_withRegs]
  exact Res.bind_withRegs f _ _ fun _ s => rfl

/-- A write transaction does not look at the registers. -/
theorem memWrite_withRegs (f : Regs → Regs) (a : Word) (v : Byte) (s : State) :
    memWrite a v (s.setRegs (f s.regs)) = (memWrite a v s).withRegs f := by
  unfold memWrite
  rw [show ((s.setRegs (f s.regs)).writeAddrBus a.toNat).writeDataBus v.toNat =
    ((s.writeAddrBus a.toNat).writeDataBus v.toNat).setRegs
      (f ((s.writeAddrBus a.toNat).writeDataBus v.toNat).regs) from rfl, setState_withRegs]
  refine Res.bind_withRegs f _ _ fun _ s => ?_
  rw [setState_withRegs]
  exact Res.bind_withRegs f _ _ fun _ s => rfl

end Sys2Proof.Machine
end

