-- ==== Sys2Proof/Laws/PerInstr.lean ====
section
/-! SUPPORT. The families of LAWS.json: one lemma per constructor of `Instr`. -/

namespace Sys2Proof.Laws

/-- An instruction that has an encoding has the length its mode gives it (R100). -/
def EncodedLength.Statement (i : Instr) : Prop :=
  ∀ bytes, encode i = some bytes → bytes.length = 1 + i.operand.mode.operandBytes

theorem EncodedLength.operand_length (o : Operand) : o.bytes.length = o.mode.operandBytes := by cases o <;> rfl

/-- The bytes of a documented instruction are an opcode and its operand's bytes. -/
theorem EncodedLength.documented {i : Instr} (h : encode i = i.descriptor.map fun d => d.opcode :: i.operand.bytes) :
    EncodedLength.Statement i := by
  intro bytes hb
  rw [h, Option.map_eq_some_iff] at hb
  obtain ⟨d, -, rfl⟩ := hb
  rw [List.length_cons, EncodedLength.operand_length, Nat.add_comm]

theorem EncodedLength.lda (o : Operand) : EncodedLength.Statement (.lda o) := EncodedLength.documented rfl
theorem EncodedLength.ldx (o : Operand) : EncodedLength.Statement (.ldx o) := EncodedLength.documented rfl
theorem EncodedLength.ldy (o : Operand) : EncodedLength.Statement (.ldy o) := EncodedLength.documented rfl
theorem EncodedLength.sta (o : Operand) : EncodedLength.Statement (.sta o) := EncodedLength.documented rfl
theorem EncodedLength.stx (o : Operand) : EncodedLength.Statement (.stx o) := EncodedLength.documented rfl
theorem EncodedLength.sty (o : Operand) : EncodedLength.Statement (.sty o) := EncodedLength.documented rfl
theorem EncodedLength.tax : EncodedLength.Statement .tax := EncodedLength.documented rfl
theorem EncodedLength.tay : EncodedLength.Statement .tay := EncodedLength.documented rfl
theorem EncodedLength.txa : EncodedLength.Statement .txa := EncodedLength.documented rfl
theorem EncodedLength.tya : EncodedLength.Statement .tya := EncodedLength.documented rfl
theorem EncodedLength.tsx : EncodedLength.Statement .tsx := EncodedLength.documented rfl
theorem EncodedLength.txs : EncodedLength.Statement .txs := EncodedLength.documented rfl
theorem EncodedLength.pha : EncodedLength.Statement .pha := EncodedLength.documented rfl
theorem EncodedLength.php : EncodedLength.Statement .php := EncodedLength.documented rfl
theorem EncodedLength.pla : EncodedLength.Statement .pla := EncodedLength.documented rfl
theorem EncodedLength.plp : EncodedLength.Statement .plp := EncodedLength.documented rfl
theorem EncodedLength.adc (o : Operand) : EncodedLength.Statement (.adc o) := EncodedLength.documented rfl
theorem EncodedLength.sbc (o : Operand) : EncodedLength.Statement (.sbc o) := EncodedLength.documented rfl
theorem EncodedLength.and (o : Operand) : EncodedLength.Statement (.and o) := EncodedLength.documented rfl
theorem EncodedLength.ora (o : Operand) : EncodedLength.Statement (.ora o) := EncodedLength.documented rfl
theorem EncodedLength.eor (o : Operand) : EncodedLength.Statement (.eor o) := EncodedLength.documented rfl
theorem EncodedLength.bit (o : Operand) : EncodedLength.Statement (.bit o) := EncodedLength.documented rfl
theorem EncodedLength.cmp (o : Operand) : EncodedLength.Statement (.cmp o) := EncodedLength.documented rfl
theorem EncodedLength.cpx (o : Operand) : EncodedLength.Statement (.cpx o) := EncodedLength.documented rfl
theorem EncodedLength.cpy (o : Operand) : EncodedLength.Statement (.cpy o) := EncodedLength.documented rfl
theorem EncodedLength.inc (o : Operand) : EncodedLength.Statement (.inc o) := EncodedLength.documented rfl
theorem EncodedLength.dec (o : Operand) : EncodedLength.Statement (.dec o) := EncodedLength.documented rfl
theorem EncodedLength.inx : EncodedLength.Statement .inx := EncodedLength.documented rfl
theorem EncodedLength.iny : EncodedLength.Statement .iny := EncodedLength.documented rfl
theorem EncodedLength.dex : EncodedLength.Statement .dex := EncodedLength.documented rfl
theorem EncodedLength.dey : EncodedLength.Statement .dey := EncodedLength.documented rfl
theorem EncodedLength.asl (o : Operand) : EncodedLength.Statement (.asl o) := EncodedLength.documented rfl
theorem EncodedLength.lsr (o : Operand) : EncodedLength.Statement (.lsr o) := EncodedLength.documented rfl
theorem EncodedLength.rol (o : Operand) : EncodedLength.Statement (.rol o) := EncodedLength.documented rfl
theorem EncodedLength.ror (o : Operand) : EncodedLength.Statement (.ror o) := EncodedLength.documented rfl
theorem EncodedLength.jmp (o : Operand) : EncodedLength.Statement (.jmp o) := EncodedLength.documented rfl
theorem EncodedLength.jsr (w : Word) : EncodedLength.Statement (.jsr w) := EncodedLength.documented rfl
theorem EncodedLength.rts : EncodedLength.Statement .rts := EncodedLength.documented rfl
theorem EncodedLength.bpl (b : Byte) : EncodedLength.Statement (.bpl b) := EncodedLength.documented rfl
theorem EncodedLength.bmi (b : Byte) : EncodedLength.Statement (.bmi b) := EncodedLength.documented rfl
theorem EncodedLength.bvc (b : Byte) : EncodedLength.Statement (.bvc b) := EncodedLength.documented rfl
theorem EncodedLength.bvs (b : Byte) : EncodedLength.Statement (.bvs b) := EncodedLength.documented rfl
theorem EncodedLength.bcc (b : Byte) : EncodedLength.Statement (.bcc b) := EncodedLength.documented rfl
theorem EncodedLength.bcs (b : Byte) : EncodedLength.Statement (.bcs b) := EncodedLength.documented rfl
theorem EncodedLength.bne (b : Byte) : EncodedLength.Statement (.bne b) := EncodedLength.documented rfl
theorem EncodedLength.beq (b : Byte) : EncodedLength.Statement (.beq b) := EncodedLength.documented rfl
theorem EncodedLength.brk : EncodedLength.Statement .brk := EncodedLength.documented rfl
theorem EncodedLength.rti : EncodedLength.Statement .rti := EncodedLength.documented rfl
theorem EncodedLength.nop : EncodedLength.Statement .nop := EncodedLength.documented rfl
theorem EncodedLength.clc : EncodedLength.Statement .clc := EncodedLength.documented rfl
theorem EncodedLength.cld : EncodedLength.Statement .cld := EncodedLength.documented rfl
theorem EncodedLength.cli : EncodedLength.Statement .cli := EncodedLength.documented rfl
theorem EncodedLength.clv : EncodedLength.Statement .clv := EncodedLength.documented rfl
theorem EncodedLength.sec : EncodedLength.Statement .sec := EncodedLength.documented rfl
theorem EncodedLength.sed : EncodedLength.Statement .sed := EncodedLength.documented rfl
theorem EncodedLength.sei : EncodedLength.Statement .sei := EncodedLength.documented rfl
theorem EncodedLength.unimplemented (b : Byte) : EncodedLength.Statement (.unimplemented b) := by
  intro bytes hb
  simp only [encode] at hb
  split at hb
  · cases hb; rfl
  · cases hb

end Sys2Proof.Laws
end

