-- ==== Sys2Proof/Laws/Raising.lean ====
section
/-! SUPPORT. Flat RAM beside a device that raises a request in the transactions at one address, in one direction: what a
read and a write do, and what they leave so. -/

namespace Sys2Proof.Machine

/-- Flat RAM, and a device that raises `k` in a transaction at `a` in the direction `level`. -/
structure Raising (a : Word) (level : Bool) (k : Interrupt) (s : State) : Prop where
  rwHigh : s.wires.rw.onHigh = []
  rwLow : s.wires.rw.onLow = []
  clockHigh : s.wires.clock.onHigh = [.ram, .onAddress a a (.onLevel .rw level (.request k))]
  clockLow : s.wires.clock.onLow = []
  wf : s.mem.wf = true

/-- A request is raised, or not. -/
def raised (c : Bool) (k : Interrupt) (s : State) : State :=
  s.mergeRequests (c && decide (k = .nmi)) (c && decide (k = .irq))

theorem raised_true (k : Interrupt) (s : State) : raised true k s = s.raiseRequest k := by
  cases k <;> simp [raised, State.mergeRequests, State.raiseRequest]

theorem raised_false (k : Interrupt) (s : State) : raised false k s = s := by
  simp [raised, State.mergeRequests, State.setPending]

@[simp] theorem raised_regs (c : Bool) (k : Interrupt) (s : State) : (raised c k s).regs = s.regs := rfl
@[simp] theorem raised_mem (c : Bool) (k : Interrupt) (s : State) : (raised c k s).mem = s.mem := rfl
@[simp] theorem raised_wires (c : Bool) (k : Interrupt) (s : State) : (raised c k s).wires = s.wires := rfl
@[simp] theorem raised_pending (c : Bool) (k : Interrupt) (s : State) : (raised c k s).pending =
    { nmi := s.pending.nmi || (c && decide (k = .nmi)), irq := s.pending.irq || (c && decide (k = .irq)) } := rfl

theorem Raising.of_wires {a : Word} {level : Bool} {k : Interrupt} {s t : State} (h : Raising a level k s)
    (hw : t.wires.sameListeners s.wires) (hm : t.mem.wf = true) : Raising a level k t where
  rwHigh := (hw .rw true).trans h.rwHigh
  rwLow := (hw .rw false).trans h.rwLow
  clockHigh := (hw .clock true).trans h.clockHigh
  clockLow := (hw .clock false).trans h.clockLow
  wf := hm

theorem same_address {a b : Word} : (a ≤ b ∧ b ≤ a) ↔ b = a := by
  constructor
  · intro h; bv_omega
  · rintro rfl; exact ⟨BitVec.le_refl _, BitVec.le_refl _⟩

/-- A read: the RAM's byte, and the request where the read is the one. -/
theorem memRead_raising {a : Word} {level : Bool} {k : Interrupt} {s : State} (h : Raising a level k s) (b : Word) :
    memRead b s = .ok (s.byteAt b) (raised (decide (b = a) && level) k (afterRead b s)) := by
  unfold memRead
  rw [setState_unlistened (by simpa [Wires.line, Line.listeners, Config.readLevel] using h.rwHigh)]
  simp only [Res.bind_ok]
  rw [setState_eq]
  simp only [State.setLevel_wires, State.writeAddrBus_wires, Wires.setLine, Wires.line, Line.listeners, h.clockHigh,
    if_true, dispatch, react_onAddress, react_onLevel, react, ramReact, Res.bind_ok, clockAfterTransaction_eq, same_address]
  by_cases hb : b = a
  · subst hb
    cases level <;> cases k <;>
      simp [State.setLevel, State.setWires, Wires.setLine, Wires.line, State.writeAddrBus, State.writeDataBus, Bus.write,
        Bus.read, State.record, State.setCyc, afterRead, State.readOf, State.byteAt, Config.readLevel, raised,
        State.mergeRequests, State.raiseRequest, State.setPending]
  · simp [State.setLevel, State.setWires, Wires.setLine, Wires.line, State.writeAddrBus, State.writeDataBus, Bus.write,
      Bus.read, State.record, State.setCyc, afterRead, State.readOf, State.byteAt, Config.readLevel, raised,
      State.mergeRequests, State.setPending, hb]

/-- A write: the RAM takes the byte, and the request where the write is the one. -/
theorem memWrite_raising {a : Word} {level : Bool} {k : Interrupt} {s : State} (h : Raising a level k s) (b : Word)
    (v : Byte) : memWrite b v s = .ok () (raised (decide (b = a) && !level) k (afterWrite b v s)) := by
  unfold memWrite
  rw [setState_unlistened (by simpa [Wires.line, Line.listeners, Config.writeLevel] using h.rwLow)]
  simp only [Res.bind_ok]
  rw [setState_eq]
  simp only [State.setLevel_wires, State.writeAddrBus_wires, State.writeDataBus_wires, Wires.setLine, Wires.line,
    Line.listeners, h.clockHigh, if_true, dispatch, react_onAddress, react_onLevel, react, ramReact, Res.bind_ok, clockAfterTransaction_eq, same_address]
  by_cases hb : b = a
  · subst hb
    cases level <;> cases k <;>
      simp [State.setLevel, State.setWires, Wires.setLine, Wires.line, State.writeAddrBus, State.writeDataBus, Bus.write,
        Bus.read, State.record, State.setCyc, afterWrite, State.setMem, Config.readLevel, Config.writeLevel, raised,
        State.mergeRequests, State.raiseRequest, State.setPending]
  · simp [State.setLevel, State.setWires, Wires.setLine, Wires.line, State.writeAddrBus, State.writeDataBus, Bus.write,
      Bus.read, State.record, State.setCyc, afterWrite, State.setMem, Config.readLevel, Config.writeLevel, raised,
      State.mergeRequests, State.setPending, hb]

end Sys2Proof.Machine
end

