-- ==== Sys2Proof/Laws/Step.lean ====
section
/-! SUPPORT. Everything a step can do, said once: a `cycle()`, a `powerUp`, or a move that leaves the architectural
state alone. -/

namespace Sys2Proof.Machine

/-- A move that is neither a `cycle()` nor a `powerUp`: of the architectural state it changes the pending requests
(which it can only set), the counters and the scheduler; the run can only be stopped by it. -/
structure Quiet (s t : State) : Prop where
  regs : t.regs = s.regs
  mem : t.mem = s.mem
  wires : t.wires = s.wires
  env : t.env = s.env
  cyc : t.cyc = s.cyc
  nmi : s.pending.nmi = true → t.pending.nmi = true
  irq : s.pending.irq = true → t.pending.irq = true
  run : t.run = s.run ∨ (s.run = .running ∧ t.run = .stopped)

theorem Quiet.refl (s : State) : Quiet s s := ⟨rfl, rfl, rfl, rfl, rfl, id, id, .inl rfl⟩

theorem Quiet.setSched (s : State) (d : Sched) : Quiet s (s.setSched d) :=
  ⟨rfl, rfl, rfl, rfl, rfl, id, id, .inl rfl⟩

theorem Quiet.setBudget (s : State) (b : Budget) : Quiet s (s.setBudget b) :=
  ⟨rfl, rfl, rfl, rfl, rfl, id, id, .inl rfl⟩

theorem Quiet.setLoop (s : State) (l : LoopPoint) : Quiet s (s.setLoop l) :=
  ⟨rfl, rfl, rfl, rfl, rfl, id, id, .inl rfl⟩

theorem Quiet.raiseRequest (s : State) (k : Interrupt) : Quiet s (s.raiseRequest k) := by
  cases k
  · exact ⟨rfl, rfl, rfl, rfl, rfl, fun _ => rfl, id, .inl rfl⟩
  · exact ⟨rfl, rfl, rfl, rfl, rfl, id, fun _ => rfl, .inl rfl⟩

theorem Quiet.trans {s t u : State} (h : Quiet s t) (k : Quiet t u) : Quiet s u where
  regs := k.regs.trans h.regs
  mem := k.mem.trans h.mem
  wires := k.wires.trans h.wires
  env := k.env.trans h.env
  cyc := k.cyc.trans h.cyc
  nmi := k.nmi ∘ h.nmi
  irq := k.irq ∘ h.irq
  run := by
    rcases h.run with h | ⟨h, h'⟩ <;> rcases k.run with k | ⟨k, k'⟩
    · exact .inl (k.trans h)
    · exact .inr ⟨h ▸ k, k'⟩
    · exact .inr ⟨h, k.trans h'⟩
    · exact .inr ⟨h, k'⟩

theorem quiet_tickerMove (k : Int) (s : State) : Quiet s (tickerMove k s) := by
  unfold tickerMove
  split
  · exact (Quiet.setBudget s _).trans (Quiet.setSched _ _)
  · exact Quiet.setSched s _

theorem quiet_creditGate (s : State) : Quiet s (creditGate s) := by
  unfold creditGate
  split
  · split
    · exact (Quiet.setSched s _).trans (Quiet.setLoop _ _)
    · exact Quiet.setLoop s _
  · exact Quiet.setLoop s _

/-- A move of the execution agent. -/
theorem executionMove_cases {s t : State} (hr : s.run = .running) (h : executionMove s = .next t) :
    (s.loop = .cycle ∧ cycle s = .next t) ∨ (s.loop ≠ .cycle ∧ Quiet s t) := by
  unfold executionMove at h
  split at h
  · rename_i hl
    exact .inr ⟨by rw [hl]; decide, Host.Outcome.next.inj h ▸ Quiet.setLoop s _⟩
  · rename_i hl
    refine .inr ⟨by rw [hl]; decide, ?_⟩
    cases Host.Outcome.next.inj h
    split
    · exact ⟨rfl, rfl, rfl, rfl, rfl, id, id, .inr ⟨hr, rfl⟩⟩
    · split
      · exact Quiet.setLoop s _
      · exact quiet_creditGate s
  · rename_i hl
    refine .inr ⟨by rw [hl]; decide, ?_⟩
    cases Host.Outcome.next.inj h
    exact quiet_creditGate s
  · rename_i hl
    refine .inr ⟨by rw [hl]; decide, ?_⟩
    cases Host.Outcome.next.inj h
    exact (Quiet.setSched s _).trans (Quiet.setLoop _ _)
  · exact .inl ⟨‹_›, h⟩

/-- Everything a step can do when it answers a next state; `turns` are the turns that stay listed. -/
theorem step_cases {s t : State} (h : step s = .next t) : ∃ turns,
    (s.run = .running ∧ s.loop = .cycle ∧ cycle (s.setSched { s.sched with turns := turns }) = .next t) ∨
    (s.sched.turns = .powerUp :: turns ∧ s.looping = false ∧ ∃ u,
      powerUp Config.resetValues (s.setSched { s.sched with turns := turns }) = .ok () u ∧ t = u.setLoop .idle) ∨
    (s.sched.turns.head? ≠ some .powerUp ∧ Quiet s t) := by
  unfold step at h
  cases ht : s.sched.turns with
  | nil =>
    refine ⟨[], ?_⟩
    have hs : s.setSched { s.sched with turns := [] } = s := by rw [← ht]; rfl
    simp only [ht] at h
    rw [hs]
    unfold defaultTurn at h
    cases hr : s.run with
    | stopped => simp [hr] at h
    | fatal _ _ _ => simp [hr] at h
    | running =>
      simp only [hr] at h
      split at h
      · split at h
        · split at h
          · exact .inr (.inr ⟨by simp, Host.Outcome.next.inj h ▸ quiet_tickerMove _ s⟩)
          · cases h
        · cases h
      · rcases executionMove_cases hr h with ⟨hl, h⟩ | ⟨-, h⟩
        · exact .inl ⟨rfl, hl, h⟩
        · exact .inr (.inr ⟨by simp, h⟩)
  | cons turn rest =>
    refine ⟨rest, ?_⟩
    simp only [ht] at h
    have hq : Quiet s (s.setSched { s.sched with turns := rest }) := Quiet.setSched s _
    cases turn with
    | execution =>
      unfold takeTurn executionTurn at h
      dsimp only at h
      split at h
      · rename_i hc
        rcases executionMove_cases hc.1 h with ⟨hl, h⟩ | ⟨-, h⟩
        · exact .inl ⟨hc.1, hl, h⟩
        · exact .inr (.inr ⟨by simp, hq.trans h⟩)
      · exact .inr (.inr ⟨by simp, Host.Outcome.next.inj h ▸ hq⟩)
    | ticker =>
      refine .inr (.inr ⟨by simp, ?_⟩)
      cases Host.Outcome.next.inj h
      split
      · exact hq.trans (quiet_tickerMove _ _)
      · exact hq
    | diagnostic =>
      exact .inr (.inr ⟨by simp, Host.Outcome.next.inj h ▸ hq.trans ((Quiet.setBudget _ _).trans (Quiet.setSched _ _))⟩)
    | request k => exact .inr (.inr ⟨by simp, Host.Outcome.next.inj h ▸ hq.trans (Quiet.raiseRequest _ k)⟩)
    | setStop v => exact .inr (.inr ⟨by simp, Host.Outcome.next.inj h ▸ hq.trans (Quiet.setSched _ _)⟩)
    | setPause v => exact .inr (.inr ⟨by simp, Host.Outcome.next.inj h ▸ hq.trans (Quiet.setSched _ _)⟩)
    | setTicking v => exact .inr (.inr ⟨by simp, Host.Outcome.next.inj h ▸ hq.trans (Quiet.setSched _ _)⟩)
    | powerUp =>
      refine .inr (.inl ⟨rfl, ?_⟩)
      unfold takeTurn powerUpTurn at h
      dsimp only at h
      split at h
      · cases h
      · rename_i hr
        refine ⟨Bool.not_eq_true _ ▸ hr, ?_⟩
        have hp : (powerUp Config.resetValues (s.setSched { s.sched with turns := rest })).post (fun _ _ => True)
            NoFatal := by
          unfold powerUp
          exact Res.post_bind (readPair_untouched _ _ _) fun _ _ _ => trivial
        cases hc : powerUp Config.resetValues (s.setSched { s.sched with turns := rest }) with
        | ok _ u => rw [hc] at h; exact ⟨u, rfl, (Host.Outcome.next.inj h).symm⟩
        | fatal u => rw [hc] at hp; exact hp.elim
        | fault _ => rw [hc] at h; cases h
        | refused _ => rw [hc] at h; cases h

end Sys2Proof.Machine
end

