-- ==== Sys2Proof/Tests/Slice0.lean ====
section
/-! SUPPORT. Tests: ill-formed terms, decoding, one step at a time, and for each obligation a state that meets its
hypotheses. Expected results are those of the spec: the encodings of R100..R112 and the opcode table, and the vectors of
spec/95_test_vectors.md, whose identifiers (LS1, AR5, ...) the comments give; a comment that names a rule only gives
the rule the value was worked out from by hand. -/

namespace Sys2Proof.Tests

open Sys2Proof.Machine

/-! ### Small states -/

/-- A = X = Y = 0, SP = FD, every flag 0, as the vectors start. -/
def clear : Regs := State.reset.regs

/-- Flags from a status byte, U and B included. -/
def flags (b : Byte) : Flags := fromByte b false clear.p

def fill : List Host.Cell → Memory → Memory
  | [], m => m
  | (a, v) :: cells, m => fill cells (m.set a v)

def place : Nat → List Byte → Memory → Memory
  | _, [], m => m
  | a, v :: bytes, m => place (a + 1) bytes (m.set a v)

/-- Code at `pc`, cells of data, and the execution agent past the gate. -/
def loaded (pc : Word) (code : List Byte) (cells : List Host.Cell) (r : Regs) : State :=
  { State.reset with
    regs := { r with pc := pc }
    mem := place pc.toNat code (fill cells [])
    loop := .cycle }

/-- One step gives a next state of which `f` holds. -/
def onNext (f : State → Bool) (s : State) : Bool :=
  match step s with
  | .next t => f t
  | .fault _ => false
  | .refused _ => false

/-- One step stops with a refusal. -/
def refuses (r : Refusal) (s : State) : Bool :=
  match step s with
  | .refused q => q == r
  | _ => false

/-- The operation completes in a state of which `f` holds. -/
def onOk (f : State → Bool) (r : Res Unit) : Bool :=
  match r with
  | .ok _ t => f t
  | _ => false

/-- One step stops with a fault. -/
def stops (r : Fault) (s : State) : Bool :=
  match step s with
  | .fault q => q == r
  | _ => false

/-- The bytes are those of one instruction. -/
def decodes (bytes : List Byte) (i : Instr) : Bool :=
  match decode bytes with
  | .ok (j, rest) => j == i && rest == []
  | .error _ => false

/-! ### Ill-formed terms are refused, by the check and by the encoder -/

/-- A mode outside the mnemonic's list: no STA immediate, no LDX zero-page-X, no JMP zero-page, no INC on A (R105). -/
theorem test_illFormed_mode :
    (Instr.sta (.imm 1)).wellFormed = false ∧ (Instr.ldx (.zpx 1)).wellFormed = false ∧
    (Instr.jmp (.zp 1)).wellFormed = false ∧ (Instr.inc .acc).wellFormed = false ∧ encode (.sta (.imm 1)) = none := by
  decide

/-- A documented opcode byte is no unimplemented one: 00 is BRK, EA is NOP (R106). -/
theorem test_illFormed_unimplemented :
    (Instr.unimplemented 0x00).wellFormed = false ∧ (Instr.unimplemented 0xEA).wellFormed = false ∧
    encode (.unimplemented 0xEA) = none := by
  decide

/-! ### Decoding: every constructor, from the opcode bytes of R105 and the operand layout of R100, R101 -/

/-- LDA, LDX, LDY: each mode that loads have. -/
theorem test_decode_loads :
    decodes [0xA9, 0x10] (.lda (.imm 0x10)) ∧
    decodes [0xA5, 0x10] (.lda (.zp 0x10)) ∧
    decodes [0xB5, 0x10] (.lda (.zpx 0x10)) ∧
    decodes [0xAD, 0x34, 0x12] (.lda (.abs 0x1234)) ∧
    decodes [0xBD, 0x34, 0x12] (.lda (.abx 0x1234)) ∧
    decodes [0xB9, 0x34, 0x12] (.lda (.aby 0x1234)) ∧
    decodes [0xA1, 0x10] (.lda (.izx 0x10)) ∧
    decodes [0xB1, 0x10] (.lda (.izy 0x10)) ∧
    decodes [0xA2, 0xFF] (.ldx (.imm 0xFF)) ∧
    decodes [0xB6, 0x10] (.ldx (.zpy 0x10)) ∧
    decodes [0xA0, 0xFF] (.ldy (.imm 0xFF)) ∧
    decodes [0xBC, 0xFF, 0xFF] (.ldy (.abx 0xFFFF)) := by
  decide

/-- STA, STX, STY. -/
theorem test_decode_stores :
    decodes [0x8D, 0x00, 0x03] (.sta (.abs 0x0300)) ∧
    decodes [0x91, 0x10] (.sta (.izy 0x10)) ∧
    decodes [0x96, 0x10] (.stx (.zpy 0x10)) ∧
    decodes [0x94, 0x10] (.sty (.zpx 0x10)) := by
  decide

/-- The transfers. -/
theorem test_decode_transfers :
    decodes [0xAA] (.tax) ∧
    decodes [0xA8] (.tay) ∧
    decodes [0x8A] (.txa) ∧
    decodes [0x98] (.tya) ∧
    decodes [0xBA] (.tsx) ∧
    decodes [0x9A] (.txs) := by
  decide

/-- The stack instructions. -/
theorem test_decode_stack :
    decodes [0x48] (.pha) ∧
    decodes [0x08] (.php) ∧
    decodes [0x68] (.pla) ∧
    decodes [0x28] (.plp) := by
  decide

/-- Arithmetic, logic, compare, increment, decrement. -/
theorem test_decode_arithmetic :
    decodes [0x69, 0x01] (.adc (.imm 0x01)) ∧
    decodes [0x61, 0x10] (.adc (.izx 0x10)) ∧
    decodes [0xE9, 0x01] (.sbc (.imm 0x01)) ∧
    decodes [0x29, 0x3C] (.and (.imm 0x3C)) ∧
    decodes [0x09, 0x80] (.ora (.imm 0x80)) ∧
    decodes [0x49, 0xFF] (.eor (.imm 0xFF)) ∧
    decodes [0x2C, 0x00, 0x30] (.bit (.abs 0x3000)) ∧
    decodes [0x24, 0x10] (.bit (.zp 0x10)) ∧
    decodes [0xC9, 0xA0] (.cmp (.imm 0xA0)) ∧
    decodes [0xE0, 0x20] (.cpx (.imm 0x20)) ∧
    decodes [0xC0, 0x05] (.cpy (.imm 0x05)) ∧
    decodes [0xFE, 0xFF, 0x20] (.inc (.abx 0x20FF)) ∧
    decodes [0xC6, 0x10] (.dec (.zp 0x10)) ∧
    decodes [0xE8] (.inx) ∧
    decodes [0xC8] (.iny) ∧
    decodes [0xCA] (.dex) ∧
    decodes [0x88] (.dey) := by
  decide

/-- Shifts and rotates, on A and on memory. -/
theorem test_decode_shifts :
    decodes [0x0A] (.asl .acc) ∧
    decodes [0x0E, 0x00, 0x30] (.asl (.abs 0x3000)) ∧
    decodes [0x4A] (.lsr .acc) ∧
    decodes [0x46, 0x10] (.lsr (.zp 0x10)) ∧
    decodes [0x2A] (.rol .acc) ∧
    decodes [0x36, 0x10] (.rol (.zpx 0x10)) ∧
    decodes [0x6A] (.ror .acc) ∧
    decodes [0x7E, 0x00, 0x30] (.ror (.abx 0x3000)) := by
  decide

/-- Control transfer, break and return. -/
theorem test_decode_control :
    decodes [0x4C, 0x00, 0x80] (.jmp (.abs 0x8000)) ∧
    decodes [0x6C, 0xFF, 0x10] (.jmp (.ind 0x10FF)) ∧
    decodes [0x20, 0x34, 0x12] (.jsr 0x1234) ∧
    decodes [0x60] (.rts) ∧
    decodes [0x10, 0x02] (.bpl 0x02) ∧
    decodes [0x30, 0x02] (.bmi 0x02) ∧
    decodes [0x50, 0xFE] (.bvc 0xFE) ∧
    decodes [0x70, 0x10] (.bvs 0x10) ∧
    decodes [0x90, 0x80] (.bcc 0x80) ∧
    decodes [0xB0, 0x7F] (.bcs 0x7F) ∧
    decodes [0xD0, 0xFB] (.bne 0xFB) ∧
    decodes [0xF0, 0x01] (.beq 0x01) ∧
    decodes [0x00] (.brk) ∧
    decodes [0x40] (.rti) ∧
    decodes [0xEA] (.nop) := by
  decide

/-- The flag instructions. -/
theorem test_decode_flags :
    decodes [0x18] (.clc) ∧
    decodes [0xD8] (.cld) ∧
    decodes [0x58] (.cli) ∧
    decodes [0xB8] (.clv) ∧
    decodes [0x38] (.sec) ∧
    decodes [0xF8] (.sed) ∧
    decodes [0x78] (.sei) := by
  decide

/-- Unimplemented slots are one byte long, whatever follows (R106). -/
theorem test_decode_unimplemented :
    decodes [0x02] (.unimplemented 0x02) ∧
    decodes [0xFF] (.unimplemented 0xFF) ∧
    decodes [0x80] (.unimplemented 0x80) := by
  decide

/-- What is missing is named; the bytes after an instruction are left (R100, R102). -/
theorem test_decode_lengths :
    decode [] = .error .noBytes ∧ decode [0xAD, 0x34] = .error (.truncated 0xAD) ∧
    decode [0xA9] = .error (.truncated 0xA9) ∧ decode [0x00, 0x02] = .ok (.brk, [0x02]) ∧
    decode [0x4C, 0x00, 0x80, 0xEA] = .ok (.jmp (.abs 0x8000), [0xEA]) := by
  decide

/-- The words of the opcode table: the first byte is bits 7..0, operand bits above the row's are zero. -/
theorem test_decodeTableWord :
    decodeTableWord 8 0xEA = some .nop ∧ decodeTableWord 24 0x12348D = some (.sta (.abs 0x1234)) ∧
    decodeTableWord 8 0xA9 = some (.lda (.imm 0x00)) ∧ decodeTableWord 8 0x02 = some (.unimplemented 0x02) := by
  decide

/-! ### One step of each instruction -/

/-- LS1. -/
theorem test_lda_zero :
    onNext (fun t => t.regs.a == 0x00 && getByte t.regs.p == 0x02 && t.budget.total == 2)
     
        (loaded 0x0200 [0xA9, 0x00] [] { clear with a := 0x55, p := flags 0x80 }) = true := by
  decide

/-- AM8: the sum wraps to 0000 and counts as a crossing. -/
theorem test_lda_abx_wraps :
    onNext (fun t => t.regs.a == 0x99 && t.regs.adl == 0x0000 && t.budget.total == 5 &&
      t.cyc.trace == [⟨false, 0x0200, 0xBD⟩, ⟨false, 0x0201, 0xFF⟩, ⟨false, 0x0202, 0xFF⟩, ⟨false, 0x0000, 0x99⟩])
     
        (loaded 0x0200 [0xBD, 0xFF, 0xFF] [(0x0, 0x99)] { clear with x := 0x01 }) = true := by
  decide

/-- LS2. -/
theorem test_ldx_immediate :
    onNext (fun t => t.regs.x == 0x80 && getByte t.regs.p == 0x80 && t.budget.total == 2)
     
        (loaded 0x0200 [0xA2, 0x80] [] clear) = true := by
  decide

/-- LS4. -/
theorem test_ldx_aby_crossing :
    onNext (fun t => t.regs.x == 0x00 && getByte t.regs.p == 0x02 && t.budget.total == 5)
     
        (loaded 0x0200 [0xBE, 0xFF, 0x20] [] { clear with y := 0x01, x := 0x44 }) = true := by
  decide

/-- LS3. -/
theorem test_ldy_immediate :
    onNext (fun t => t.regs.y == 0x01 && getByte t.regs.p == 0x00 && t.budget.total == 2)
     
        (loaded 0x0200 [0xA0, 0x01] [] clear) = true := by
  decide

/-- AM10: crosses, but STA has no page-cross flag; the address is not read. -/
theorem test_sta_abx :
    onNext (fun t => t.mem.get 0x2100 == 0x42 && t.regs.adl == 0x2100 && t.budget.total == 5 &&
      t.cyc.trace == [⟨false, 0x0200, 0x9D⟩, ⟨false, 0x0201, 0xFF⟩, ⟨false, 0x0202, 0x20⟩, ⟨true, 0x2100, 0x42⟩])
     
        (loaded 0x0200 [0x9D, 0xFF, 0x20] [] { clear with x := 0x01, a := 0x42 }) = true := by
  decide

/-- LS5: the sum wraps in page 0. -/
theorem test_stx_zpy :
    onNext (fun t => t.mem.get 0xF == 0x07 && getByte t.regs.p == 0x00 && t.budget.total == 4)
     
        (loaded 0x0200 [0x96, 0x10] [] { clear with x := 0x07, y := 0xFF }) = true := by
  decide

/-- LS6. -/
theorem test_sty_zp :
    onNext (fun t => t.mem.get 0x20 == 0x01 && t.budget.total == 3)
     
        (loaded 0x0200 [0x84, 0x20] [] { clear with y := 0x01 }) = true := by
  decide

/-- LS7. -/
theorem test_tax :
    onNext (fun t => t.regs.x == 0x00 && getByte t.regs.p == 0x02 && t.budget.total == 2)
     
        (loaded 0x0200 [0xAA] [] { clear with x := 0x12 }) = true := by
  decide

/-- LS8. -/
theorem test_tay :
    onNext (fun t => t.regs.y == 0x90 && getByte t.regs.p == 0x80 && t.budget.total == 2)
     
        (loaded 0x0200 [0xA8] [] { clear with a := 0x90 }) = true := by
  decide

/-- LS9. -/
theorem test_txa :
    onNext (fun t => t.regs.a == 0x01 && getByte t.regs.p == 0x00 && t.budget.total == 2)
     
        (loaded 0x0200 [0x8A] [] { clear with x := 0x01, a := 0xFF }) = true := by
  decide

/-- LS10. -/
theorem test_tya :
    onNext (fun t => t.regs.a == 0xFF && getByte t.regs.p == 0x80 && t.budget.total == 2)
     
        (loaded 0x0200 [0x98] [] { clear with y := 0xFF }) = true := by
  decide

/-- LS11. -/
theorem test_tsx :
    onNext (fun t => t.regs.x == 0xFD && getByte t.regs.p == 0x80 && t.budget.total == 2)
     
        (loaded 0x0200 [0xBA] [] clear) = true := by
  decide

/-- LS12: no flag is set. -/
theorem test_txs :
    onNext (fun t => t.regs.sp == 0x00 && getByte t.regs.p == 0x00 && t.budget.total == 2)
     
        (loaded 0x0200 [0x9A] [] clear) = true := by
  decide

/-- ST2. -/
theorem test_pha_wraps :
    onNext (fun t => t.regs.sp == 0xFF && t.budget.total == 3 &&
      t.cyc.trace == [⟨false, 0x0200, 0x48⟩, ⟨true, 0x0100, 0x44⟩])
     
        (loaded 0x0200 [0x48] [] { clear with a := 0x44, sp := 0x00 }) = true := by
  decide

/-- ST3. -/
theorem test_php_forces_bits :
    onNext (fun t => t.regs.sp == 0xFC && getByte t.regs.p == 0xC3 && t.budget.total == 3 &&
      t.cyc.trace == [⟨false, 0x0200, 0x08⟩, ⟨true, 0x01FD, 0xF3⟩])
     
        (loaded 0x0200 [0x08] [] { clear with p := flags 0xC3 }) = true := by
  decide

/-- ST4. -/
theorem test_php_stored_bits :
    onNext (fun t => t.regs.sp == 0xFC && getByte t.regs.p == 0x30 &&
      t.cyc.trace == [⟨false, 0x0200, 0x08⟩, ⟨true, 0x01FD, 0x30⟩])
     
        (loaded 0x0200 [0x08] [] { clear with p := flags 0x30 }) = true := by
  decide

/-- ST5. -/
theorem test_pla_zero :
    onNext (fun t => t.regs.a == 0x00 && getByte t.regs.p == 0x02 && t.regs.sp == 0xFD && t.budget.total == 4)
     
        (loaded 0x0200 [0x68] [] { clear with a := 0x33, sp := 0xFC }) = true := by
  decide

/-- ST6. -/
theorem test_pla_wraps :
    onNext (fun t => t.regs.a == 0x80 && getByte t.regs.p == 0x80 && t.regs.sp == 0x00 && t.budget.total == 4)
     
        (loaded 0x0200 [0x68] [(0x100, 0x80)] { clear with sp := 0xFF }) = true := by
  decide

/-- ST7. -/
theorem test_plp_sets :
    onNext (fun t => getByte t.regs.p == 0xCF && t.regs.sp == 0xFD && t.budget.total == 4)
     
        (loaded 0x0200 [0x28] [(0x1FD, 0xFF)] { clear with sp := 0xFC }) = true := by
  decide

/-- ST8. -/
theorem test_plp_keeps_u_b :
    onNext (fun t => getByte t.regs.p == 0x30 && t.regs.sp == 0xFD && t.budget.total == 4)
     
        (loaded 0x0200 [0x28] [] { clear with sp := 0xFC, p := flags 0x30 }) = true := by
  decide

/-- S4. -/
theorem test_adc_overflow :
    onNext (fun t => t.regs.a == 0xA0 && getByte t.regs.p == 0xC0 && t.regs.pc == 0x0202 &&
      t.budget.total == 2 && t.cyc.trace == [⟨false, 0x0200, 0x69⟩, ⟨false, 0x0201, 0x50⟩])
     
        (loaded 0x0200 [0x69, 0x50] [] { clear with a := 0x50 }) = true := by
  decide

/-- AR3. -/
theorem test_adc_carry :
    onNext (fun t => t.regs.a == 0x00 && getByte t.regs.p == 0x43 && t.budget.total == 2)
     
        (loaded 0x0200 [0x69, 0x80] [] { clear with a := 0x80 }) = true := by
  decide

/-- AR5. -/
theorem test_sbc_overflow :
    onNext (fun t => t.regs.a == 0x7F && getByte t.regs.p == 0x41 && t.budget.total == 2)
     
        (loaded 0x0200 [0xE9, 0x01] [] { clear with a := 0x80, p := flags 0x01 }) = true := by
  decide

/-- AR6. -/
theorem test_sbc_borrow :
    onNext (fun t => t.regs.a == 0xFF && getByte t.regs.p == 0x80 && t.budget.total == 2)
     
        (loaded 0x0200 [0xE9, 0x00] [] clear) = true := by
  decide

/-- AR11. -/
theorem test_and :
    onNext (fun t => t.regs.a == 0x00 && getByte t.regs.p == 0x02 && t.budget.total == 2)
     
        (loaded 0x0200 [0x29, 0x00] [] { clear with a := 0xFF }) = true := by
  decide

/-- AR12. -/
theorem test_ora :
    onNext (fun t => t.regs.a == 0x81 && getByte t.regs.p == 0x80 && t.budget.total == 2)
     
        (loaded 0x0200 [0x09, 0x80] [] { clear with a := 0x01 }) = true := by
  decide

/-- AR13. -/
theorem test_eor :
    onNext (fun t => t.regs.a == 0x00 && getByte t.regs.p == 0x02 && t.budget.total == 2)
     
        (loaded 0x0200 [0x49, 0xFF] [] { clear with a := 0xFF }) = true := by
  decide

/-- AR14. -/
theorem test_bit_abs :
    onNext (fun t => t.regs.a == 0x3F && getByte t.regs.p == 0xC2 && t.budget.total == 4)
     
        (loaded 0x0200 [0x2C, 0x00, 0x30] [(0x3000, 0xC0)] { clear with a := 0x3F }) = true := by
  decide

/-- AR15. -/
theorem test_bit_zp :
    onNext (fun t => t.regs.a == 0x40 && getByte t.regs.p == 0x40 && t.budget.total == 3)
     
        (loaded 0x0200 [0x24, 0x10] [(0x10, 0x40)] { clear with a := 0x40 }) = true := by
  decide

/-- AR16. -/
theorem test_cmp_less :
    onNext (fun t => t.regs.a == 0x50 && getByte t.regs.p == 0x80 && t.budget.total == 2)
     
        (loaded 0x0200 [0xC9, 0xA0] [] { clear with a := 0x50 }) = true := by
  decide

/-- AR17. -/
theorem test_cmp_unsigned :
    onNext (fun t => t.regs.a == 0x80 && getByte t.regs.p == 0x81 && t.budget.total == 2)
     
        (loaded 0x0200 [0xC9, 0x00] [] { clear with a := 0x80 }) = true := by
  decide

/-- AR19. -/
theorem test_cpx :
    onNext (fun t => t.regs.x == 0x10 && getByte t.regs.p == 0x80 && t.budget.total == 2)
     
        (loaded 0x0200 [0xE0, 0x20] [] { clear with x := 0x10 }) = true := by
  decide

/-- AR20. -/
theorem test_cpy :
    onNext (fun t => t.regs.y == 0x05 && getByte t.regs.p == 0x03 && t.budget.total == 2)
     
        (loaded 0x0200 [0xC0, 0x05] [] { clear with y := 0x05 }) = true := by
  decide

/-- AR22: one read, one write, no page-cross charge. -/
theorem test_inc_abx :
    onNext (fun t => getByte t.regs.p == 0x02 && t.budget.total == 7 &&
      t.cyc.trace == [⟨false, 0x0200, 0xFE⟩, ⟨false, 0x0201, 0xFF⟩, ⟨false, 0x0202, 0x20⟩,
      ⟨false, 0x2100, 0xFF⟩, ⟨true, 0x2100, 0x00⟩])
     
        (loaded 0x0200 [0xFE, 0xFF, 0x20] [(0x2100, 0xFF)] { clear with x := 0x01 }) = true := by
  decide

/-- AR23. -/
theorem test_inc_keeps_carry :
    onNext (fun t => t.mem.get 0x10 == 0x80 && getByte t.regs.p == 0x81 && t.budget.total == 5)
     
        (loaded 0x0200 [0xE6, 0x10] [(0x10, 0x7F)] { clear with p := flags 0x01 }) = true := by
  decide

/-- AR24. -/
theorem test_dec :
    onNext (fun t => t.mem.get 0x10 == 0xFF && getByte t.regs.p == 0x80 && t.budget.total == 5)
     
        (loaded 0x0200 [0xC6, 0x10] [] clear) = true := by
  decide

/-- AR25. -/
theorem test_inx :
    onNext (fun t => t.regs.x == 0x00 && getByte t.regs.p == 0x02 && t.budget.total == 2)
     
        (loaded 0x0200 [0xE8] [] { clear with x := 0xFF }) = true := by
  decide

/-- AR26. -/
theorem test_iny :
    onNext (fun t => t.regs.y == 0x80 && getByte t.regs.p == 0x80 && t.budget.total == 2)
     
        (loaded 0x0200 [0xC8] [] { clear with y := 0x7F }) = true := by
  decide

/-- AR27. -/
theorem test_dex :
    onNext (fun t => t.regs.x == 0xFF && getByte t.regs.p == 0x80 && t.budget.total == 2)
     
        (loaded 0x0200 [0xCA] [] clear) = true := by
  decide

/-- AR28. -/
theorem test_dey :
    onNext (fun t => t.regs.y == 0x00 && getByte t.regs.p == 0x02 && t.budget.total == 2)
     
        (loaded 0x0200 [0x88] [] { clear with y := 0x01 }) = true := by
  decide

/-- AM13: no transaction, ADL unchanged. -/
theorem test_asl_acc :
    onNext (fun t => t.regs.a == 0x82 && getByte t.regs.p == 0x80 && t.regs.adl == 0x0000 &&
      t.budget.total == 2 && t.cyc.trace == [⟨false, 0x0200, 0x0A⟩])
     
        (loaded 0x0200 [0x0A] [] { clear with a := 0x41 }) = true := by
  decide

/-- SH9. -/
theorem test_asl_abx :
    onNext (fun t => t.mem.get 0x2100 == 0x80 && getByte t.regs.p == 0x80 && t.budget.total == 7 &&
      t.cyc.trace == [⟨false, 0x0200, 0x1E⟩, ⟨false, 0x0201, 0xFF⟩, ⟨false, 0x0202, 0x20⟩,
      ⟨false, 0x2100, 0x40⟩, ⟨true, 0x2100, 0x80⟩])
     
        (loaded 0x0200 [0x1E, 0xFF, 0x20] [(0x2100, 0x40)] { clear with x := 0x01 }) = true := by
  decide

/-- SH4. -/
theorem test_lsr :
    onNext (fun t => t.regs.a == 0x00 && getByte t.regs.p == 0x03 && t.budget.total == 2)
     
        (loaded 0x0200 [0x4A] [] { clear with a := 0x01 }) = true := by
  decide

/-- SH5. -/
theorem test_rol :
    onNext (fun t => t.regs.a == 0x01 && getByte t.regs.p == 0x01 && t.budget.total == 2)
     
        (loaded 0x0200 [0x2A] [] { clear with a := 0x80, p := flags 0x01 }) = true := by
  decide

/-- SH7. -/
theorem test_ror_acc :
    onNext (fun t => t.regs.a == 0x80 && getByte t.regs.p == 0x81 && t.budget.total == 2)
     
        (loaded 0x0200 [0x6A] [] { clear with a := 0x01, p := flags 0x01 }) = true := by
  decide

/-- SH8. -/
theorem test_ror_abs :
    onNext (fun t => t.mem.get 0x3000 == 0x00 && getByte t.regs.p == 0x03 && t.budget.total == 6 &&
      t.cyc.trace == [⟨false, 0x0200, 0x6E⟩, ⟨false, 0x0201, 0x00⟩, ⟨false, 0x0202, 0x30⟩,
      ⟨false, 0x3000, 0x01⟩, ⟨true, 0x3000, 0x00⟩])
     
        (loaded 0x0200 [0x6E, 0x00, 0x30] [(0x3000, 0x01)] clear) = true := by
  decide

/-- CT1. -/
theorem test_jmp_abs :
    onNext (fun t => t.regs.pc == 0x8000 && t.budget.total == 3)
     
        (loaded 0x0200 [0x4C, 0x00, 0x80] [] clear) = true := by
  decide

/-- R129, a pointer that crosses no page. -/
theorem test_jmp_ind :
    onNext (fun t => t.regs.pc == 0x4050 && t.budget.total == 5 &&
      t.cyc.trace == [⟨false, 0x0200, 0x6C⟩, ⟨false, 0x0201, 0x34⟩, ⟨false, 0x0202, 0x10⟩,
      ⟨false, 0x1034, 0x50⟩, ⟨false, 0x1035, 0x40⟩])
     
        (loaded 0x0200 [0x6C, 0x34, 0x10] [(0x1034, 0x50), (0x1035, 0x40)] clear) = true := by
  decide

/-- CT2. -/
theorem test_jsr :
    onNext (fun t => t.regs.pc == 0x1234 && t.regs.sp == 0xFB && t.budget.total == 6 &&
      t.cyc.trace == [⟨false, 0x0200, 0x20⟩, ⟨false, 0x0201, 0x34⟩, ⟨false, 0x0202, 0x12⟩, ⟨true, 0x01FD, 0x02⟩,
      ⟨true, 0x01FC, 0x02⟩])
     
        (loaded 0x0200 [0x20, 0x34, 0x12] [] clear) = true := by
  decide

/-- CT4: the operand bytes are at FFFE and FFFF. -/
theorem test_jsr_wraps :
    onNext (fun t => t.regs.pc == 0x8000 && t.budget.total == 6 &&
      t.cyc.trace == [⟨false, 0xFFFD, 0x20⟩, ⟨false, 0xFFFE, 0x00⟩, ⟨false, 0xFFFF, 0x80⟩, ⟨true, 0x01FD, 0xFF⟩,
      ⟨true, 0x01FC, 0xFF⟩])
     
        (loaded 0xFFFD [0x20, 0x00, 0x80] [] clear) = true := by
  decide

/-- CT3. -/
theorem test_rts :
    onNext (fun t => t.regs.pc == 0x0203 && t.regs.sp == 0xFD && t.budget.total == 6 &&
      t.cyc.trace == [⟨false, 0x1234, 0x60⟩, ⟨false, 0x01FC, 0x02⟩, ⟨false, 0x01FD, 0x02⟩])
     
        (loaded 0x1234 [0x60] [(0x1FC, 0x02), (0x1FD, 0x02)] { clear with sp := 0xFB }) = true := by
  decide

/-- CT5. -/
theorem test_rts_wraps :
    onNext (fun t => t.regs.pc == 0x0000 && t.budget.total == 6)
     
        (loaded 0x0200 [0x60] [(0x1FC, 0xFF), (0x1FD, 0xFF)] { clear with sp := 0xFB }) = true := by
  decide

/-- CT6. -/
theorem test_bpl :
    onNext (fun t => t.regs.pc == 0x0204 && t.budget.total == 2)
     
        (loaded 0x0200 [0x10, 0x02] [] clear) = true := by
  decide

/-- CT7. -/
theorem test_bmi :
    onNext (fun t => t.regs.pc == 0x0202 && t.budget.total == 2)
     
        (loaded 0x0200 [0x30, 0x02] [] clear) = true := by
  decide

/-- CT8: a branch to itself. -/
theorem test_bvc :
    onNext (fun t => t.regs.pc == 0x0300 && t.budget.total == 2)
     
        (loaded 0x0300 [0x50, 0xFE] [] clear) = true := by
  decide

/-- CT9. -/
theorem test_bvs :
    onNext (fun t => t.regs.pc == 0x0212 && t.budget.total == 2)
     
        (loaded 0x0200 [0x70, 0x10] [] { clear with p := flags 0x40 }) = true := by
  decide

/-- CT10: offset -128, a crossing. -/
theorem test_bcc :
    onNext (fun t => t.regs.pc == 0x0182 && t.budget.total == 3)
     
        (loaded 0x0200 [0x90, 0x80] [] clear) = true := by
  decide

/-- CT11. -/
theorem test_bcs :
    onNext (fun t => t.regs.pc == 0x0281 && t.budget.total == 2)
     
        (loaded 0x0200 [0xB0, 0x7F] [] { clear with p := flags 0x01 }) = true := by
  decide

/-- CT12: ADL is computed but unused. -/
theorem test_bcs_not_taken :
    onNext (fun t => t.regs.pc == 0x0202 && t.regs.adl == 0x0207 && t.budget.total == 2)
     
        (loaded 0x0200 [0xB0, 0x05] [] clear) = true := by
  decide

/-- CT13. -/
theorem test_bne :
    onNext (fun t => t.regs.pc == 0x0202 && t.budget.total == 2)
     
        (loaded 0x0205 [0xD0, 0xFB] [] clear) = true := by
  decide

/-- CT14: no charge for a target that is not taken. -/
theorem test_bne_not_taken :
    onNext (fun t => t.regs.pc == 0x02F2 && t.budget.total == 2)
     
        (loaded 0x02F0 [0xD0, 0x7F] [] { clear with p := flags 0x02 }) = true := by
  decide

/-- CT15: a crossing. -/
theorem test_beq :
    onNext (fun t => t.regs.pc == 0x0300 && t.budget.total == 3)
     
        (loaded 0x02FD [0xF0, 0x01] [] { clear with p := flags 0x02 }) = true := by
  decide

/-- CT17. -/
theorem test_brk :
    onNext (fun t => t.regs.pc == 0x9000 && t.regs.sp == 0xFA && getByte t.regs.p == 0x24 &&
      t.budget.total == 7 &&
      t.cyc.trace == [⟨false, 0x0300, 0x00⟩, ⟨true, 0x01FD, 0x03⟩, ⟨true, 0x01FC, 0x02⟩, ⟨true, 0x01FB, 0x30⟩,
      ⟨false, 0xFFFE, 0x00⟩, ⟨false, 0xFFFF, 0x90⟩])
     
        (loaded 0x0300 [0x00] [(0xFFFF, 0x90)] { clear with p := flags 0x20 }) = true := by
  decide

/-- CT19: a device raises NMI while the status byte is pushed. -/
theorem test_brk_late_nmi :
    onNext (fun t => t.regs.pc == 0x9100 && t.budget.total == 7 && t.mem.get 0x1FB == 0x30 &&
      t.pending == { nmi := false, irq := false })
      (State.registerListener .clock true (.onAddress 0x01FB 0x01FB (.onLevel .rw false (.request .nmi)))
        (loaded 0x0300 [0x00] [(0xFFFF, 0x90), (0xFFFB, 0x91)] { clear with p := flags 0x20 })) = true := by
  decide

/-- R242 (D16): an NMI raised while the vector of an NMI is read is absorbed. -/
theorem test_brk_absorbs :
    onNext (fun t => t.regs.pc == 0x9100 && t.pending == { nmi := false, irq := true })
      (State.registerListener .clock true (.onAddress 0xFFFB 0xFFFB (.onLevel .rw true (.request .nmi)))
        (((loaded 0x0300 [0xEA] [(0xFFFB, 0x91)] clear).raiseRequest .nmi).raiseRequest .irq)) = true := by
  decide

/-- CT20: no fetch, bit 4 is 0, the request is cleared. -/
theorem test_forced_brk :
    onNext (fun t => t.regs.pc == 0x9000 && t.regs.sp == 0xFA && getByte t.regs.p == 0x24 &&
      t.budget.total == 7 &&
      t.cyc.trace == [⟨true, 0x01FD, 0x04⟩, ⟨true, 0x01FC, 0x00⟩, ⟨true, 0x01FB, 0x20⟩, ⟨false, 0xFFFE, 0x00⟩,
      ⟨false, 0xFFFF, 0x90⟩] && t.pending == { nmi := false, irq := false })
      (State.raiseRequest .irq
        (loaded 0x0400 [0x02] [(0xFFFF, 0x90)] { clear with p := flags 0x20 })) = true := by
  decide

/-- S7: NMI first, IRQ stays pending. -/
theorem test_forced_brk_priority :
    onNext (fun t => t.regs.pc == 0x9100 && t.regs.sp == 0xFA && getByte t.regs.p == 0x06 &&
      t.budget.total == 7 &&
      t.cyc.trace == [⟨true, 0x01FD, 0x02⟩, ⟨true, 0x01FC, 0x05⟩, ⟨true, 0x01FB, 0x02⟩, ⟨false, 0xFFFA, 0x00⟩,
      ⟨false, 0xFFFB, 0x91⟩] && t.pending == { nmi := false, irq := true })
      (State.raiseRequest .nmi (State.raiseRequest .irq
        (loaded 0x0205 [0xE6] [(0xFFFB,
        0x91)] { clear with p := flags 0x02 }))) = true := by
  decide

/-- CT22. -/
theorem test_rti :
    onNext (fun t => t.regs.pc == 0x8000 && t.regs.sp == 0xFF && getByte t.regs.p == 0xCF && t.budget.total == 6)
     
        (loaded 0x0200 [0x40] [(0x1FD, 0xFF), (0x1FF, 0x80)] { clear with sp := 0xFC }) = true := by
  decide

/-- CT23. -/
theorem test_nop :
    onNext (fun t => t.regs.pc == 0x0201 && t.regs.a == 0x00 && t.regs.x == 0x00 && t.regs.y == 0x00 &&
      t.regs.sp == 0xFD && getByte t.regs.p == 0x00 && t.budget.total == 2)
     
        (loaded 0x0200 [0xEA] [] clear) = true := by
  decide

/-- FL1. -/
theorem test_clc :
    onNext (fun t => getByte t.regs.p == 0xFE && t.budget.total == 2)
     
        (loaded 0x0200 [0x18] [] { clear with p := flags 0xFF }) = true := by
  decide

/-- FL2. -/
theorem test_sec :
    onNext (fun t => getByte t.regs.p == 0x01 && t.budget.total == 2)
     
        (loaded 0x0200 [0x38] [] { clear with p := flags 0x00 }) = true := by
  decide

/-- FL3. -/
theorem test_cld :
    onNext (fun t => getByte t.regs.p == 0xF7 && t.budget.total == 2)
     
        (loaded 0x0200 [0xD8] [] { clear with p := flags 0xFF }) = true := by
  decide

/-- FL4. -/
theorem test_sed :
    onNext (fun t => getByte t.regs.p == 0x08 && t.budget.total == 2)
     
        (loaded 0x0200 [0xF8] [] { clear with p := flags 0x00 }) = true := by
  decide

/-- FL5. -/
theorem test_cli :
    onNext (fun t => getByte t.regs.p == 0xFB && t.budget.total == 2)
     
        (loaded 0x0200 [0x58] [] { clear with p := flags 0xFF }) = true := by
  decide

/-- FL6, its first cycle. -/
theorem test_sei :
    onNext (fun t => getByte t.regs.p == 0x04 && t.budget.total == 2)
     
        (loaded 0x0200 [0x78] [] { clear with p := flags 0x00 }) = true := by
  decide

/-- FL7. -/
theorem test_clv :
    onNext (fun t => getByte t.regs.p == 0xBF && t.budget.total == 2)
     
        (loaded 0x0200 [0xB8] [] { clear with p := flags 0xFF }) = true := by
  decide

/-- FT1: PC = 0201, nothing charged, no clock LOW. -/
theorem test_unimplemented :
    onNext (fun t => t.regs.pc == 0x0201 && t.budget.total == 0 &&
      t.run == .fatal .unimplementedOpcode 0x02 0x0200 && t.wires.clock.level)
     
        (loaded 0x0200 [0x02] [] clear) = true := by
  decide

/-- FT1, R260: the step after a fatal cycle is a fault that names it. -/
theorem test_after_fatal :
    stops (.fatal .unimplementedOpcode 0x02 0x0200)
      { State.reset with run := .fatal .unimplementedOpcode 0x02 0x0200 } = true := by
  decide

/-! ### Addressing modes -/

/-- AM1. -/
theorem test_mode_zpx_wraps :
    onNext (fun t => t.regs.a == 0x77 && t.regs.adl == 0x0001 && t.budget.total == 4 &&
      t.cyc.trace == [⟨false, 0x0200, 0xB5⟩, ⟨false, 0x0201, 0xFF⟩, ⟨false, 0x0001, 0x77⟩])
     
        (loaded 0x0200 [0xB5, 0xFF] [(0x1, 0x77)] { clear with x := 0x02 }) = true := by
  decide

/-- AM9. -/
theorem test_mode_aby :
    onNext (fun t => t.regs.a == 0x80 && t.regs.adl == 0x2100 && t.budget.total == 5)
     
        (loaded 0x0200 [0xB9, 0x80, 0x20] [(0x2100, 0x80)] { clear with y := 0x80 }) = true := by
  decide

/-- R134, a pointer that crosses no page. -/
theorem test_mode_izx :
    onNext (fun t => t.regs.a == 0xAA && t.regs.adl == 0x1234 && t.budget.total == 6 &&
      t.cyc.trace == [⟨false, 0x0200, 0xA1⟩, ⟨false, 0x0201, 0x20⟩, ⟨false, 0x0021, 0x34⟩,
      ⟨false, 0x0022, 0x12⟩, ⟨false, 0x1234, 0xAA⟩])
     
        (loaded 0x0200 [0xA1, 0x20] [(0x21, 0x34), (0x22, 0x12), (0x1234,
        0xAA)] { clear with x := 0x01 }) = true := by
  decide

/-- R135: base 12F8 + 10 crosses. -/
theorem test_mode_izy_crosses :
    onNext (fun t => t.regs.a == 0xC1 && t.regs.adl == 0x1308 && t.budget.total == 6 &&
      t.cyc.trace == [⟨false, 0x0200, 0xB1⟩, ⟨false, 0x0201, 0x40⟩, ⟨false, 0x0040, 0xF8⟩,
      ⟨false, 0x0041, 0x12⟩, ⟨false, 0x1308, 0xC1⟩])
     
        (loaded 0x0200 [0xB1, 0x40] [(0x40, 0xF8), (0x41, 0x12), (0x1308,
        0xC1)] { clear with y := 0x10 }) = true := by
  decide

/-- AM12: ADL is the operand byte's address. -/
theorem test_mode_imm :
    onNext (fun t => t.regs.a == 0x80 && t.regs.adl == 0x0201 && getByte t.regs.p == 0x80 &&
      t.budget.total == 2 && t.cyc.trace == [⟨false, 0x0200, 0xA9⟩, ⟨false, 0x0201, 0x80⟩])
     
        (loaded 0x0200 [0xA9, 0x80] [] clear) = true := by
  decide

/-- AM2 to AM7: both readings of the two OPEN wrap parameters, at the pointers where they differ. -/
theorem test_wrap_parameters :
    zpPointerHigh true 0xFF = 0x0000 ∧ zpPointerHigh false 0xFF = 0x0100 ∧
    indPointerHigh true 0x10FF = 0x1000 ∧ indPointerHigh false 0x10FF = 0x1100 ∧
    zpPointerHigh true 0xFE = zpPointerHigh false 0xFE ∧ indPointerHigh true 0x10FE = indPointerHigh false 0x10FE := by
  decide

/-! ### Flags, lines, buses, reset -/

/-- S2. -/
theorem test_status_byte :
    fromByte 0xFF true (flags 0x00) = flags 0xCF ∧ fromByte 0xFF false (flags 0x00) = flags 0xFF ∧
    fromByte 0x00 true (flags 0xFF) = flags 0x30 ∧ getByte (flags 0xA5) = 0xA5 := by
  decide

/-- A machine whose line `n` has these listeners for a level, in this order. -/
def listening (n : LineName) (level : Bool) : List Reaction → State → State
  | [], s => s
  | r :: rs, s => listening n level rs (s.registerListener n level r)

/-- S1: every listener of the level, in order, whatever the level was (the last write to the data bus is the last call). -/
theorem test_level_triggered :
    onOk (fun t => t.wires.data.value == 0x02 && t.wires.irq.level)
      (setState .irq true (listening .irq true [.writeData (.const 1), .writeData (.const 2)] (State.reset.setLevel .irq true))) = true := by
  decide

/-- L1: the nested dispatch runs whole before the outer one goes on. -/
theorem test_nested_dispatch :
    onOk (fun t => t.wires.data.value == 0x09 && t.wires.addr.value == 0x0007)
      (setState .irq true (listening .irq true [.setLine .nmi true, .writeData (.const 9)]
        (listening .nmi true [.writeData (.const 5), .writeAddr (.const 7)] State.reset))) = true := by
  decide

/-- L2: a listener of HIGH drives the line LOW, and the line stays LOW. -/
theorem test_dispatch_reenters :
    onOk (fun t => t.wires.data.value == 0x06 && !t.wires.irq.level)
      (setState .irq true (listening .irq true [.setLine .irq false] (listening .irq false [.writeData (.const 6)] State.reset))) =
      true := by
  decide

/-- R63, R66: a listener reads the data bus, and drives a line or writes the address bus by what it read. -/
theorem test_listener_reads_data :
    let watcher := listening .irq true [.onData 0x80 0xFF (.setLine .nmi false), .writeAddr (.sum .data (.const 0x0100))]
      State.reset
    onOk (fun t => !t.wires.nmi.level && t.wires.addr.value == 0x0181) (setState .irq true (watcher.writeDataBus 0x81)) =
      true ∧
    onOk (fun t => t.wires.nmi.level && t.wires.addr.value == 0x017F) (setState .irq true (watcher.writeDataBus 0x7F)) =
      true := by
  decide

/-- R63: a callback reads once and then acts: the branch it takes is not undone by what it drives or stores. -/
theorem test_listener_branches_once :
    onOk (fun t => t.wires.data.value == 0x00 && !t.wires.nmi.level && t.byteAt 0x0040 == 0x0F)
      (setState .irq true ((listening .irq true
        [.branch .data 0x80 0xFF (.both (.writeData (.const 0)) (.both (.setLine .nmi false)
          (.store (.const 0x0040) (.bitAnd (.shiftRight .addr 4) (.const 0x0F))))) (.setLine .nmi true)]
        (State.reset.writeAddrBus 0x12F4)).writeDataBus 0x80)) = true := by
  decide

/-- R63: a finite dispatch completes, here 70 calls deep: each device line's listener drives the next line. -/
theorem test_deep_dispatch :
    onOk (fun t => t.wires.data.value == 0x5A)
      (setState (.device 0) true (install
        { Device.flatRam with
          listeners := (List.range 70).map (fun k => ⟨.device k, true, .setLine (.device (k + 1)) true⟩) ++
            [⟨.device 70, true, .writeData (.const 0x5A)⟩] } State.constructed)) = true := by
  set_option maxRecDepth 20000 in decide

/-- A decoder that drives the chip select, line 0, HIGH or LOW by the address, and a ROM that watches it. -/
def decoderAndRom : List Device :=
  [{ lines := [.device 0], contents := [], environment := false,
     listeners := [⟨.clock, true, .onAddress 0x0000 0x7FFF (.setLine (.device 0) false)⟩,
       ⟨.clock, true, .onAddress 0x8000 0xFFFF (.setLine (.device 0) true)⟩] },
   { lines := [.device 0], contents := [(0xFFFD, 0x80), (0x1234, 0x77)], environment := false,
     listeners := [⟨.clock, true, .onLevel (.device 0) true (.onLevel .rw true .ram)⟩] }]

/-- R75, R301: the ROM answers the vector reads, from its contents, and not what its chip select excludes. -/
theorem test_chip_select :
    onOk (fun t => t.regs.pc == 0x8000 && t.wires.device.length == 1 && (t.wires.line (.device 0)).level)
      (boot decoderAndRom Config.resetValues State.constructed) = true ∧
    onOk (fun t => t.wires.data.value == 0x80 && !(t.wires.line (.device 0)).level)
      ((boot decoderAndRom Config.resetValues State.constructed).bind fun _ s =>
        (memRead 0x1234 s).bind fun _ s => .ok () s) = true := by
  decide

/-- B1, B2. -/
theorem test_bus_masks :
    ((⟨0⟩ : Bus 8).write 0x1FF).read = 0xFF ∧ ((⟨0⟩ : Bus 16).write 0x12345).read = 0x2345 := by
  decide

/-- S3: `powerUp` with the word 1234 at the reset vector. -/
theorem test_powerUp :
    onOk (fun t => t.regs.sp == 0xFD && t.regs.pc == 0x1234 && t.pending == { nmi := false, irq := false } &&
        t.wires.clock.level && t.cyc.trace == [⟨false, 0xFFFC, 0x34⟩, ⟨false, 0xFFFD, 0x12⟩])
      (boot [{ Device.flatRam with contents := [(0xFFFC, 0x34), (0xFFFD, 0x12)] }] Config.resetValues
        (State.constructed.raiseRequest .nmi)) = true := by
  decide

/-! ### The scheduler -/

/-- SC1 with K = 3: the tick stores the credit, then releases; the gate clears the release without another look. -/
theorem test_tick :
    (tickerMove 3 State.reset).budget.credit = 3 ∧ (tickerMove 3 State.reset).sched.wake = false ∧
    (tickerMove 3 (tickerMove 3 State.reset)).sched.wake = true ∧
    (creditGate (tickerMove 3 (tickerMove 3 State.reset))).loop = .cycle := by
  decide

/-- SC2: a stale wake lets one cycle pass with credit -1, and is cleared. -/
theorem test_stale_wake :
    onNext (fun t => t.loop == .cycle && !t.sched.wake && t.budget.credit == -1)
      (((State.reset.setLoop .boundary).setCredit (-1)).setWake true) = true := by
  decide

/-- SC4: `stop` is seen at the boundary, before the gate; a blocked gate does not see it. -/
theorem test_stop :
    onNext (fun t => t.run == .stopped)
      ((State.reset.setLoop .boundary).setSched { State.reset.sched with stop := true, wake := true }) = true ∧
    stops .starved
      ((State.reset.setLoop .waiting).setSched { State.reset.sched with stop := true, ticking := false }) = true := by
  decide

/-- From reset: `runLoop` is called, the boundary, the wait, and then the ticker. -/
theorem test_from_reset :
    step State.reset = .next (State.reset.setLoop .boundary) ∧
    step (State.reset.setLoop .boundary) = .next (State.reset.setLoop .waiting) ∧
    step (State.reset.setLoop .waiting) = .next (tickerMove Config.creditPerTick (State.reset.setLoop .waiting)) := by
  exact ⟨rfl, rfl, rfl⟩

/-- `withFetchWord`: the very next step runs the instruction, here TXS and STA $0000. -/
theorem test_withFetchWord :
    onNext (fun t => t.regs.sp == 0x00 && t.regs.pc == 0x0001) (State.reset.withFetchWord 8 0x9A) = true ∧
    onNext (fun t => t.regs.pc == 0x0003 && t.budget.total == 4) (State.reset.withFetchWord 8 0x8D) = true := by
  decide

/-! ### Witnesses: for every obligation with hypotheses, a state and operands that meet them together -/

/-- Memory with bytes at both ends, in the stack page and at the vectors; every register at its largest; both decimal
and carry set. -/
def full : State :=
  loaded 0xFFFD [0xBD, 0xFF, 0xFF]
    [(0x0000, 0x99), (0x00FF, 0x34), (0x0100, 0x80), (0x01FF, 0xFF), (0x1234, 0xAA), (0xFFFA, 0x01), (0xFFFB, 0x91)]
    { clear with a := 0xFF, x := 0xFF, y := 0xFF, sp := 0x00, p := flags 0xFF }

/-- The same with every flag clear: binary arithmetic, no carry, every branch on a clear flag taken. -/
def full0 : State := full.setP (flags 0x00)

/-- Both are ready and at a cycle. -/
theorem witness_ready : full.ready ∧ full0.ready ∧ full.atCycle ∧ full0.atCycle ∧ State.reset.ready := by decide

/-- Every mode that an obligation speaks of is the mode of some well-formed instruction, at a largest operand. -/
def oneOf (is : List Instr) : Bool := is.all Instr.wellFormed

theorem witness_DecodeOfEncodeIsTheInstruction :
    oneOf [.jmp (.ind 0xFFFF), .lda (.imm 0xFF), .bne 0xFF, .jsr 0xFFFF, .brk, .unimplemented 0xFF] = true := by decide

theorem witness_EncodeOfDecodeGivesTheBytesBack :
    decode [0x6C, 0xFF, 0xFF, 0x00] = .ok (.jmp (.ind 0xFFFF), [0x00]) ∧
    decode [0xFF] = .ok (.unimplemented 0xFF, []) := by decide

theorem witness_PageCrossFlagOnExactlyTheListedSlots : (⟨0xBD, .lda, .abx, 3, 4, true⟩ : Descriptor) ∈ table := by
  decide

theorem witness_EverySlotIsChargedItsRow : (⟨0xF0, .beq, .rel, 2, 2, true⟩ : Descriptor) ∈ table := by decide

/-- A three-byte instruction whose last byte wraps to 0xFFFF. -/
theorem witness_StepExecutesTheDecodedInstruction :
    full.atCycle ∧ full.wires.isFlatRam ∧ full.pending = { nmi := false, irq := false } ∧
    decodes [full.byteAt full.regs.pc, full.byteAt (full.regs.pc + 1), full.byteAt (full.regs.pc + 2)]
      (.lda (.abx 0xFFFF)) = true := by decide

/-- NMI alone, IRQ alone and both, with P.I set and clear. -/
theorem witness_PendingRequestForcesBreakWithoutFetch :
    (full.raiseRequest .nmi).atCycle ∧ (full.raiseRequest .nmi).pending = { nmi := true, irq := false } ∧
    (full0.raiseRequest .irq).pending = { nmi := false, irq := true } ∧
    ((full.raiseRequest .irq).raiseRequest .nmi).pending = { nmi := true, irq := true } ∧
    (full.raiseRequest .nmi).regs.p.i = true ∧ (full0.raiseRequest .irq).regs.p.i = false := by decide

theorem witness_ResolutionByMode : full.wires.isFlatRam := by decide

theorem witness_LoadsTakeTheOperandAndSetNZ :
    full.ready ∧ oneOf [.lda (.imm 0xFF), .lda (.izy 0xFF), .ldx (.zpy 0xFF), .ldx (.aby 0xFFFF), .ldy (.abx 0xFFFF)] =
      true := by decide

theorem witness_StoresWriteTheEffectiveAddress :
    full.ready ∧ oneOf [.sta (.izx 0xFF), .sta (.aby 0xFFFF), .stx (.zpy 0xFF), .sty (.zpx 0xFF), .sty (.abs 0xFFFF)] =
      true := by decide

theorem witness_TransfersCopyARegister : full.ready := by decide
theorem witness_PushesWriteBelowTheStackPointer : full.ready ∧ full.regs.sp = 0x00 := by decide
theorem witness_PullsReadAboveTheStackPointer : (full.setSP 0xFF).ready ∧ (full.setSP 0xFF).regs.sp = 0xFF := by decide

/-- Binary and decimal, with and without carry. -/
theorem witness_AdcAddsWithCarry :
    full.ready ∧ full.regs.p.d = true ∧ full0.ready ∧ full0.regs.p.d = false ∧
    oneOf [.adc (.imm 0xFF), .adc (.izx 0xFF), .adc (.aby 0xFFFF)] = true := by decide

theorem witness_SbcSubtractsWithBorrow :
    full.ready ∧ full.regs.p.d = true ∧ full0.ready ∧ full0.regs.p.d = false ∧
    oneOf [.sbc (.imm 0xFF), .sbc (.izx 0xFF), .sbc (.aby 0xFFFF)] = true := by decide

theorem witness_OverflowMeansOutsideTheSignedRange : (flags 0x01).d = false ∧ (flags 0x00).d = false := by decide
theorem witness_SbcIsAdcOfTheComplement : (flags 0x01).d = false ∧ (flags 0x00).d = false := by decide

theorem witness_LogicCombinesTheOperandIntoA :
    full.ready ∧ oneOf [.and (.izy 0xFF), .ora (.abx 0xFFFF), .eor (.zpx 0xFF)] = true := by decide

theorem witness_BitTestsTheOperand : full.ready ∧ oneOf [.bit (.zp 0xFF), .bit (.abs 0xFFFF)] = true := by decide

/-- A well-formed and an ill-formed compare of each register. -/
theorem witness_ComparesSetFlagsOnly :
    full.ready ∧ oneOf [.cmp (.izy 0xFF), .cpx (.imm 0xFF), .cpy (.abs 0xFFFF)] = true ∧
    (Instr.cmp (.zpy 0xFF)).wellFormed = false ∧ (Instr.cpx (.abx 0xFFFF)).wellFormed = false ∧
    (Instr.cpy .imp).wellFormed = false := by decide

theorem witness_IncrementAndDecrementMemory :
    full.ready ∧ oneOf [.inc (.abx 0xFFFF), .inc (.zp 0xFF), .dec (.zpx 0xFF), .dec (.abs 0x0000)] = true := by decide

theorem witness_IncrementAndDecrementIndexRegisters : full.ready ∧ full.regs.x = 0xFF ∧ full.regs.y = 0xFF := by decide

/-- On A and on memory, with the carry set and clear. -/
theorem witness_ShiftsOfTheAccumulatorAndOfMemory :
    full.ready ∧ full.regs.p.c = true ∧ full0.ready ∧ full0.regs.p.c = false ∧
    oneOf [.asl .acc, .asl (.abx 0xFFFF), .lsr .acc, .lsr (.zp 0xFF), .rol .acc, .rol (.zpx 0xFF), .ror .acc,
      .ror (.abs 0xFFFF)] = true := by decide

theorem witness_JmpTakesTheEffectiveAddress :
    full.ready ∧ (Operand.abs 0xFFFF).mode = .abs ∧ (Operand.ind 0x10FF).mode = .ind ∧
    (Operand.imp).mode ≠ .abs ∧ (Operand.imp).mode ≠ .ind := by decide

theorem witness_JsrPushesTheReturnAddressLessOne : full.ready ∧ full.regs.sp = 0x00 := by decide
theorem witness_RtsPullsTheAddressAndAddsOne : (full.setSP 0xFE).ready := by decide

/-- With every flag set, and with every flag clear: each branch is taken in one and not in the other. -/
theorem witness_BranchesAreTakenOnTheirFlag : full.ready ∧ full0.ready := by decide

/-- A device that raises a request in one transaction. -/
def raising (a : Word) (rwLevel : Bool) (k : Interrupt) (s : State) : State :=
  s.registerListener .clock true (.onAddress a a (.onLevel .rw rwLevel (.request k)))

/-- An NMI raised in the last push, and either request raised in the read of each byte of each vector. -/
theorem witness_BreakAndInterruptEntry_raised :
    (raising (stackAddress (full.regs.sp - BitVec.ofNat 8 2)) Config.writeLevel .nmi full).wires.clock.onHigh =
      [.ram, .onAddress 0x01FE 0x01FE (.onLevel .rw false (.request .nmi))] ∧
    (raising 0xFFFE Config.readLevel .irq full).wires.clock.onHigh =
      [.ram, .onAddress 0xFFFE 0xFFFE (.onLevel .rw true (.request .irq))] ∧ full.pending.nmi = false ∧
    (raising 0xFFFB Config.readLevel .nmi (full.raiseRequest .nmi)).wires.clock.onHigh =
      [.ram, .onAddress (0xFFFA + 1) (0xFFFA + 1) (.onLevel .rw true (.request .nmi))] ∧
    (full.raiseRequest .nmi).pending.nmi = true ∧ full.ready := by decide

/-- A software BRK, and a forced one with each combination of requests. -/
theorem witness_BreakAndInterruptEntry :
    full.ready ∧ full.cyc.forced = false ∧ (full.beginCycle true).ready ∧ (full.beginCycle true).cyc.forced = true ∧
    ((full.beginCycle true).raiseRequest .nmi).ready ∧ ((full.beginCycle true).raiseRequest .irq).ready := by decide

theorem witness_RtiRestoresFlagsAndPc : (full.setSP 0xFD).ready := by decide
theorem witness_NopOnlyCharges : full.ready := by decide
theorem witness_FlagInstructionsChangeOneFlag : full.ready ∧ full0.ready := by decide

theorem witness_ImpliedOperandIsFatal :
    Instr.lda .imp ∈ [Instr.lda .imp, .ldx .imp, .ldy .imp, .adc .imp, .sbc .imp, .and .imp, .ora .imp, .eor .imp,
      .bit .imp, .inc .imp, .dec .imp, .asl .imp, .lsr .imp, .rol .imp, .ror .imp] := by decide

theorem witness_RtsReturnsFromJsr : full.ready ∧ (full.setSP 0xFF).ready := by decide
theorem witness_RtiReturnsFromAnEntry : full.ready ∧ (full.beginCycle true).ready := by decide

/-- Both requests, with P.I set. -/
theorem witness_IrqEntryNestsInNmiEntry :
    let s := (((full.setCredit 8).raiseRequest .nmi).raiseRequest .irq)
    s.ready ∧ s.atCycle ∧ s.pending = { nmi := true, irq := true } ∧ s.sched.stop = false ∧ s.sched.pause = false ∧
      8 ≤ s.budget.credit ∧ s.regs.p.i = true := by decide

theorem witness_StepKeepsMemoryCanonical : full.mem.wf = true ∧ ∃ t, step full = .next t := ⟨by decide, _, rfl⟩

theorem witness_StepKeepsUnusedAndBreakFlags :
    full.sched.turns.head? ≠ some .powerUp ∧ ∃ t, step full = .next t := ⟨by decide, _, rfl⟩

theorem witness_StepKeepsListenerLists : ∃ t, step full = .next t := ⟨_, rfl⟩

/-- A run that ended fatally. -/
def ended : State := full.setRun (.fatal .unimplementedOpcode 0xFF 0xFFFD)

/-- A machine with these turns listed. -/
def withTurns (turns : List Turn) (s : State) : State := s.setSched { s.sched with turns := turns }

/-- R296, R53, R46: `powerUp` is refused while `runLoop` runs; after a stop it leaves Running, with `runLoop` still to be
called; a fatal status stays. -/
theorem test_powerUp_turn :
    refuses .powerUpWhileRunning (withTurns [.powerUp] (State.reset.setLoop .boundary)) = true ∧
    onNext (fun t => t.run == .running && t.loop == .idle && t.regs.sp == 0xFD)
      (withTurns [.powerUp] ((full.setRun .stopped).setLoop .boundary)) = true ∧
    onNext (fun t => t.run == .fatal .unimplementedOpcode 0xFF 0xFFFD && t.regs.sp == 0xFD)
      (withTurns [.powerUp] ended) = true := by
  decide

/-- With no turn listed, with another agent's turn, and with `powerUp`. -/
theorem witness_FatalStatusIsFinal :
    ended.run = .fatal .unimplementedOpcode 0xFF 0xFFFD ∧ ended.sched.turns = [] ∧
    (∃ t, step (withTurns [.request .nmi] ended) = .next t) ∧
    (withTurns [.request .nmi] ended).sched.turns.head? ≠ some .powerUp ∧
    ∃ t, step (withTurns [.powerUp] ended) = .next t := by
  refine ⟨by decide, by decide, ⟨_, rfl⟩, by decide, ⟨_, rfl⟩⟩

theorem witness_OnlyUnimplementedOpcodesEndARunFatally :
    let s := loaded 0x0200 [0xFF] [] clear
    s.safe = true ∧ ∃ t, step s = .next t ∧ t.run = .fatal .unimplementedOpcode 0xFF 0x0200 :=
  ⟨by decide, _, rfl, by decide⟩

/-- Away from a cycle and at one, with both requests. -/
theorem witness_RequestsStayPendingUntilServed :
    let s := ((full.raiseRequest .nmi).raiseRequest .irq)
    s.pending = { nmi := true, irq := true } ∧ s.sched.turns.head? ≠ some .powerUp ∧ (∃ t, step s = .next t) ∧
    (s.setLoop .boundary).loop ≠ .cycle ∧ ∃ t, step (s.setLoop .boundary) = .next t := by
  refine ⟨by decide, by decide, ⟨_, rfl⟩, by decide, ⟨_, rfl⟩⟩

theorem witness_OtherAgentsTouchNoArchitecturalState :
    (withTurns [.ticker, .diagnostic] full).sched.turns = .ticker :: [.diagnostic] ∧ Turn.ticker ≠ .execution ∧
    Turn.ticker ≠ .powerUp ∧ (∃ t, step (withTurns [.ticker, .diagnostic] full) = .next t) ∧
    ∃ t, step (withTurns [.request .irq] full) = .next t :=
  ⟨by decide, by decide, by decide, ⟨_, rfl⟩, _, rfl⟩

/-- Two states that do differ. -/
theorem witness_AddressLatchIsUnobservable : SameButLatch full (full.setADL 0xFFFF) ∧ full ≠ full.setADL 0xFFFF :=
  ⟨rfl, by decide⟩

/-- Running, stopped and fatal. -/
theorem witness_PowerUpGivesTheResetState :
    full.wires.isFlatRam ∧ full.regs.sp ≠ 0xFD ∧ full.run = .running ∧
    (full.setRun .stopped).wires.isFlatRam ∧ (full.setRun .stopped).run = .stopped ∧
    ended.wires.isFlatRam ∧ ended.run = .fatal .unimplementedOpcode 0xFF 0xFFFD := by decide

theorem witness_StatusByteRoundTrip : 7 ∈ [7, 6, 3, 2, 1, 0] ∧ 0 ∈ [7, 6, 3, 2, 1, 0] := by decide

theorem witness_ReassertingListenerNeverCompletes :
    ((listening .irq true [.setLine .irq true, .ram] State.reset).wires.line .irq).listeners true =
      .setLine .irq true :: [.ram] := by decide

theorem witness_NestedDispatchRunsFirst :
    let s := listening .irq true [.setLine (.device 3) false, .writeData .addr]
      (listening (.device 3) false [.writeData (.const 5), .writeAddr .data] State.reset)
    LineName.irq ≠ .device 3 ∧ (s.wires.line .irq).listeners true = [.setLine (.device 3) false, .writeData .addr] ∧
    (s.wires.line (.device 3)).listeners false = [.writeData (.const 5), .writeAddr .data] := by decide

/-- A core line, and the last of four device lines; the fifth is not made. -/
theorem witness_DispatchIsLevelTriggeredAndOrdered :
    State.reset.mem.wf = true ∧ full.mem.wf = true ∧
    State.reset.wires.made .irq = true ∧ (State.reset.makeLine (.device 3)).wires.made (.device 3) = true ∧
    (State.reset.makeLine (.device 3)).wires.made (.device 4) = false := by decide

/-- A device with two lines and two listeners, one of them on a line of its own, and three bytes of memory, two of them
for one address. -/
def wired : Device :=
  { lines := [.device 1, .irq], listeners := [⟨.irq, true, .ram⟩, ⟨.device 2, false, .ram⟩],
    contents := [(0xFFFF, 0xFF), (0x0000, 0x01), (0xFFFF, 0x80)], environment := true }

theorem witness_ResetIsPowerUpOfConstruction :
    LineName.device 1 ∈ wired.lines ∧ ⟨.device 2, false, .ram⟩ ∈ wired.listeners ∧
    full.mem.wf = true ∧ (∀ c ∈ wired.contents, c.1 ≠ 0x1234) ∧
    wired.contents = [(0xFFFF, 0xFF)] ++ (0x0000, 0x01) :: [(0xFFFF, 0x80)] ∧
    (∀ c ∈ [((0xFFFF : Word), (0x80 : Byte))], c.1 ≠ 0x0000) ∧
    wired.contents = [(0xFFFF, 0xFF), (0x0000, 0x01)] ++ (0xFFFF, 0x80) :: [] ∧
    ∀ c ∈ ([] : List (Word × Byte)), c.1 ≠ 0xFFFF :=
  ⟨by decide, by decide, by decide, by simp [wired], rfl, by simp, rfl, by simp⟩

/-- Each byte is stored, and the last one where two are for one address. -/
theorem test_powerUpDevice :
    (powerUpDevice wired full).byteAt 0x0000 = 0x01 ∧ (powerUpDevice wired full).byteAt 0xFFFF = 0x80 := by decide

theorem witness_RegistrationDuringDispatchIsRefused :
    ((listening .clock false [.register .irq true .ram] State.reset).wires.line .clock).listeners false =
      .register .irq true .ram :: [] := by decide

/-- A machine in which no device answers. -/
def deviceless : State := full.setWires { full.wires with clock := Line.unlistened }

/-- Machines in which `runLoop` is not called yet: with a listener of clock HIGH that re-asserts it,
and with one that registers a listener. -/
def reasserting : State := (listening .clock true [.setLine .clock true] deviceless).setLoop .idle
def registering : State := (listening .clock true [.register .irq true .ram] deviceless).setLoop .idle

theorem reasserting_hangs (depth : Nat) : ∀ s : State, s.wires.clock.onHigh = [.setLine .clock true] →
    setStateWithin depth .clock true s = .fault .dispatchUnbounded := by
  induction depth with
  | zero => exact fun _ _ => rfl
  | succ d ih =>
    intro s h
    show dispatch (setStateWithin d) s.wires.clock.onHigh (s.setLevel .clock true) = _
    rw [h]
    show (setStateWithin d .clock true (s.setLevel .clock true)).bind _ = _
    rw [ih (s.setLevel .clock true) h]
    rfl

theorem reasserting_powerUp :
    powerUp Config.resetValues (withTurns [.ticker] reasserting) = .fault .dispatchUnbounded := by
  unfold powerUp readWord readPair memRead
  dsimp only
  rw [setState_unlistened (by rfl), Res.bind_ok, setState, reasserting_hangs _ _ rfl]
  rfl

/-- The turn, for each clause: while `runLoop` runs; before it is called; after a run; and where the read of the reset
vector hangs or is refused. -/
theorem witness_PowerUpGivesTheResetState_turn :
    (withTurns [.powerUp, .ticker] full).sched.turns = .powerUp :: [.ticker] ∧ full.run = .running ∧ full.loop ≠ .idle ∧
    State.reset.loop = .idle ∧ (∃ t, powerUp Config.resetValues (withTurns [.ticker] State.reset) = .ok () t) ∧
    (full.setRun .stopped).run ≠ .running ∧
    (∃ t, powerUp Config.resetValues (withTurns [.ticker] (full.setRun .stopped)) = .ok () t) ∧
    reasserting.loop = .idle ∧
    powerUp Config.resetValues (withTurns [.ticker] reasserting) = .fault .dispatchUnbounded ∧
    registering.loop = .idle ∧
    powerUp Config.resetValues (withTurns [.ticker] registering) = .refused .registrationDuringDispatch :=
  ⟨rfl, rfl, by decide, rfl, ⟨_, rfl⟩, by decide, ⟨_, rfl⟩, rfl, reasserting_powerUp, rfl, rfl⟩

theorem witness_UndrivenReadGivesTheLastDataBusValue :
    deviceless.wires.rw.onHigh = [] ∧ deviceless.wires.clock.onHigh = [] := by decide

/-- A machine whose environment answers every transaction. -/
def answered : State := listening .clock true [.responder] deviceless

theorem witness_ResponderAnswersTheTransaction :
    answered.wires.rw.onHigh = [] ∧ answered.wires.rw.onLow = [] ∧ answered.wires.clock.onHigh = [.responder] := by decide

theorem witness_TickStoresCreditThenReleases :
    (withTurns [.ticker, .ticker] full).sched.turns = .ticker :: .ticker :: [] ∧
    (withTurns [.ticker, .ticker] full).sched.ticking = true ∧
    (withTurns [.ticker, .ticker] full).sched.ticker = .idle := by decide

/-- Boundaries: with neither flag, with `stop`, and with `pause`. -/
def starting : State := State.reset.setLoop .boundary
def stopping : State := starting.setSched { State.reset.sched with stop := true }
def pausing : State := starting.setSched { State.reset.sched with pause := true }

/-- Before `runLoop` is called, and at the boundary, for each clause. -/
theorem witness_RunLoopOrder :
    State.reset.run = .running ∧ State.reset.sched.turns = [] ∧ State.reset.loop = .idle ∧
    starting.run = .running ∧ starting.sched.turns = [] ∧ starting.loop = .boundary ∧
    starting.sched.stop = false ∧ starting.sched.pause = false ∧
    stopping.run = .running ∧ stopping.sched.turns = [] ∧ stopping.loop = .boundary ∧ stopping.sched.stop = true ∧
    pausing.run = .running ∧ pausing.sched.turns = [] ∧ pausing.sched.stop = false ∧ pausing.sched.pause = true := by
  decide

/-- The gate with credit, with a release and with neither; a hold and its end; a wait with a release and without. -/
theorem witness_RunLoopOrder_gate :
    1 ≤ (State.reset.setCredit 1).budget.credit ∧ State.reset.budget.credit < 1 ∧
    (State.reset.setWake true).sched.wake = true ∧ State.reset.sched.wake = false ∧
    (pausing.setLoop .held).sched.pause = true ∧ (State.reset.setLoop .held).sched.pause = false ∧
    ((State.reset.setLoop .waiting).setWake true).sched.wake = true ∧
    ((State.reset.setLoop .waiting).setSched { State.reset.sched with ticking := false }).sched.ticking = false := by
  decide

theorem witness_DiagnosticReadsAndResetsTotal :
    (withTurns [.diagnostic, .ticker] full).sched.turns = .diagnostic :: [.ticker] := by decide

theorem creditPerTick_nonneg : 0 ≤ Config.creditPerTick := Int.natCast_nonneg _

theorem witness_CreditStaysWithinTheGrant :
    full.budget.credit ≤ Config.creditPerTick ∧ ∃ t, step full = .next t := ⟨creditPerTick_nonneg, _, rfl⟩

/-- One period: a tick.1 has been, and a cycle follows. -/
theorem witness_ChargesStayWithinTheTicks_period :
    let s := (full.setCredit Config.creditPerTick).setSched { full.sched with ticker := .granted }
    s.sched.ticker = .granted ∧ s.budget.credit = Config.creditPerTick ∧
    ∃ t, step s = .next t ∧ s.sched.turns.head? ≠ some .diagnostic ∧
      ¬(s.sched.ticker = .idle ∧ t.sched.ticker = .granted) :=
  ⟨rfl, rfl, _, rfl, by decide, by decide⟩

/-- A cycle, and a tick.1. -/
theorem witness_ChargesStayWithinTheTicks :
    full.budget.credit ≤ Config.creditPerTick ∧ full.sched.turns.head? ≠ some .diagnostic ∧
    (∃ t, step full = .next t) ∧
    ∃ t, step (withTurns [.ticker] full) = .next t ∧ full.sched.ticker = .idle ∧ t.sched.ticker = .granted :=
  ⟨creditPerTick_nonneg, by decide, ⟨_, rfl⟩, _, rfl, by decide, by decide⟩

end Sys2Proof.Tests
end

section
/-! SUPPORT. What a listed turn of the ticker, the diagnostic agent, the host's flags or a raised request leaves
unchanged (R5, R42, R67), and O45 from it. -/

namespace Sys2Proof.Machine

/-- `t` is `s` but for the pending requests, which are `p`, the counters, and the scheduler's fields beside its list of
turns. -/
structure SameButBookkeeping (p : Pending) (s t : State) : Prop where
  regs : t.regs = s.regs
  mem : t.mem = s.mem
  wires : t.wires = s.wires
  env : t.env = s.env
  run : t.run = s.run
  loop : t.loop = s.loop
  cyc : t.cyc = s.cyc
  turns : t.sched.turns = s.sched.turns
  pending : t.pending = p

namespace SameButBookkeeping

theorem refl (s : State) : SameButBookkeeping s.pending s s := ⟨rfl, rfl, rfl, rfl, rfl, rfl, rfl, rfl, rfl⟩

theorem setSched (s : State) {d : Sched} (h : d.turns = s.sched.turns) :
    SameButBookkeeping s.pending s (s.setSched d) := ⟨rfl, rfl, rfl, rfl, rfl, rfl, rfl, h, rfl⟩

theorem setBudget_setSched (s : State) (b : Budget) {d : Sched} (h : d.turns = s.sched.turns) :
    SameButBookkeeping s.pending s ((s.setBudget b).setSched d) := ⟨rfl, rfl, rfl, rfl, rfl, rfl, rfl, h, rfl⟩

/-- Both phases of a tick (R281). -/
theorem tickerMove (k : Int) (s : State) : SameButBookkeeping s.pending s (tickerMove k s) := by
  unfold Machine.tickerMove
  split
  · exact setBudget_setSched s _ rfl
  · exact setSched s rfl

/-- The exchange of the cumulative counter (R289). -/
theorem diagnosticMove (s : State) : SameButBookkeeping s.pending s (diagnosticMove s) :=
  setBudget_setSched s _ rfl

theorem raiseRequest (k : Interrupt) (s : State) :
    SameButBookkeeping (s.raiseRequest k).pending s (s.raiseRequest k) where
  regs := State.raiseRequest_regs s k
  mem := State.raiseRequest_mem s k
  wires := State.raiseRequest_wires s k
  env := State.raiseRequest_env s k
  run := State.raiseRequest_run s k
  loop := State.raiseRequest_loop s k
  cyc := State.raiseRequest_cyc s k
  turns := congrArg Sched.turns (State.raiseRequest_sched s k)
  pending := rfl

end SameButBookkeeping

/-- The pending requests after a turn of an agent other than the execution agent (R265 (a)). -/
def Turn.pendingAfter (s : State) : Turn → Pending
  | .request k => (s.raiseRequest k).pending
  | _ => s.pending

/-- A turn of an agent beside the execution agent, `powerUp` excepted, is bookkeeping, whatever the state. -/
theorem takeTurn_sameButBookkeeping {s t : State} {turn : Turn} (notExecution : turn ≠ .execution)
    (notPowerUp : turn ≠ .powerUp) (h : takeTurn turn s = .next t) :
    SameButBookkeeping (turn.pendingAfter s) s t := by
  cases turn with
  | execution => exact absurd rfl notExecution
  | powerUp => exact absurd rfl notPowerUp
  | ticker =>
    cases Host.Outcome.next.inj h
    split
    · exact .tickerMove _ s
    · exact .refl s
  | diagnostic => exact Host.Outcome.next.inj h ▸ .diagnosticMove s
  | request k => exact Host.Outcome.next.inj h ▸ .raiseRequest k s
  | setStop v => exact Host.Outcome.next.inj h ▸ .setSched s rfl
  | setPause v => exact Host.Outcome.next.inj h ▸ .setSched s rfl
  | setTicking v => exact Host.Outcome.next.inj h ▸ .setSched s rfl

/-- A listed turn is taken off the list first. -/
theorem step_of_turns {s : State} {turn : Turn} {rest : List Turn} (h : s.sched.turns = turn :: rest) :
    step s = takeTurn turn (s.setSched { s.sched with turns := rest }) := by
  simp [step, h]

/-- Settles O45, by the turn's frame in the state whose list is one turn shorter. -/
theorem otherAgentsTouchNoArchitecturalState : Obligations.OtherAgentsTouchNoArchitecturalState := by
  unfold Obligations.OtherAgentsTouchNoArchitecturalState
  intro s t turn rest listed notExecution notPowerUp h
  rw [step_of_turns listed] at h
  obtain ⟨regs, mem, wires, env, run, loop, cyc, turns, pending⟩ :=
    takeTurn_sameButBookkeeping notExecution notPowerUp h
  refine ⟨regs, mem, wires, env, run, loop, cyc, turns, pending.trans ?_⟩
  cases turn with
  | request k => cases k <;> rfl
  | _ => rfl

end Sys2Proof.Machine
end

section
/-! SUPPORT. What the moves of the agents are, one equation per case: the forced and the fetched cycle, the end of a
cycle, the host's `powerUp`, the step at the boundary and past the gate; O8 from it. -/

namespace Sys2Proof.Machine

/-- The outcome of a move that goes on with `next` where an operation answers. -/
def Res.conclude {α : Type} (next : α → State → Host.Outcome State Fault Refusal) :
    Res α → Host.Outcome State Fault Refusal
  | .ok v s => next v s
  | .fatal s => .next s
  | .fault r => .fault r
  | .refused r => .refused r

theorem finish_eq_conclude (i : Instr) (r : Res Bool) :
    finish i r = (r.bind fun crossed s => setState .clock false (s.charge (i.cost crossed))).conclude
      fun _ s => .next (s.setLoop .boundary) := by
  unfold finish
  cases r.bind fun crossed s => setState .clock false (s.charge (i.cost crossed)) <;> rfl

theorem cycle_of_forced {s : State} (h : s.forced = true) : cycle s = exec .brk (s.beginCycle true) := by
  rw [cycle, h, if_pos rfl]

theorem cycle_of_not_forced {s : State} (h : s.forced = false) :
    cycle s = (fetch (s.beginCycle false)).conclude exec := by
  rw [cycle, h, if_neg Bool.false_ne_true]
  cases fetch (s.beginCycle false) <;> rfl

theorem powerUpTurn_of_looping {s : State} (h : s.looping = true) :
    powerUpTurn s = .refused .powerUpWhileRunning := by
  rw [powerUpTurn, h, if_pos rfl]

theorem powerUpTurn_of_not_looping {s : State} (h : s.looping = false) :
    powerUpTurn s = (powerUp Config.resetValues s).conclude fun _ s => .next (s.setLoop .idle) := by
  rw [powerUpTurn, h, if_neg Bool.false_ne_true]
  cases powerUp Config.resetValues s <;> rfl

/-- With no turn listed, a running execution agent that is not blocked moves. -/
theorem step_eq_executionMove {s : State} (turns : s.sched.turns = []) (running : s.run = .running)
    (free : s.blocked = false) : step s = executionMove s := by
  simp [step, turns, defaultTurn, running, free]

theorem step_of_atCycle {s : State} (h : s.atCycle) : step s = cycle s := by
  obtain ⟨running, loop, turns⟩ := h
  rw [step_eq_executionMove turns running (by rw [State.blocked, loop]), executionMove, loop]

/-- At the boundary with credit and neither `stop` nor `pause`, the execution agent passes the gate (R285, R287). -/
theorem step_boundary {s : State} (turns : s.sched.turns = []) (running : s.run = .running)
    (loop : s.loop = .boundary) (stop : s.sched.stop = false) (pause : s.sched.pause = false)
    (credit : 1 ≤ s.budget.credit) : step s = .next (s.setLoop .cycle) := by
  rw [step_eq_executionMove turns running (by rw [State.blocked, loop])]
  simp [executionMove, loop, stop, pause, creditGate, credit]

/-- Settles O8: the state is the one in which the forced cycle has begun. -/
theorem pendingRequestForcesBreakWithoutFetch : Obligations.PendingRequestForcesBreakWithoutFetch := by
  unfold Obligations.PendingRequestForcesBreakWithoutFetch
  intro s nmi irq i atCycle pending some _
  have forced : s.forced = true := by rw [State.forced, pending]; exact some
  exact ⟨s.beginCycle true, (step_of_atCycle atCycle).trans (cycle_of_forced forced), rfl, rfl, rfl, rfl, rfl⟩

end Sys2Proof.Machine
end

section
/-! SUPPORT. What a step other than `powerUp` keeps, whatever the wiring: P.U, P.B and a pending request (R41, R265,
R269), and a fatal run status (R46, R260); O40, O42 and O44 from it. -/

namespace Sys2Proof.Machine

/-- However a cycle ends, P.U and P.B are those of its start, and with both requests pending IRQ stays pending. -/
structure CycleKeeps (s t : State) : Prop where
  u : t.regs.p.u = s.regs.p.u
  b : t.regs.p.b = s.regs.p.b
  both : s.pending.nmi = true → s.pending.irq = true → t.pending.irq = true

theorem CycleEnds.keeps {i : Instr} {s t : State} (h : CycleEnds i s t) : CycleKeeps s t := by
  obtain ⟨u, crossed, v, kept, ended, rfl⟩ | ⟨u, kind, opcode, kept, rfl, -⟩ := h
  · exact ⟨(congrArg (·.p.u) ended.regs).trans kept.u, (congrArg (·.p.b) ended.regs).trans kept.b,
      fun nmi irq => ended.irq (kept.both nmi irq)⟩
  · exact ⟨kept.u, kept.b, kept.both⟩

theorem cycle_keeps {s t : State} (h : cycle s = .next t) : CycleKeeps s t := by
  obtain ⟨i, -, ends⟩ := cycle_cases h
  obtain ⟨u, b, both⟩ := ends.keeps
  exact ⟨u, b, both⟩

/-- A step other than `powerUp` is a `cycle()`, or a move that leaves the architectural state alone. -/
theorem step_cycle_or_quiet {s t : State} (h : step s = .next t) (notPowerUp : s.sched.turns.head? ≠ some .powerUp) :
    (s.loop = .cycle ∧ CycleKeeps s t) ∨ Quiet s t := by
  obtain ⟨turns, ⟨-, loop, h⟩ | ⟨listed, -⟩ | ⟨-, quiet⟩⟩ := step_cases h
  · obtain ⟨u, b, both⟩ := cycle_keeps h
    exact .inl ⟨loop, u, b, both⟩
  · exact absurd (by rw [listed]; rfl) notPowerUp
  · exact .inr quiet

/-- Settles O40: a cycle keeps the two flags, and no other move changes a register. -/
theorem stepKeepsUnusedAndBreakFlags : Obligations.StepKeepsUnusedAndBreakFlags := by
  unfold Obligations.StepKeepsUnusedAndBreakFlags
  intro s t h notPowerUp
  obtain ⟨-, keeps⟩ | quiet := step_cycle_or_quiet h notPowerUp
  · exact ⟨keeps.u, keeps.b⟩
  · rw [quiet.regs]
    exact ⟨rfl, rfl⟩

/-- Settles O44: a cycle that starts with both pending serves NMI, and no other move clears a request. -/
theorem requestsStayPendingUntilServed : Obligations.RequestsStayPendingUntilServed := by
  unfold Obligations.RequestsStayPendingUntilServed
  intro s t h notPowerUp
  obtain ⟨atCycle, keeps⟩ | quiet := step_cycle_or_quiet h notPowerUp
  · exact ⟨fun away => absurd atCycle away, keeps.both⟩
  · exact ⟨fun _ => ⟨quiet.nmi, quiet.irq⟩, fun _ => quiet.irq⟩

/-- Where `powerUp` completes, its reads leave the run status that it has written (R46, R53). -/
theorem powerUp_run {v : Config.ResetValues} {s t : State} (h : powerUp v s = .ok () t) : t.run = s.run.poweredUp := by
  have all := powerUp_untouched v s
  rw [h] at all
  obtain ⟨u, target, reads, rfl⟩ := all
  exact reads.run

/-- From a fatal status a step is a `powerUp`, or a move that leaves the architectural state alone; the status stays. -/
theorem step_of_fatal {s t : State} {kind : FatalKind} {opcode : Byte} {address : Word}
    (fatal : s.run = .fatal kind opcode address) (h : step s = .next t) :
    t.run = s.run ∧ (s.sched.turns.head? = some .powerUp ∨ Quiet s t) := by
  obtain ⟨turns, ⟨running, -⟩ | ⟨listed, -, u, powered, rfl⟩ | ⟨-, quiet⟩⟩ := step_cases h
  · exact nomatch fatal.symm.trans running
  · have kept : s.run.poweredUp = s.run := by rw [fatal]; rfl
    exact ⟨(powerUp_run powered).trans kept, .inl (by rw [listed]; rfl)⟩
  · exact ⟨quiet.run.resolve_right fun stopped => (nomatch fatal.symm.trans stopped.1), .inr quiet⟩

/-- Settles O42. -/
theorem fatalStatusIsFinal : Obligations.FatalStatusIsFinal := by
  unfold Obligations.FatalStatusIsFinal
  intro s kind opcode address fatal
  refine ⟨fun none => by simp [step, none, defaultTurn, fatal], fun t h => ?_⟩
  obtain ⟨run, move⟩ := step_of_fatal fatal h
  refine ⟨run, by simp [State.safe, run, fatal], fun notPowerUp => ?_⟩
  have quiet := move.resolve_left notPowerUp
  exact ⟨quiet.regs, quiet.mem, quiet.wires⟩

end Sys2Proof.Machine
end

section
/-! SUPPORT. The address latch is written before it is read (R35, R124): an operation run in two states that differ in
the latch alone answers alike, and operand resolution forgets the latch in each mode after which a handler
reads it; O46 from it. -/

namespace Sys2Proof.Machine

/-- Two answers alike but for the address latch of the state. -/
inductive Res.Relatched {α : Type} : Res α → Res α → Prop where
  | ok (v : α) (s : State) (w : Word) : Relatched (.ok v s) (.ok v (s.setADL w))
  | fatal (s : State) (w : Word) : Relatched (.fatal s) (.fatal (s.setADL w))
  | fault (r : Fault) : Relatched (.fault r) (.fault r)
  | refused (r : Refusal) : Relatched (.refused r) (.refused r)

theorem Res.Relatched.refl {α : Type} : ∀ r : Res α, r.Relatched r
  | .ok v s => .ok v s s.regs.adl
  | .fatal s => .fatal s s.regs.adl
  | .fault r => .fault r
  | .refused r => .refused r

theorem Res.Relatched.bind {α β : Type} {r q : Res α} (h : r.Relatched q) {f g : α → State → Res β}
    (next : ∀ v s w, (f v s).Relatched (g v (s.setADL w))) : (r.bind f).Relatched (q.bind g) := by
  cases h with
  | ok v s w => exact next v s w
  | fatal s w => exact .fatal s w
  | fault r => exact .fault r
  | refused r => exact .refused r

/-- Where what comes next forgets the latch, nothing of the difference is left. -/
theorem Res.Relatched.bind_eq {α β : Type} {r q : Res α} (h : r.Relatched q)
    (notFatal : r.post (fun _ _ => True) NoFatal)
    {f g : α → State → Res β} (next : ∀ v s w, g v (s.setADL w) = f v s) : q.bind g = r.bind f := by
  cases h with
  | ok v s w => exact next v s w
  | fatal s w => exact notFatal.elim
  | fault r => rfl
  | refused r => rfl

/-- The operation does not look at the address latch. -/
def LatchBlind {α : Type} (op : State → Res α) : Prop := ∀ s w, (op s).Relatched (op (s.setADL w))

/-- What does not look at the registers does not look at the latch. -/
theorem latchBlind_of_withRegs {α : Type} {op : State → Res α}
    (h : ∀ (f : Regs → Regs) s, op (s.setRegs (f s.regs)) = (op s).withRegs f) : LatchBlind op := by
  intro s w
  have relatched : op (s.setADL w) = (op s).withRegs fun r => { r with adl := w } := h (fun r => { r with adl := w }) s
  rw [relatched]
  cases op s with
  | ok v t => exact .ok v t w
  | fatal t => exact .fatal t w
  | fault r => exact .fault r
  | refused r => exact .refused r

/-! ### Transactions, the stack, entry and return -/

theorem latchBlind_setState (n : LineName) (level : Bool) : LatchBlind (setState n level) :=
  latchBlind_of_withRegs fun f => setState_withRegs f n level

theorem latchBlind_memRead (a : Word) : LatchBlind (memRead a) := latchBlind_of_withRegs fun f => memRead_withRegs f a

theorem latchBlind_memWrite (a : Word) (v : Byte) : LatchBlind (memWrite a v) :=
  latchBlind_of_withRegs fun f => memWrite_withRegs f a v

theorem latchBlind_readPair (a b : Word) : LatchBlind (readPair a b) := fun s w =>
  (latchBlind_memRead a s w).bind fun _ s w => (latchBlind_memRead b s w).bind fun _ s w => .ok _ s w

theorem latchBlind_fetchByte : LatchBlind fetchByte := fun s w =>
  (latchBlind_memRead s.regs.pc s w).bind fun v s w => .ok v (s.setPC (s.regs.pc + 1)) w

theorem latchBlind_push (v : Byte) : LatchBlind (push v) := fun s w =>
  (latchBlind_memWrite (stackAddress s.regs.sp) v s w).bind fun _ s w => .ok () (s.setSP (s.regs.sp - 1)) w

theorem latchBlind_pull : LatchBlind pull := fun s w =>
  latchBlind_memRead (stackAddress (s.regs.sp + 1)) (s.setSP (s.regs.sp + 1)) w

theorem latchBlind_pushWord (v : Word) : LatchBlind (pushWord v) := fun s w =>
  (latchBlind_push (hi8 v) s w).bind fun _ => latchBlind_push (lo8 v)

theorem latchBlind_pullWord : LatchBlind pullWord := fun s w =>
  (latchBlind_pull s w).bind fun _ s w => (latchBlind_pull s w).bind fun _ s w => .ok _ s w

theorem latchBlind_clearRequest (k : Interrupt) : LatchBlind fun s => .ok () (s.clearRequest k) := fun s w => by
  cases k
  · exact .ok () (s.clearRequest .nmi) w
  · exact .ok () (s.clearRequest .irq) w

theorem latchBlind_interruptEntry (forced : Bool) : LatchBlind (interruptEntry forced) := by
  intro s w
  have stepped : ∃ u, (if forced then s else s.setPC (s.regs.pc + 1)) = u ∧
      (if forced then s.setADL w else (s.setADL w).setPC (s.regs.pc + 1)) = u.setADL w := by
    cases forced <;> exact ⟨_, rfl, rfl⟩
  obtain ⟨u, hu, hv⟩ := stepped
  unfold interruptEntry
  simp only [State.setADL_regs]
  rw [hu, hv]
  refine (latchBlind_pushWord u.regs.pc u w).bind fun _ s w => ?_
  refine (latchBlind_push (brkByte forced s.regs.p) s w).bind fun _ s w => ?_
  refine (latchBlind_readPair _ _ (s.setP { s.regs.p with i := true }) w).bind fun target t w => ?_
  exact latchBlind_clearRequest _ (t.setPC target) w

theorem latchBlind_returnFromInterrupt : LatchBlind returnFromInterrupt := fun s w =>
  (latchBlind_pull s w).bind fun b s w =>
    (latchBlind_pullWord (s.setP (fromByte b true s.regs.p)) w).bind fun target s w => .ok () (s.setPC target) w

theorem latchBlind_powerUp (v : Config.ResetValues) : LatchBlind (powerUp v) := fun s w =>
  (latchBlind_readPair Config.vecReset (Config.vecReset + 1)
    (((s.setRegs { s.regs with a := v.a, x := v.x, y := v.y, p := v.p, sp := 0xFD }).setPending
      { nmi := false, irq := false }).setRun s.run.poweredUp) w).bind fun target s w => .ok () (s.setPC target) w

/-! ### Fetch -/

theorem latchBlind_fetchOperand (d : Descriptor) : LatchBlind (fetchOperand d) := by
  intro s w
  unfold fetchOperand
  split
  · exact .ok _ s w
  · exact (latchBlind_fetchByte s w).bind fun _ s w => .ok _ s w
  · exact (latchBlind_fetchByte s w).bind fun _ s w => (latchBlind_fetchByte s w).bind fun _ s w => .ok _ s w

theorem latchBlind_fetch : LatchBlind fetch := fun s w =>
  (latchBlind_fetchByte s w).bind fun opcode s w => by
    dsimp only
    cases descriptor opcode with
    | none => exact .ok _ (s.setCyc { s.cyc with opcode := opcode }) w
    | some d => exact latchBlind_fetchOperand d (s.setCyc { s.cyc with opcode := opcode }) w

/-! ### Operand resolution and the shapes of handler -/

theorem pointerCells_latch (o : Operand) (r : Regs) (w : Word) :
    pointerCells o { r with adl := w } = pointerCells o r := by cases o <;> rfl

theorem crossesPage_latch (o : Operand) (r : Regs) (w pointer : Word) :
    crossesPage o { r with adl := w } pointer = crossesPage o r pointer := by cases o <;> rfl

/-- Only the modes IMP and ACC have no effective address of their own. -/
theorem addressOf_latch {o : Operand} (implied : o ≠ .imp) (accumulator : o ≠ .acc) (r : Regs) (w pointer : Word) :
    addressOf o { r with adl := w } pointer = addressOf o r pointer := by
  cases o <;> first | rfl | exact absurd rfl implied | exact absurd rfl accumulator

/-- In every mode but IMP and ACC operand resolution forgets the latch. -/
theorem resolve_setADL {o : Operand} (implied : o ≠ .imp) (accumulator : o ≠ .acc) (s : State) (w : Word) :
    resolve o (s.setADL w) = resolve o s := by
  unfold resolve
  simp only [State.setADL_regs, pointerCells_latch, crossesPage_latch, addressOf_latch implied accumulator]
  cases pointerCells o s.regs with
  | none => rfl
  | some cells =>
    refine (latchBlind_readPair cells.1 cells.2 s w).bind_eq
      (Res.post_mono (readPair_untouched _ _ s) (fun _ _ _ => trivial) fun _ => id) fun pointer s w => ?_
    simp only [State.setADL_regs, crossesPage_latch, addressOf_latch implied accumulator]
    rfl

/-- What follows operand resolution may read the latch, but in the modes IMP and ACC. -/
theorem latchBlind_resolve {o : Operand} {next : Bool → State → Res Bool}
    (unaddressed : o = .imp ∨ o = .acc → ∀ crossed, LatchBlind (next crossed)) :
    LatchBlind fun s => (resolve o s).bind next := by
  intro s w
  by_cases h : o = .imp ∨ o = .acc
  · have kept : ∀ s, resolve o s = .ok false s := fun s => by rcases h with rfl | rfl <;> rfl
    simp only [kept]
    exact unaddressed h false s w
  · obtain ⟨implied, accumulator⟩ := not_or.mp h
    simp only [resolve_setADL implied accumulator]
    exact .refl _

theorem latchBlind_operand {o : Operand} (h : o = .imp ∨ o = .acc) : LatchBlind (operand o) := by
  intro s w
  rcases h with rfl | rfl
  · exact .fatal _ w
  · exact .ok _ s w

theorem latchBlind_writeBack {o : Operand} (h : o = .imp ∨ o = .acc) (v : Byte) : LatchBlind (writeBack o v) := by
  intro s w
  rcases h with rfl | rfl
  · exact .fatal _ w
  · exact .ok () (s.setA v) w

theorem latchBlind_reading (o : Operand) {effect : Byte → State → State}
    (blind : ∀ m s w, effect m (s.setADL w) = (effect m s).setADL w) : LatchBlind (reading o effect) :=
  latchBlind_resolve fun h crossed s w => (latchBlind_operand h s w).bind fun m s w => by
    rw [blind]; exact .ok crossed (effect m s) w

/-- A store writes to ADL in every mode; that of a well-formed instruction has an effective address. -/
theorem latchBlind_storing {i : Instr} {m : Mnemonic} (hm : i.mnemonic = some m) (h : i.wellFormed = true)
    (addressed : Mode.imp ∉ m.modes ∧ Mode.acc ∉ m.modes) (value : Regs → Byte) :
    LatchBlind (storing i.operand value) := by
  have mode := mode_mem_of_wellFormed hm h
  refine latchBlind_resolve fun unaddressed => ?_
  rcases unaddressed with e | e <;> rw [e] at mode
  · exact absurd mode addressed.1
  · exact absurd mode addressed.2

theorem latchBlind_modifying (o : Operand) (result : Byte → Flags → Byte × Flags) : LatchBlind (modifying o result) :=
  latchBlind_resolve fun h crossed s w => (latchBlind_operand h s w).bind fun m s w =>
    (latchBlind_writeBack h (result m s.regs.p).1 s w).bind fun _ t w =>
      .ok crossed (t.setP (result m s.regs.p).2) w

theorem latchBlind_implied {effect : State → State} (blind : ∀ s w, effect (s.setADL w) = (effect s).setADL w) :
    LatchBlind (implied effect) := fun s w => by
  unfold implied
  rw [blind]; exact .ok false (effect s) w

theorem latchBlind_running {op : State → Res Unit} (blind : LatchBlind op) : LatchBlind (running op) :=
  fun s w => (blind s w).bind fun _ s w => .ok false s w

theorem latchBlind_branch (offset : Byte) (cond : Flags → Bool) : LatchBlind (branch offset cond) :=
  latchBlind_resolve (o := .rel offset) fun h => by simp at h

/-! ### Instructions -/

/-- Two outcomes of a move alike but for the address latch. -/
inductive OutcomesRelatched : Host.Outcome State Fault Refusal → Host.Outcome State Fault Refusal → Prop where
  | next (s : State) (w : Word) : OutcomesRelatched (.next s) (.next (s.setADL w))
  | fault (r : Fault) : OutcomesRelatched (.fault r) (.fault r)
  | refused (r : Refusal) : OutcomesRelatched (.refused r) (.refused r)

/-- The move does not look at the address latch that it finds. -/
def MoveLatchBlind (move : State → Host.Outcome State Fault Refusal) : Prop :=
  ∀ s w, OutcomesRelatched (move s) (move (s.setADL w))

theorem Res.Relatched.conclude {α : Type} {r q : Res α} (h : r.Relatched q)
    {next : α → State → Host.Outcome State Fault Refusal} (blind : ∀ v s, r = .ok v s → ∀ w,
      OutcomesRelatched (next v s) (next v (s.setADL w))) : OutcomesRelatched (r.conclude next) (q.conclude next) := by
  cases h with
  | ok v s w => exact blind v s rfl w
  | fatal s w => exact .next s w
  | fault r => exact .fault r
  | refused r => exact .refused r

/-- The end of a cycle looks at no register. -/
theorem finish_relatched (i : Instr) {r q : Res Bool} (h : r.Relatched q) :
    OutcomesRelatched (finish i r) (finish i q) := by
  rw [finish_eq_conclude, finish_eq_conclude]
  exact (h.bind fun crossed s => latchBlind_setState .clock false (s.charge (i.cost crossed))).conclude
    fun _ s _ w => .next (s.setLoop .boundary) w

theorem latchBlind_comparing (modes : List Mode) (o : Operand) (register : Regs → Byte)
    (blind : ∀ r w, register { r with adl := w } = register r) :
    LatchBlind fun s => (resolve o s).bind fun crossed s =>
      if modes.contains o.mode then
        (operand o s).bind fun m s => .ok crossed (s.setP (compareFlags (register s.regs) m s.regs.p))
      else raiseFatal .invalidAddressingMode s.cyc.opcode s :=
  latchBlind_resolve fun h crossed s w => by
    split
    · refine (latchBlind_operand h s w).bind fun m s w => ?_
      simp only [State.setADL_regs, blind]
      exact .ok crossed _ w
    · exact .fatal _ w

/-- A well-formed instruction is the end of the cycle after a handler that does not look at the address latch. -/
theorem exec_handler_latchBlind {i : Instr} (h : i.wellFormed = true) :
    ∃ handler, LatchBlind handler ∧ ∀ s, exec i s = finish i (handler s) := by
  cases i
  case lda o | ldx o | ldy o | adc o | sbc o | and o | ora o | eor o | bit o =>
    exact ⟨_, latchBlind_reading o fun _ _ _ => rfl, fun _ => rfl⟩
  case sta o => exact ⟨_, latchBlind_storing (m := .sta) rfl h (by decide) Regs.a, fun _ => rfl⟩
  case stx o => exact ⟨_, latchBlind_storing (m := .stx) rfl h (by decide) Regs.x, fun _ => rfl⟩
  case sty o => exact ⟨_, latchBlind_storing (m := .sty) rfl h (by decide) Regs.y, fun _ => rfl⟩
  case inc o | dec o | asl o | lsr o | rol o | ror o => exact ⟨_, latchBlind_modifying o _, fun _ => rfl⟩
  case cmp o | cpx o | cpy o => exact ⟨_, latchBlind_comparing _ o _ fun _ _ => rfl, fun _ => rfl⟩
  case bpl b | bmi b | bvc b | bvs b | bcc b | bcs b | bne b | beq b =>
    exact ⟨_, latchBlind_branch b _, fun _ => rfl⟩
  case jmp o =>
    have addressed : o = .imp ∨ o = .acc → Mnemonic.jmp.modes.contains o.mode = false := by
      rintro (rfl | rfl) <;> rfl
    refine ⟨_, latchBlind_resolve fun unaddressed crossed s w => ?_, fun _ => rfl⟩
    simp only [addressed unaddressed]
    exact .fatal _ w
  case jsr target => exact ⟨_, latchBlind_resolve fun unaddressed => by simp at unaddressed, fun _ => rfl⟩
  case pha => exact ⟨_, latchBlind_running fun s => latchBlind_push s.regs.a s, fun _ => rfl⟩
  case php => exact ⟨_, latchBlind_running fun s => latchBlind_push (phpByte s.regs.p) s, fun _ => rfl⟩
  case pla =>
    exact ⟨_, latchBlind_running fun s w => (latchBlind_pull s w).bind fun v s w => .ok () (loadA v s) w, fun _ => rfl⟩
  case plp =>
    exact ⟨_, latchBlind_running fun s w => (latchBlind_pull s w).bind fun b s w =>
      .ok () (s.setP (fromByte b true s.regs.p)) w, fun _ => rfl⟩
  case rts =>
    exact ⟨_, latchBlind_running fun s w => (latchBlind_pullWord s w).bind fun target s w =>
      .ok () (s.setPC (target + 1)) w, fun _ => rfl⟩
  case brk => exact ⟨_, latchBlind_running fun s => latchBlind_interruptEntry s.cyc.forced s, fun _ => rfl⟩
  case rti => exact ⟨_, latchBlind_running latchBlind_returnFromInterrupt, fun _ => rfl⟩
  case unimplemented opcode => exact ⟨raiseFatal .unimplementedOpcode opcode, fun s w => .fatal _ w, fun _ => rfl⟩
  all_goals exact ⟨_, latchBlind_implied fun _ _ => rfl, fun _ => rfl⟩

theorem moveLatchBlind_exec {i : Instr} (h : i.wellFormed = true) : MoveLatchBlind (exec i) := by
  obtain ⟨handler, blind, eq⟩ := exec_handler_latchBlind h
  intro s w
  rw [eq, eq]
  exact finish_relatched i (blind s w)

/-! ### Steps -/

theorem moveLatchBlind_cycle : MoveLatchBlind cycle := by
  intro s w
  by_cases forced : s.forced = true
  · rw [cycle_of_forced forced, cycle_of_forced (s := s.setADL w) forced]
    exact moveLatchBlind_exec (i := .brk) rfl (s.beginCycle true) w
  · rw [Bool.not_eq_true] at forced
    rw [cycle_of_not_forced forced, cycle_of_not_forced (s := s.setADL w) forced]
    refine (latchBlind_fetch (s.beginCycle false) w).conclude fun i t fetched w => ?_
    have wellFormed := fetch_any (s.beginCycle false)
    rw [fetched] at wellFormed
    exact moveLatchBlind_exec wellFormed.1 t w

/-- A move that always answers a next state. -/
theorem OutcomesRelatched.of_eq {s t : State} {w : Word} (h : t = s.setADL w) :
    OutcomesRelatched (.next s) (.next t) := h ▸ .next s w

/-- A move that decides by what is not the latch. -/
theorem OutcomesRelatched.ite {c : Prop} {d e : Decidable c} {r q r' q' : Host.Outcome State Fault Refusal}
    (pos : c → OutcomesRelatched r r') (neg : ¬c → OutcomesRelatched q q') :
    OutcomesRelatched (@ite _ c d r q) (@ite _ c e r' q') := by
  by_cases h : c
  · rw [if_pos h, if_pos h]; exact pos h
  · rw [if_neg h, if_neg h]; exact neg h

theorem tickerMove_setADL (k : Int) (s : State) (w : Word) : tickerMove k (s.setADL w) = (tickerMove k s).setADL w := by
  unfold tickerMove
  simp only [State.setADL_sched]
  split <;> rfl

theorem creditGate_setADL (s : State) (w : Word) : creditGate (s.setADL w) = (creditGate s).setADL w := by
  unfold creditGate
  by_cases credit : s.budget.credit < 1 <;> by_cases wake : s.sched.wake = true <;>
    simp only [State.setADL_sched, State.setADL_budget, credit, wake, if_true, if_false] <;> rfl

theorem raiseRequest_setADL (k : Interrupt) (s : State) (w : Word) :
    (s.setADL w).raiseRequest k = (s.raiseRequest k).setADL w := by cases k <;> rfl

theorem moveLatchBlind_executionMove : MoveLatchBlind executionMove := by
  intro s w
  unfold executionMove
  rw [State.setADL_loop]
  split
  · exact .next (s.setLoop .boundary) w
  · simp only [apply_ite Host.Outcome.next]
    exact .ite (fun _ => .next (s.setRun .stopped) w) fun _ =>
      .ite (fun _ => .next (s.setLoop .held) w) fun _ => .of_eq (creditGate_setADL s w)
  · exact .of_eq (creditGate_setADL s w)
  · exact .next ((s.setWake false).setLoop .cycle) w
  · exact moveLatchBlind_cycle s w

theorem moveLatchBlind_powerUpTurn : MoveLatchBlind powerUpTurn := by
  intro s w
  by_cases looping : s.looping = true
  · rw [powerUpTurn_of_looping looping, powerUpTurn_of_looping (s := s.setADL w) looping]
    exact .refused _
  · rw [Bool.not_eq_true] at looping
    rw [powerUpTurn_of_not_looping looping, powerUpTurn_of_not_looping (s := s.setADL w) looping]
    exact (latchBlind_powerUp _ s w).conclude fun _ t _ w => .next (t.setLoop .idle) w

theorem moveLatchBlind_takeTurn (turn : Turn) : MoveLatchBlind (takeTurn turn) := by
  intro s w
  cases turn with
  | execution =>
    exact .ite (c := s.run = .running ∧ s.blocked = false) (fun _ => moveLatchBlind_executionMove s w)
      fun _ => .next s w
  | ticker =>
    simp only [takeTurn, apply_ite Host.Outcome.next]
    exact .ite (fun _ => .of_eq (tickerMove_setADL _ s w)) fun _ => .next s w
  | diagnostic => exact .next (diagnosticMove s) w
  | request k => exact .of_eq (raiseRequest_setADL k s w)
  | setStop v => exact .next (s.setSched { s.sched with stop := v }) w
  | setPause v => exact .next (s.setSched { s.sched with pause := v }) w
  | setTicking v => exact .next (s.setSched { s.sched with ticking := v }) w
  | powerUp => exact moveLatchBlind_powerUpTurn s w

theorem moveLatchBlind_defaultTurn : MoveLatchBlind defaultTurn := by
  intro s w
  unfold defaultTurn
  rw [show (s.setADL w).blocked = s.blocked from rfl]
  simp only [State.setADL_run, State.setADL_loop, State.setADL_sched]
  split
  · exact .fault _
  · exact .fault _
  · refine .ite (fun _ => ?_) fun _ => moveLatchBlind_executionMove s w
    split
    · exact .ite (fun _ => .of_eq (tickerMove_setADL _ s w)) fun _ => .fault _
    · exact .fault _

theorem moveLatchBlind_step : MoveLatchBlind step := by
  intro s w
  unfold step
  simp only [State.setADL_sched]
  split
  · exact moveLatchBlind_defaultTurn s w
  · exact moveLatchBlind_takeTurn _ (s.setSched _) w

theorem SameButLatch.exists_setADL {s t : State} (h : SameButLatch s t) : ∃ w, t = s.setADL w :=
  ⟨t.regs.adl, calc
    t = (t.setADL 0).setADL t.regs.adl := rfl
    _ = (s.setADL 0).setADL t.regs.adl := by rw [← h]
    _ = s.setADL t.regs.adl := rfl⟩

/-- Settles O46, by the relation between the two steps that every move keeps. -/
theorem addressLatchIsUnobservable : Obligations.AddressLatchIsUnobservable := by
  unfold Obligations.AddressLatchIsUnobservable
  intro s t same
  obtain ⟨w, rfl⟩ := same.exists_setADL
  have relatched := moveLatchBlind_step s w
  revert relatched
  generalize step s = r
  generalize step (s.setADL w) = q
  rintro (⟨s, w⟩ | r | r) <;> rfl

end Sys2Proof.Machine
end

section
/-! SUPPORT. An interrupt entry with flat RAM as one step, and the nesting of the IRQ entry in the NMI entry (R269,
R272): O37. -/

namespace Sys2Proof.Machine

/-- What a forced cycle leaves with flat RAM: the entry of the request that is served (R122, R242). -/
structure EntryTaken (s t : State) : Prop where
  ready : t.ready
  regs : t.regs = { s.regs with
    sp := s.regs.sp - 3
    p := { s.regs.p with i := true }
    pc := word (s.byteAt (vectorOf (served s.pending) + 1)) (s.byteAt (vectorOf (served s.pending))) }
  memory : ∀ a, t.mem.get a = entryStored s.regs.pc (brkByte true s.regs.p) s a
  pending : t.pending = s.pending.without (served s.pending)
  budget : t.budget = { credit := s.budget.credit - 7, total := s.budget.total + 7 }
  sched : t.sched = s.sched
  run : t.run = .running
  loop : t.loop = .boundary

/-- A step with a request pending takes the entry (R120, R122, R242). -/
theorem step_entryTaken {s : State} (ready : s.ready) (atCycle : s.atCycle) (forced : s.forced = true) :
    ∃ t, step s = .next t ∧ EntryTaken s t := by
  obtain ⟨u, entry, handled⟩ := interruptEntry_flatRam (s := s.beginCycle true) ready true rfl rfl
  have ended : exec .brk (s.beginCycle true) = finish .brk (.ok false u) := by
    show finish .brk (running (interruptEntry true) (s.beginCycle true)) = _
    rw [running, entry, Res.bind_ok]
  rw [finish_flatRam handled.flat] at ended
  refine ⟨_, ((step_of_atCycle atCycle).trans (cycle_of_forced forced)).trans ended, ?_⟩
  have kept := interruptEntry_kept true (s.beginCycle true)
  rw [entry] at kept
  have cost : Instr.brk.cost false = 7 := by decide
  exact
    { ready := ⟨handled.flat, kept.wf ready.2⟩
      regs := handled.regs
      memory := handled.memory
      pending := handled.pending
      budget := by simp [handled.budget, cost]
      sched := handled.sched
      run := handled.run.trans atCycle.1
      loop := rfl }

/-- The two bytes of the return address, where the entry pushed them. -/
theorem entryStored_return (ret : Word) (status : Byte) (s : State) :
    entryStored ret status s (stackAddress s.regs.sp).toNat = hi8 ret ∧
    entryStored ret status s (stackAddress (s.regs.sp - 1)).toNat = lo8 ret := by
  have ne : ∀ a b : Byte, a ≠ b → (stackAddress a).toNat ≠ (stackAddress b).toNat := toNat_word_ne Config.stackPage
  constructor
  · simp only [entryStored, stored, if_neg (ne s.regs.sp (s.regs.sp - 2) (by bv_omega)),
      if_neg (ne s.regs.sp (s.regs.sp - 1) (by bv_omega)), if_true]
  · simp only [entryStored, if_neg (ne (s.regs.sp - 1) (s.regs.sp - 2) (by bv_omega)), if_true]

/-- Settles O37: two entries with the boundary between them; the first leaves the IRQ vector and the IRQ request. -/
theorem irqEntryNestsInNmiEntry : Obligations.IrqEntryNestsInNmiEntry := by
  unfold Obligations.IrqEntryNestsInNmiEntry
  intro s ready atCycle pending stop pause credit
  obtain ⟨t, first, entered⟩ := step_entryTaken ready atCycle (by rw [State.forced, pending]; rfl)
  have nmi : served s.pending = .nmi := by rw [pending]; rfl
  have left : t.pending = { nmi := false, irq := true } := by rw [entered.pending, nmi, pending]; rfl
  have noTurn : t.sched.turns = [] := by rw [entered.sched]; exact atCycle.2.2
  have passed : step t = .next (t.setLoop .cycle) :=
    step_boundary noTurn entered.run entered.loop (by rw [entered.sched]; exact stop)
      (by rw [entered.sched]; exact pause) (by rw [entered.budget]; show 1 ≤ s.budget.credit - 7; omega)
  obtain ⟨v, second, nested⟩ := step_entryTaken (s := t.setLoop .cycle) entered.ready
    ⟨entered.run, rfl, noTurn⟩ (by rw [State.forced, State.setLoop_pending, left]; rfl)
  have irq : served (t.setLoop .cycle).pending = .irq := by rw [State.setLoop_pending, left]; rfl
  have handler : t.regs.pc = word (s.byteAt 0xFFFB) (s.byteAt 0xFFFA) := by rw [entered.regs, nmi]; rfl
  have sp : t.regs.sp = s.regs.sp - 3 := by rw [entered.regs]
  have vector : ∀ a : Word, a = 0xFFFE ∨ a = 0xFFFF → t.byteAt a = s.byteAt a := fun a h =>
    (entered.memory a.toNat).trans (entryStored_vector _ _ s (.inr (.inr h)))
  obtain ⟨high, low⟩ := entryStored_return t.regs.pc (brkByte true t.regs.p) (t.setLoop .cycle)
  rw [State.setLoop_regs, sp] at high low
  rw [show s.regs.sp - 3 - 1 = s.regs.sp - 4 by bv_omega] at low
  refine ⟨t, _, v, first, passed, second, handler, left, ?_, ?_, ?_, ?_, ?_, ?_⟩
  · rw [nested.regs, irq, ← vector 0xFFFF (.inr rfl), ← vector 0xFFFE (.inl rfl)]
    rfl
  · rw [nested.pending, irq, State.setLoop_pending, left]; rfl
  · rw [nested.regs, State.setLoop_regs, sp]; show s.regs.sp - 3 - 3 = _; bv_omega
  · rw [nested.budget, State.setLoop_budget, entered.budget]; show s.budget.total + 7 + 7 = _; omega
  · exact (nested.memory _).trans (high.trans (congrArg hi8 handler))
  · exact (nested.memory _).trans (low.trans (congrArg lo8 handler))

end Sys2Proof.Machine
end

section
/-! SUPPORT. `powerUp` with flat RAM and as a turn (R53, R300), a device's `install` and `powerUp` (R75), and the boot
(R301): O47, O48 and O39. -/

namespace Sys2Proof.Machine

/-- Settles O47: the state is the one of `powerUp_flatRam`; the turn goes on from what `powerUp` answers. -/
theorem powerUpGivesTheResetState : Obligations.PowerUpGivesTheResetState := by
  unfold Obligations.PowerUpGivesTheResetState
  refine ⟨fun v s flat => ⟨_, powerUp_flatRam v flat, rfl, rfl, rfl, rfl, rfl, ?_, ?_, rfl, ?_⟩,
    fun s rest listed => ?_⟩
  · rintro (run | run) <;> exact congrArg RunStatus.poweredUp run
  · exact fun kind opcode address fatal => (congrArg RunStatus.poweredUp fatal).trans fatal.symm
  · simp [State.readOf, State.byteAt]
  · have turn : step s = powerUpTurn (s.setSched { s.sched with turns := rest }) := step_of_turns listed
    refine ⟨fun ⟨running, called⟩ => turn.trans (powerUpTurn_of_looping ?_), fun ended => ?_⟩
    · simp [State.looping, running, called]
    · have free : (s.setSched { s.sched with turns := rest }).looping = false := by
        rcases ended with h | h <;> simp [State.looping, h]
      rw [turn, powerUpTurn_of_not_looping free]
      exact ⟨fun _ => congrArg (Res.conclude _), fun _ => congrArg (Res.conclude _),
        fun _ => congrArg (Res.conclude _)⟩

/-- `t` is `s` after lines were made and the listeners `added` were registered: each is appended to the list of its line
and level, no level changes, no line is lost, and nothing but the wires changes (R61, R75). -/
structure Wired (added : List Listener) (s t : State) : Prop where
  listeners : ∀ n level, (t.wires.line n).listeners level = (s.wires.line n).listeners level ++
    (added.filter fun l => decide (l.line = n ∧ l.level = level)).map Listener.reaction
  level : ∀ n, (t.wires.line n).level = (s.wires.line n).level
  made : ∀ n, s.wires.made n = true → t.wires.made n = true
  wiresOnly : t = s.setWires t.wires

namespace Wired

theorem refl (s : State) : Wired [] s s := ⟨fun _ _ => by simp, fun _ => rfl, fun _ => id, rfl⟩

theorem trans {xs ys : List Listener} {s t u : State} (h : Wired xs s t) (k : Wired ys t u) : Wired (xs ++ ys) s u where
  listeners n level := by
    rw [k.listeners, h.listeners, List.filter_append, List.map_append, List.append_assoc]
  level n := (k.level n).trans (h.level n)
  made n := k.made n ∘ h.made n
  wiresOnly := by rw [k.wiresOnly, h.wiresOnly]; rfl

theorem makeLine (n : LineName) (s : State) : Wired [] s (s.makeLine n) where
  listeners m level := by
    show ((s.wires.make n).line m).listeners level = _
    simp
  level m := by
    show ((s.wires.make n).line m).level = _
    simp
  made _ h := Wires.made_make_of_made h n
  wiresOnly := rfl

theorem registerListener (l : Listener) (s : State) :
    Wired [l] s (s.registerListener l.line l.level l.reaction) where
  listeners n level := by
    rw [State.registerListener_wires, Wires.line_setLine]
    by_cases hn : n = l.line
    · subst hn
      by_cases hl : level = l.level
      · subst hl; simp [Line.listeners_register]
      · simp [Line.listeners_register, hl, Ne.symm hl]
    · simp [hn, Ne.symm hn]
  level n := by
    rw [State.registerListener_wires, Wires.line_setLine]
    split
    · rename_i h
      rw [h.1, Line.register]
      split <;> simp
    · simp
  made n h := by
    rw [State.registerListener_wires, Wires.made_setLine]
    exact Wires.made_make_of_made h l.line
  wiresOnly := rfl

end Wired

/-- The first part of `install`. -/
theorem foldl_makeLine (lines : List LineName) (s : State) :
    Wired [] s (lines.foldl (fun s n => s.makeLine n) s) ∧
    ∀ n ∈ lines, (lines.foldl (fun s n => s.makeLine n) s).wires.made n = true := by
  induction lines generalizing s with
  | nil => exact ⟨.refl s, fun _ h => nomatch h⟩
  | cons n lines ih =>
    obtain ⟨wired, made⟩ := ih (s.makeLine n)
    refine ⟨(Wired.makeLine n s).trans wired, fun m hm => ?_⟩
    rcases List.mem_cons.mp hm with rfl | hm
    · exact wired.made m (Wires.made_make s.wires m)
    · exact made m hm

/-- The second part of `install`. -/
theorem foldl_registerListener (added : List Listener) (s : State) :
    Wired added s (added.foldl (fun s l => s.registerListener l.line l.level l.reaction) s) ∧
    ∀ l ∈ added,
      (added.foldl (fun s l => s.registerListener l.line l.level l.reaction) s).wires.made l.line = true := by
  induction added generalizing s with
  | nil => exact ⟨.refl s, fun _ h => nomatch h⟩
  | cons l added ih =>
    obtain ⟨wired, made⟩ := ih (s.registerListener l.line l.level l.reaction)
    refine ⟨(Wired.registerListener l s).trans wired, fun k hk => ?_⟩
    rcases List.mem_cons.mp hk with rfl | hk
    · exact wired.made k.line (by simp)
    · exact made k hk

/-- Storing cells one after another leaves the last one of an address there. -/
theorem Memory.get_foldl_set_last {m : Memory} (wf : m.wf = true) {before after : List (Word × Byte)} {a : Word}
    (v : Byte) (last : ∀ c ∈ after, c.1 ≠ a) :
    Memory.get ((before ++ (a, v) :: after).foldl (fun m c => m.set c.1.toNat c.2) m) a.toNat = v := by
  rw [List.foldl_append, List.foldl_cons]
  have wfBefore := (Memory.foldl_set wf before).1
  rw [(Memory.foldl_set (Memory.wf_set a.isLt v wfBefore) after).2 a last, Memory.get_set wfBefore, if_pos rfl]

theorem powerUpDevice_mem (d : Device) (s : State) :
    (powerUpDevice d s).mem = d.contents.foldl (fun m c => m.set c.1.toNat c.2) s.mem := by
  unfold powerUpDevice
  dsimp only
  split <;> rfl

theorem powerUpDevice_eq (d : Device) (s : State) :
    powerUpDevice d s = (s.setMem (powerUpDevice d s).mem).setEnv (powerUpDevice d s).env := by
  unfold powerUpDevice
  dsimp only
  split <;> rfl

/-- The boot with the flat RAM. -/
theorem boot_flatRam : boot [Device.flatRam] Config.resetValues State.constructed = .ok () State.reset :=
  powerUp_flatRam Config.resetValues
    (s := powerUpDevice .flatRam (install .flatRam State.constructed)) ⟨rfl, rfl, rfl, rfl⟩

/-- Settles O48: `install` is two folds, whose steps compose, and `powerUp` of a device is a fold of stores. -/
theorem resetIsPowerUpOfConstruction : Obligations.ResetIsPowerUpOfConstruction := by
  unfold Obligations.ResetIsPowerUpOfConstruction
  refine ⟨fun d s => ?_, fun d s => ⟨powerUpDevice_eq d s, fun wf => ?_, fun before after a v contents last wf => ?_⟩,
    fun _ _ _ => rfl, boot_flatRam, rfl, rfl, rfl, rfl, rfl, rfl, rfl⟩
  · obtain ⟨lines, madeLines⟩ := foldl_makeLine d.lines s
    obtain ⟨registered, madeListeners⟩ := foldl_registerListener d.listeners (d.lines.foldl (fun s n => s.makeLine n) s)
    have wired : Wired d.listeners s (install d s) := lines.trans registered
    exact ⟨wired.listeners, wired.level, fun n hn => registered.made n (madeLines n hn), madeListeners,
      wired.wiresOnly⟩
  · simp only [State.byteAt, powerUpDevice_mem]
    exact Memory.foldl_set wf d.contents
  · rw [State.byteAt, powerUpDevice_mem, contents]
    exact Memory.get_foldl_set_last wf v last

/-- Settles O39. -/
theorem resetIsReady : Obligations.ResetIsReady := ⟨⟨rfl, rfl, rfl, rfl⟩, rfl⟩

end Sys2Proof.Machine
end

section
/-! SUPPORT. The status byte, bit by bit (R38, R39), and its round trip (R40): O49. -/

namespace Sys2Proof.Machine

/-- The status byte holds each flag at its bit (R38). -/
theorem getLsbD_getByte (p : Flags) :
    (getByte p).getLsbD 7 = p.n ∧ (getByte p).getLsbD 6 = p.v ∧ (getByte p).getLsbD 5 = p.u ∧
    (getByte p).getLsbD 4 = p.b ∧ (getByte p).getLsbD 3 = p.d ∧ (getByte p).getLsbD 2 = p.i ∧
    (getByte p).getLsbD 1 = p.z ∧ (getByte p).getLsbD 0 = p.c := by
  obtain ⟨n, v, u, b, d, i, z, c⟩ := p
  revert n v u b d i z c
  decide

/-- Settles O49, bit by bit. -/
theorem statusByteRoundTrip : Obligations.StatusByteRoundTrip := by
  unfold Obligations.StatusByteRoundTrip
  refine ⟨fun p ignore => ?_, fun b p => ?_, fun b p k hk => ?_⟩
  · obtain ⟨n, v, u, b, d, i, z, c⟩ := getLsbD_getByte p
    simp only [fromByte, n, v, u, b, d, i, z, c, ite_self]
  · obtain ⟨n, v, u, b', d, i, z, c⟩ := getLsbD_getByte (fromByte b false p)
    refine BitVec.eq_of_getLsbD_eq fun k hk => ?_
    interval_cases k <;> simp only [n, v, u, b', d, i, z, c] <;> rfl
  · obtain ⟨n, v, -, -, d, i, z, c⟩ := getLsbD_getByte (fromByte b true p)
    fin_cases hk <;> assumption

end Sys2Proof.Machine
end

section
/-! SUPPORT. What a step keeps of the devices, whatever the wiring and the turn: the listener lists (R61, R64) and the
canonical form of memory (R76, R77); O38 and O41 from it. -/

namespace Sys2Proof.Machine

/-- The devices' side of a move: the listener lists are the same, and memory stays canonical. -/
structure DevicesKept (s t : State) : Prop where
  listeners : t.wires.sameListeners s.wires
  wf : s.mem.wf = true → t.mem.wf = true

theorem DevicesKept.trans {s t u : State} (h : DevicesKept s t) (k : DevicesKept t u) : DevicesKept s u :=
  ⟨Wires.sameListeners_trans k.listeners h.listeners, k.wf ∘ h.wf⟩

theorem Untouched.devicesKept {s t : State} (h : Untouched s t) : DevicesKept s t := ⟨h.listeners, h.wf⟩

theorem Kept.devicesKept {s t : State} (h : Kept s t) : DevicesKept s t := ⟨h.listeners, h.wf⟩

theorem Quiet.devicesKept {s t : State} (h : Quiet s t) : DevicesKept s t :=
  ⟨h.wires ▸ Wires.sameListeners_refl s.wires, fun wf => h.mem ▸ wf⟩

/-- However a cycle ends: its handler keeps the devices, and so does the clock LOW of its end. -/
theorem CycleEnds.devicesKept {i : Instr} {s t : State} (h : CycleEnds i s t) : DevicesKept s t := by
  obtain ⟨u, crossed, v, handled, ended, rfl⟩ | ⟨u, kind, opcode, handled, rfl, -⟩ := h
  · have last : DevicesKept u (v.setLoop .boundary) := ⟨ended.listeners, ended.wf⟩
    exact handled.devicesKept.trans last
  · exact ⟨handled.listeners, handled.wf⟩

theorem cycle_devicesKept {s t : State} (h : cycle s = .next t) : DevicesKept s t := by
  obtain ⟨i, -, ends⟩ := cycle_cases h
  obtain ⟨listeners, wf⟩ := ends.devicesKept
  exact ⟨listeners, wf⟩

theorem powerUp_devicesKept {v : Config.ResetValues} {s t : State} (h : powerUp v s = .ok () t) : DevicesKept s t := by
  have all := powerUp_untouched v s
  rw [h] at all
  obtain ⟨u, target, reads, rfl⟩ := all
  exact ⟨reads.listeners, reads.wf⟩

/-- Every step keeps the devices: a cycle, a `powerUp`, or a move that leaves the architectural state alone. -/
theorem step_devicesKept {s t : State} (h : step s = .next t) : DevicesKept s t := by
  obtain ⟨turns, ⟨-, -, cycled⟩ | ⟨-, -, u, powered, rfl⟩ | ⟨-, quiet⟩⟩ := step_cases h
  · obtain ⟨listeners, wf⟩ := cycle_devicesKept cycled
    exact ⟨listeners, wf⟩
  · obtain ⟨listeners, wf⟩ := powerUp_devicesKept powered
    exact ⟨listeners, wf⟩
  · exact quiet.devicesKept

/-- Settles O38: a step is a cycle, a `powerUp` or a quiet move, and each keeps the canonical form. -/
theorem stepKeepsMemoryCanonical : Obligations.StepKeepsMemoryCanonical := by
  unfold Obligations.StepKeepsMemoryCanonical
  exact fun _ _ wf h => (step_devicesKept h).wf wf

/-- Settles O41, as O38. -/
theorem stepKeepsListenerLists : Obligations.StepKeepsListenerLists := by
  unfold Obligations.StepKeepsListenerLists
  exact fun _ _ h => (step_devicesKept h).listeners

end Sys2Proof.Machine
end

section
/-! SUPPORT. With flat RAM, what a push and a pull add to what has been handled (R80, R81), and the stores and the
instructions of the stack (R163..R165, R180..R183, R231, R232, R243): O12, O14, O15, O27, O28 and O31. -/

namespace Sys2Proof.Machine

/-- Settles O12: a store reads no register that operand resolution writes. -/
theorem storesWriteTheEffectiveAddress : Obligations.StoresWriteTheEffectiveAddress := by
  unfold Obligations.StoresWriteTheEffectiveAddress
  refine ⟨by decide, by decide, by decide, fun o s ready => ⟨fun _ => ?_, fun _ => ?_, fun _ => ?_⟩⟩
  · exact completesWith_storing (value := Regs.a) rfl ready rfl
  · exact completesWith_storing (value := Regs.x) rfl ready rfl
  · exact completesWith_storing (value := Regs.y) rfl ready rfl

/-! ### Pushes and pulls -/

/-- The stack page is page 1 (R34). -/
theorem stackAddress_eq (sp : Byte) : stackAddress sp = 0x0100 + zext16 sp := by
  apply BitVec.eq_of_toNat_eq
  rw [stackAddress, toNat_word, zext16, BitVec.toNat_add, BitVec.toNat_setWidth]
  show 1 * 256 + sp.toNat = (256 + sp.toNat % 65536) % 65536
  omega

/-- The byte PHP pushes is the status byte with P.U and P.B set (R181). -/
theorem phpByte_eq (p : Flags) : phpByte p = getByte { p with u := true, b := true } := by
  obtain ⟨n, v, u, b, d, i, z, c⟩ := p
  revert n v u b d i z c
  decide

/-- A push after what has been handled, memory being canonical. -/
theorem Handled.push {s u : State} {r : Regs} {m : Nat → Byte} {p : Pending} {bus : List Transaction}
    (h : Handled s u r m p bus) (wf : u.mem.wf = true) (v : Byte) :
    ∃ t, Machine.push v u = .ok () t ∧ t.mem.wf = true ∧ Handled s t { r with sp := r.sp - 1 }
      (fun n => if n = (stackAddress r.sp).toNat then v else m n) p (bus ++ [⟨true, stackAddress r.sp, v⟩]) := by
  have regs := h.regs
  subst regs
  exact ⟨_, push_flatRam h.flat v, Memory.wf_set (stackAddress u.regs.sp).isLt v wf,
    (h.afterWrite wf (stackAddress u.regs.sp) v).setRegs { u.regs with sp := u.regs.sp - 1 }⟩

/-- A pull after what has been handled. -/
theorem Handled.pull {s u : State} {r : Regs} {m : Nat → Byte} {p : Pending} {bus : List Transaction}
    (h : Handled s u r m p bus) :
    ∃ t, Machine.pull u = .ok (m (stackAddress (r.sp + 1)).toNat) t ∧ Handled s t { r with sp := r.sp + 1 } m p
      (bus ++ [⟨false, stackAddress (r.sp + 1), m (stackAddress (r.sp + 1)).toNat⟩]) := by
  have regs := h.regs
  subst regs
  refine ⟨_, ?_, (h.setRegs { u.regs with sp := u.regs.sp + 1 }).afterRead (stackAddress (u.regs.sp + 1))⟩
  rw [pull_flatRam h.flat, State.byteAt, h.memory]
  rfl

/-- A word pushed: high byte, then low byte. -/
theorem Handled.pushWord {s u : State} {r : Regs} {m : Nat → Byte} {p : Pending} {bus : List Transaction}
    (h : Handled s u r m p bus) (wf : u.mem.wf = true) (w : Word) :
    ∃ t, Machine.pushWord w u = .ok () t ∧ Handled s t { r with sp := r.sp - 2 }
      (fun n => if n = (stackAddress (r.sp - 1)).toNat then lo8 w
        else if n = (stackAddress r.sp).toNat then hi8 w else m n) p
      (bus ++ [⟨true, stackAddress r.sp, hi8 w⟩, ⟨true, stackAddress (r.sp - 1), lo8 w⟩]) := by
  obtain ⟨t, high, wf, handledHigh⟩ := h.push wf (hi8 w)
  obtain ⟨v, low, -, handled⟩ := handledHigh.push wf (lo8 w)
  rw [List.append_assoc] at handled
  rw [← byte_sub_one_sub_one]
  exact ⟨v, by rw [Machine.pushWord, high, Res.bind_ok, low], handled⟩

/-- A word pulled: low byte, then high byte. -/
theorem Handled.pullWord {s u : State} {r : Regs} {m : Nat → Byte} {p : Pending} {bus : List Transaction}
    (h : Handled s u r m p bus) :
    ∃ t, Machine.pullWord u =
        .ok (word (m (stackAddress (r.sp + 2)).toNat) (m (stackAddress (r.sp + 1)).toNat)) t ∧
      Handled s t { r with sp := r.sp + 2 } m p (bus ++
        [⟨false, stackAddress (r.sp + 1), m (stackAddress (r.sp + 1)).toNat⟩,
          ⟨false, stackAddress (r.sp + 2), m (stackAddress (r.sp + 2)).toNat⟩]) := by
  obtain ⟨t, low, handledLow⟩ := h.pull
  obtain ⟨v, high, handled⟩ := handledLow.pull
  rw [List.append_assoc] at handled
  rw [← byte_add_one_add_one]
  exact ⟨v, by rw [Machine.pullWord, low, Res.bind_ok, high, Res.bind_ok], handled⟩

/-! ### Instructions that are one operation on the stack -/

/-- An instruction whose handler is one operation, in implied mode. -/
theorem completesWith_running {i : Instr} {op : State → Res Unit} {s u : State} {e : Effect}
    (hexec : exec i s = finish i (running op s)) (answers : op s = .ok () u)
    (handled : Handled s u e.regs e.memory e.pending e.bus) (hcost : e.cost = i.cost false) : CompletesWith i s e :=
  completesWith_of_handled (hexec.trans (by rw [running, answers, Res.bind_ok])) handled hcost

/-- An instruction whose handler pushes one byte. -/
theorem completesWith_pushing {i : Instr} {s : State} {value : State → Byte}
    (hexec : exec i s = finish i (running (fun s => push (value s) s) s)) (ready : s.ready) :
    CompletesWith i s
      { regs := { s.regs with sp := s.regs.sp - 1 }, memory := stored s (stackAddress s.regs.sp) (value s),
        pending := s.pending, bus := [⟨true, stackAddress s.regs.sp, value s⟩], cost := i.cost false } := by
  obtain ⟨t, pushed, -, handled⟩ := (handled_refl ready.1).push ready.2 (value s)
  exact completesWith_running hexec pushed handled rfl

/-- An instruction whose handler pulls one byte and sets the registers to `f byte registers`. -/
theorem completesWith_pulling {i : Instr} {s : State} {effect : Byte → State → State} {f : Byte → Regs → Regs}
    (hexec : exec i s = finish i (running (fun s => (pull s).bind fun v s => .ok () (effect v s)) s))
    (heffect : ∀ v u, effect v u = u.setRegs (f v u.regs)) (flat : s.wires.isFlatRam) :
    CompletesWith i s (registerEffect i s
      (f (s.byteAt (stackAddress (s.regs.sp + 1))) { s.regs with sp := s.regs.sp + 1 })
      [s.readOf (stackAddress (s.regs.sp + 1))] false) := by
  obtain ⟨t, pulled, handled⟩ := (handled_refl flat).pull
  refine completesWith_running hexec (by rw [pulled, Res.bind_ok]) ?_ rfl
  rw [heffect, handled.regs]
  exact handled.setRegs _

/-- Settles O14. -/
theorem pushesWriteBelowTheStackPointer : Obligations.PushesWriteBelowTheStackPointer := by
  unfold Obligations.PushesWriteBelowTheStackPointer
  refine ⟨by decide, by decide, stackAddress_eq, fun s ready => ⟨?_, ?_⟩⟩
  · exact completesWith_pushing (value := fun s => s.regs.a) rfl ready
  · rw [← phpByte_eq]
    exact completesWith_pushing (value := fun s => phpByte s.regs.p) rfl ready

/-- Settles O15. -/
theorem pullsReadAboveTheStackPointer : Obligations.PullsReadAboveTheStackPointer := by
  unfold Obligations.PullsReadAboveTheStackPointer
  refine ⟨by decide, by decide, fun s ready => ⟨?_, ?_⟩⟩
  · exact completesWith_pulling (f := fun v r => { r with a := v, p := setNZ v r.p }) rfl (fun _ _ => rfl) ready.1
  · exact completesWith_pulling (f := fun v r => { r with p := fromByte v true r.p }) rfl (fun _ _ => rfl) ready.1

/-- Settles O27: a word is pushed after operand resolution, which reads no pointer. -/
theorem jsrPushesTheReturnAddressLessOne : Obligations.JsrPushesTheReturnAddressLessOne := by
  unfold Obligations.JsrPushesTheReturnAddressLessOne
  refine ⟨by decide, fun w s ready => ?_⟩
  obtain ⟨u, pushed, handled⟩ := (handled_resolve ready.1 (.abs w)).pushWord ready.2 (s.regs.pc - 1)
  have handler : exec (.jsr w) s = finish (.jsr w) (.ok false (u.setPC u.regs.adl)) :=
    congrArg (fun r : Res Unit => finish (.jsr w) (r.bind fun _ u => .ok false (u.setPC u.regs.adl))) pushed
  refine completesWith_of_handled handler ?_ rfl
  rw [State.setPC, handled.regs]
  exact handled.setRegs _

/-- Settles O28. -/
theorem rtsPullsTheAddressAndAddsOne : Obligations.RtsPullsTheAddressAndAddsOne := by
  unfold Obligations.RtsPullsTheAddressAndAddsOne
  refine ⟨by decide, fun s ready => ?_⟩
  obtain ⟨u, pulled, handled⟩ := (handled_refl ready.1).pullWord
  refine completesWith_running rfl (by rw [pulled, Res.bind_ok]) ?_ rfl
  rw [State.setPC, handled.regs]
  exact handled.setRegs _

/-- Settles O31. -/
theorem rtiRestoresFlagsAndPc : Obligations.RtiRestoresFlagsAndPc := by
  unfold Obligations.RtiRestoresFlagsAndPc
  refine ⟨by decide, fun s ready => ?_⟩
  obtain ⟨u, returned, handled⟩ := returnFromInterrupt_flatRam ready.1
  exact completesWith_running rfl returned handled rfl

end Sys2Proof.Machine
end

section
/-! SUPPORT. `setState` and its listeners (R61..R66): O50 to O53; transactions that no device answers, or that the
environment answers (R72, R73, R76): O54, O55. -/

namespace Sys2Proof.Machine

/-! ### Dispatch -/

theorem Res.bind_assoc {α β γ : Type} (r : Res α) (f : α → State → Res β) (g : β → State → Res γ) :
    (r.bind f).bind g = r.bind fun v s => (f v s).bind g := by
  cases r <;> rfl

/-- An operation that answers no value is done when it is done. -/
theorem Res.bind_done (r : Res Unit) : (r.bind fun _ s => .ok () s) = r := by
  cases r <;> rfl

theorem dispatch_singleton (set : LineName → Bool → State → Res Unit) (r : Reaction) (s : State) :
    dispatch set [r] s = react set r s := Res.bind_done _

theorem dispatch_append (set : LineName → Bool → State → Res Unit) (first later : List Reaction) :
    ∀ s, dispatch set (first ++ later) s = (dispatch set first s).bind fun _ t => dispatch set later t := by
  induction first with
  | nil => exact fun _ => rfl
  | cons r first ih =>
    intro s
    rw [List.cons_append, dispatch, dispatch, Res.bind_assoc]
    simp only [ih]

/-- Two actions of one listener, and the two listeners in turn. -/
theorem dispatch_both (set : LineName → Bool → State → Res Unit) (r q : Reaction) (s : State) :
    dispatch set [.both r q] s = dispatch set [r, q] s := by
  rw [dispatch_singleton, react, dispatch]
  simp only [dispatch_singleton]

theorem dispatch_branch (set : LineName → Bool → State → Res Unit) (on : Reading) (first last : Nat)
    (r q : Reaction) (s : State) : dispatch set [.branch on first last r q] s =
      dispatch set [if first ≤ on.value s ∧ on.value s ≤ last then r else q] s := by
  rw [dispatch_singleton, dispatch_singleton, react]
  split <;> rfl

theorem listeners_setLevel (s : State) (n m : LineName) (level b : Bool) :
    ((s.setLevel n level).wires.line m).listeners b = (s.wires.line m).listeners b :=
  (untouched_setLevel s n level).listeners m b

/-- The level is set, then the listeners run; their calls have the bound below (R62, R63). -/
theorem setStateWithin_succ_eq (depth : Nat) (n : LineName) (level : Bool) (s : State) :
    setStateWithin (depth + 1) n level s =
      dispatch (setStateWithin depth) ((s.wires.line n).listeners level) (s.setLevel n level) := rfl

/-- Where memory is canonical, the calls that listeners make are `setState` again (R62, R63). -/
theorem setState_eq_dispatch (n : LineName) (level : Bool) {s : State} (wf : s.mem.wf = true) :
    setState n level s = dispatch setState ((s.wires.line n).listeners level) (s.setLevel n level) := by
  rw [setState_eq]
  have fits : Fits s s := ⟨Wires.sameListeners_refl _, rfl, wf⟩
  exact dispatch_congr (setStateWithin_untouched _)
    (fun m b t ht => (setState_eq_within ht (Nat.le_add_right (courses s.wires.count + 1) 98) m b).symm) _ _
    ((untouched_setLevel s n level).fits fits)

/-- The level before does not matter (R62). -/
theorem setState_setLevel (n : LineName) (level before : Bool) (s : State) :
    setState n level (s.setLevel n before) = setState n level s := by
  rw [setState_eq, setState_eq, listeners_setLevel, State.setLevel_setLevel, (untouched_setLevel s n before).count]

/-- A made line has the level it was set to. -/
theorem level_setLevel {n : LineName} {s : State} (made : s.wires.made n = true) (level : Bool) :
    ((s.setLevel n level).wires.line n).level = level := by
  rw [State.setLevel_wires, Wires.line_setLine, if_pos ⟨rfl, made⟩]

/-- Registration appends to the list of its level and leaves the other, and makes the line where it has to (R61). -/
theorem listeners_registerListener (n : LineName) (level b : Bool) (r : Reaction) (s : State) :
    ((s.registerListener n level r).wires.line n).listeners b =
      if b = level then (s.wires.line n).listeners b ++ [r] else (s.wires.line n).listeners b := by
  rw [State.registerListener_wires, Wires.line_setLine, if_pos ⟨rfl, Wires.made_make s.wires n⟩,
    Line.listeners_register, Wires.line_make]

/-- Settles O50: the bound of `setState` is beyond every dispatch that completes; the rest says what one listener does. -/
theorem dispatchIsLevelTriggeredAndOrdered : Obligations.DispatchIsLevelTriggeredAndOrdered := by
  unfold Obligations.DispatchIsLevelTriggeredAndOrdered
  refine ⟨fun n level s wf => setState_eq_dispatch n level wf, fun n level s made => level_setLevel made level,
    setState_setLevel, dispatch_append setState, fun m b e v s => ⟨dispatch_singleton _ _ s, rfl, rfl, ?_⟩,
    fun on first last r q s => ⟨dispatch_both _ r q s, dispatch_branch _ on first last r q s⟩,
    fun n s => ⟨rfl, rfl, ?_⟩, fun n level r s => ⟨?_, ?_⟩⟩
  · rw [dispatch_singleton, react, BitVec.toNat_ofNat]
  · rw [Reading.value]
    cases (s.wires.line n).level <;> rfl
  · rw [listeners_registerListener, if_pos rfl]
  · rw [listeners_registerListener, if_neg (Bool.not_ne_self level)]

/-- However deep the calls may nest, a listener that re-asserts its own level goes deeper. -/
theorem setStateWithin_reasserting {n : LineName} {level : Bool} {rest : List Reaction} (depth : Nat) :
    ∀ s : State, (s.wires.line n).listeners level = .setLine n level :: rest →
      setStateWithin depth n level s = .fault .dispatchUnbounded := by
  induction depth with
  | zero => exact fun _ _ => rfl
  | succ depth ih =>
    intro s first
    have again := ih (s.setLevel n level) ((listeners_setLevel s n n level level).trans first)
    rw [setStateWithin_succ_eq, first, dispatch, react, again, Res.bind_fault]

/-- Settles O51, by induction on the depth. -/
theorem reassertingListenerNeverCompletes : Obligations.ReassertingListenerNeverCompletes := by
  unfold Obligations.ReassertingListenerNeverCompletes
  exact fun n level rest s first => setStateWithin_reasserting _ s first

/-- Settles O52: the listener that drives the other line answers what that line's two listeners leave. -/
theorem nestedDispatchRunsFirst : Obligations.NestedDispatchRunsFirst := by
  unfold Obligations.NestedDispatchRunsFirst
  intro n m a b x y z s _ outer inner t u v
  have nested : ∀ depth, setStateWithin (depth + 1) m b (s.setLevel n a) = .ok () v := fun depth => by
    rw [setStateWithin_succ_eq, listeners_setLevel, inner]
    rfl
  rw [setState_eq, outer, dispatch, react, nested, Res.bind_ok, dispatch_singleton, react]

/-- Settles O53. -/
theorem registrationDuringDispatchIsRefused : Obligations.RegistrationDuringDispatchIsRefused := by
  unfold Obligations.RegistrationDuringDispatchIsRefused
  intro n m level b r rest s first
  rw [setState_eq, first, dispatch, react, Res.bind_refused]

/-! ### Transactions -/

/-- A read transaction in which only clock HIGH is listened to (R72). -/
theorem memRead_of_rw_unlistened {s : State} (h : s.wires.rw.onHigh = []) (a : Word) :
    memRead a s = (setState .clock true ((s.writeAddrBus a.toNat).setLevel .rw Config.readLevel)).bind fun _ t =>
      .ok t.wires.data.value (t.record ⟨false, a, t.wires.data.value⟩) := by
  unfold memRead
  rw [setState_unlistened (by exact h)]
  rfl

/-- A write transaction in which only clock HIGH is listened to (R73). -/
theorem memWrite_of_rw_unlistened {s : State} (h : s.wires.rw.onLow = []) (a : Word) (v : Byte) :
    memWrite a v s = (setState .clock true
      (((s.writeAddrBus a.toNat).writeDataBus v.toNat).setLevel .rw Config.writeLevel)).bind fun _ t =>
      .ok () (t.record ⟨true, a, v⟩) := by
  unfold memWrite
  rw [setState_unlistened (by exact h)]
  rfl

/-- Settles O54. -/
theorem undrivenReadGivesTheLastDataBusValue : Obligations.UndrivenReadGivesTheLastDataBusValue := by
  unfold Obligations.UndrivenReadGivesTheLastDataBusValue
  refine ⟨fun x _ => BitVec.toNat_ofNat x 8, fun x _ => BitVec.toNat_ofNat x 16, fun a v s rw clock => ?_⟩
  rw [memRead_of_rw_unlistened (by exact rw), setState_unlistened (by exact clock), Res.bind_ok]
  exact ⟨_, rfl, rfl, rfl⟩

/-- The environment alone listens to clock HIGH. -/
theorem setState_clock_responder {s : State} (h : s.wires.clock.onHigh = [.responder]) :
    setState .clock true s = .ok () (responderReact (s.setLevel .clock true)) := by
  rw [setState_eq, show (s.wires.line .clock).listeners true = [.responder] from h]
  rfl

/-- RESPONDER's answer to a read (R76). -/
theorem responderReact_read {s : State} (read : s.wires.rw.level = Config.readLevel) :
    responderReact s =
      ((s.writeDataBus (Config.respRead s.env s.wires.addr.value s.wires.data.value).data.toNat).setEnv
        (Config.respRead s.env s.wires.addr.value s.wires.data.value).env).mergeRequests
          (Config.respRead s.env s.wires.addr.value s.wires.data.value).nmi
          (Config.respRead s.env s.wires.addr.value s.wires.data.value).irq := if_pos read

/-- RESPONDER's answer to a write (R76). -/
theorem responderReact_write {s : State} (write : s.wires.rw.level ≠ Config.readLevel) :
    responderReact s = (s.setEnv (Config.respWrite s.env s.wires.addr.value s.wires.data.value).env).mergeRequests
      (Config.respWrite s.env s.wires.addr.value s.wires.data.value).nmi
      (Config.respWrite s.env s.wires.addr.value s.wires.data.value).irq := if_neg write

/-- Settles O55. -/
theorem responderAnswersTheTransaction : Obligations.ResponderAnswersTheTransaction := by
  unfold Obligations.ResponderAnswersTheTransaction
  intro a v s rwHigh rwLow clock q w
  constructor
  · rw [memRead_of_rw_unlistened rwHigh, setState_clock_responder (by exact clock), Res.bind_ok,
      responderReact_read rfl]
    simp [q, Wires.setLine]
  · rw [memWrite_of_rw_unlistened rwLow, setState_clock_responder (by exact clock), Res.bind_ok,
      responderReact_write (show Config.writeLevel ≠ Config.readLevel by decide)]
    simp [w, Wires.setLine]

end Sys2Proof.Machine
end

section
/-! SUPPORT. BRK and interrupt entry: with flat RAM, and beside a device that raises a request in one of the transactions
of the entry (R242, R265, R269, R270, D16): O30. -/

namespace Sys2Proof.Machine

/-! ### Beside a raising device -/

/-- The addresses of the vectors' bytes, which no push reaches. -/
def vectorBytes : List Word := [0xFFFA, 0xFFFB, 0xFFFE, 0xFFFF]

/-- Transactions led from `s` to `t`, beside a device that raises `k` in those at `a` in the direction `level`: one of
them was such a one, or not, as `c` says. -/
structure Transacted (a : Word) (level : Bool) (k : Interrupt) (c : Bool) (s t : State) : Prop where
  raising : Raising a level k t
  pending : t.pending = (raised c k s).pending
  vectors : ∀ v ∈ vectorBytes, t.byteAt v = s.byteAt v

theorem Raising.setRegs {a : Word} {level : Bool} {k : Interrupt} {s : State} (h : Raising a level k s) (r : Regs) :
    Raising a level k (s.setRegs r) := h.of_wires (Wires.sameListeners_refl s.wires) h.wf

namespace Transacted

variable {a : Word} {level : Bool} {k : Interrupt} {c d : Bool} {s t u : State}

theorem setRegs (h : Transacted a level k c s t) (r : Regs) : Transacted a level k c s (t.setRegs r) :=
  ⟨h.raising.setRegs r, h.pending, h.vectors⟩

theorem trans (h : Transacted a level k c s t) (g : Transacted a level k d t u) : Transacted a level k (c || d) s u where
  raising := g.raising
  pending := by
    rw [g.pending, raised_pending, h.pending, raised_pending, raised_pending]
    simp [Bool.or_assoc, Bool.and_or_distrib_right]
  vectors v hv := (g.vectors v hv).trans (h.vectors v hv)

theorem refl (h : Raising a level k s) : Transacted a level k false s s :=
  ⟨h, by rw [raised_false], fun _ _ => rfl⟩

theorem memRead (h : Transacted a level k c s t) (b : Word) :
    ∃ u, Machine.memRead b t = .ok (t.byteAt b) u ∧ u.mem = t.mem ∧
      Transacted a level k (c || (decide (b = a) && level)) s u :=
  ⟨_, memRead_raising h.raising b, rfl, h.trans
    ⟨h.raising.of_wires (rewired_afterRead b t).listeners h.raising.wf, rfl, fun _ _ => rfl⟩⟩

end Transacted

theorem stackAddress_notMem_vectorBytes (b : Byte) : stackAddress b ∉ vectorBytes := by
  revert b; decide

theorem Transacted.push {a : Word} {level : Bool} {k : Interrupt} {c : Bool} {s t : State}
    (h : Transacted a level k c s t) (v : Byte) :
    ∃ u, Machine.push v t = .ok () u ∧ u.regs = { t.regs with sp := t.regs.sp - 1 } ∧
      Transacted a level k (c || (decide (stackAddress t.regs.sp = a) && !level)) s u := by
  have wf := h.raising.wf
  have written : Transacted a level k (decide (stackAddress t.regs.sp = a) && !level) t
      (raised (decide (stackAddress t.regs.sp = a) && !level) k (afterWrite (stackAddress t.regs.sp) v t)) :=
    { raising := h.raising.of_wires (rewired_afterWrite (stackAddress t.regs.sp) v t).listeners
        (Memory.wf_set (stackAddress t.regs.sp).isLt v wf)
      pending := rfl
      vectors := fun b hb => (Memory.get_set wf _ v _).trans (if_neg fun e =>
        stackAddress_notMem_vectorBytes _ (BitVec.eq_of_toNat_eq e ▸ hb)) }
  refine ⟨_, ?_, rfl, (h.trans written).setRegs { t.regs with sp := t.regs.sp - 1 }⟩
  rw [Machine.push, memWrite_raising h.raising, Res.bind_ok]
  rfl

/-- Whether one of the three pushes of an entry raises. -/
def raisedInPushes (a : Word) (level : Bool) (sp : Byte) : Bool :=
  decide (stackAddress sp = a) && !level || decide (stackAddress (sp - 1) = a) && !level ||
    decide (stackAddress (sp - 2) = a) && !level

/-- The three pushes of an entry. -/
theorem entryPushes_raising {a : Word} {level : Bool} {k : Interrupt} {s : State} (h : Raising a level k s)
    (ret : Word) (forced : Bool) :
    ∃ t u, pushWord ret s = .ok () t ∧ push (brkByte forced t.regs.p) t = .ok () u ∧
      Transacted a level k (raisedInPushes a level s.regs.sp) s u := by
  obtain ⟨r, high, regs, pushes⟩ := (Transacted.refl h).push (hi8 ret)
  obtain ⟨t, low, regs', pushes⟩ := pushes.push (lo8 ret)
  obtain ⟨u, status, -, pushes⟩ := pushes.push (brkByte forced t.regs.p)
  refine ⟨t, u, by rw [pushWord, high, Res.bind_ok, low], status, ?_⟩
  simpa only [raisedInPushes, regs', regs, byte_sub_one_sub_one, Bool.false_or] using pushes

/-- Whether one of the two reads of a vector raises. -/
def raisedInReads (a : Word) (level : Bool) (vec : Word) : Bool :=
  decide (vec = a) && level || decide (vec + 1 = a) && level

theorem readWord_raising {a : Word} {level : Bool} {k : Interrupt} {s : State} (h : Raising a level k s) (vec : Word) :
    ∃ t, readWord vec s = .ok (word (s.byteAt (vec + 1)) (s.byteAt vec)) t ∧
      Transacted a level k (raisedInReads a level vec) s t := by
  obtain ⟨r, low, mem, reads⟩ := (Transacted.refl h).memRead vec
  obtain ⟨t, high, -, reads⟩ := reads.memRead (vec + 1)
  have kept : r.byteAt (vec + 1) = s.byteAt (vec + 1) := congrArg (Memory.get · (vec + 1).toNat) mem
  exact ⟨t, by rw [readWord, readPair, low, Res.bind_ok, high, Res.bind_ok, kept], by
    simpa only [raisedInReads, Bool.false_or] using reads⟩

/-- The vector's two bytes are among those that no push reaches. -/
theorem vectorOf_mem (k : Interrupt) : vectorOf k ∈ vectorBytes ∧ vectorOf k + 1 ∈ vectorBytes := by
  cases k <;> decide

theorem clearRequest_pending (k : Interrupt) (s : State) : (s.clearRequest k).pending = s.pending.without k := by
  cases k <;> rfl

/-- An entry, by what its transactions answer. -/
theorem interruptEntry_of_transactions {forced : Bool} {s t u v : State} {ret target : Word}
    (stepped : (if forced = true then s else s.setPC (s.regs.pc + 1)) = s.setPC ret)
    (pushedWord : pushWord ret (s.setPC ret) = .ok () t) (status : push (brkByte forced t.regs.p) t = .ok () u)
    (read : readWord (vectorOf (served u.pending)) (u.setP { u.regs.p with i := true }) = .ok target v) :
    interruptEntry forced s = .ok () ((v.setPC target).clearRequest (served u.pending)) := by
  unfold interruptEntry
  dsimp only
  rw [stepped, State.setPC_regs, pushedWord, Res.bind_ok, status, Res.bind_ok, State.setP_pending, read, Res.bind_ok]

/-- The vector of an entry is chosen after its pushes, and the request served is cleared after the vector's reads
(R242, R270, D16). -/
theorem interruptEntry_raising {a : Word} {level : Bool} {k : Interrupt} {s : State} (h : Raising a level k s)
    (forced : Bool) {pushed : Pending} {vec : Word}
    (hpushed : pushed = (raised (raisedInPushes a level s.regs.sp) k s).pending)
    (hvec : vec = vectorOf (served pushed)) :
    ∃ t, interruptEntry forced s = .ok () t ∧ t.wires.clock.onLow = [] ∧
      t.regs.pc = word (s.byteAt (vec + 1)) (s.byteAt vec) ∧
      t.pending = ((raised (raisedInReads a level vec) k (s.setPending pushed)).pending).without (served pushed) := by
  obtain ⟨ret, stepped⟩ : ∃ ret, (if forced = true then s else s.setPC (s.regs.pc + 1)) = s.setPC ret := by
    cases forced
    · exact ⟨_, rfl⟩
    · exact ⟨s.regs.pc, rfl⟩
  obtain ⟨t, u, pushedWord, status, pushes⟩ :=
    entryPushes_raising (h.setRegs { s.regs with pc := ret }) ret forced
  have pending : u.pending = pushed := pushes.pending.trans hpushed.symm
  have masked := pushes.raising.setRegs { u.regs with p := { u.regs.p with i := true } }
  obtain ⟨v, target, reads⟩ := readWord_raising masked vec
  obtain ⟨low, high⟩ := vectorOf_mem (served pushed)
  rw [← hvec] at low high
  have bytes : word (u.byteAt (vec + 1)) (u.byteAt vec) = word (s.byteAt (vec + 1)) (s.byteAt vec) := by
    rw [pushes.vectors _ low, pushes.vectors _ high]
    rfl
  refine ⟨(v.setPC (word (u.byteAt (vec + 1)) (u.byteAt vec))).clearRequest (served pushed), ?_, ?_, ?_, ?_⟩
  · subst hvec
    rw [← pending] at target ⊢
    exact interruptEntry_of_transactions stepped pushedWord status target
  · rw [State.clearRequest_wires]
    exact reads.raising.clockLow
  · rw [State.clearRequest_regs, State.setPC_regs, bytes]
  · rw [clearRequest_pending, State.setPC_pending, reads.pending, raised_pending, raised_pending, State.setRegs_pending,
      pending, State.setPending_pending]

/-- The end of a cycle where nothing listens to clock LOW. -/
theorem finish_of_clockLow_unlistened {s : State} (h : s.wires.clock.onLow = []) (i : Instr) (crossed : Bool) :
    finish i (.ok crossed s) = .next (((s.charge (i.cost crossed)).setLevel .clock false).setLoop .boundary) := by
  rw [finish, Res.bind_ok, setState_unlistened (by exact h)]

/-- BRK beside a raising device. -/
theorem exec_brk_raising {a : Word} {level : Bool} {k : Interrupt} {s : State} (h : Raising a level k s)
    {pushed : Pending} {vec : Word} (hpushed : pushed = (raised (raisedInPushes a level s.regs.sp) k s).pending)
    (hvec : vec = vectorOf (served pushed)) :
    ∃ t, exec .brk s = .next t ∧ t.regs.pc = word (s.byteAt (vec + 1)) (s.byteAt vec) ∧
      t.pending = ((raised (raisedInReads a level vec) k (s.setPending pushed)).pending).without (served pushed) := by
  obtain ⟨t, entered, low, pc, pending⟩ := interruptEntry_raising h s.cyc.forced hpushed hvec
  have handler : exec .brk s = finish .brk (running (interruptEntry s.cyc.forced) s) := rfl
  rw [running, entered, Res.bind_ok, finish_of_clockLow_unlistened low] at handler
  exact ⟨_, handler, pc, pending⟩

/-! ### BRK -/

theorem vectorOf_served (p : Pending) : vectorOf (served p) = if p.nmi then 0xFFFA else 0xFFFE := by
  rw [served]
  split <;> rfl

theorem Pending.without_served (p : Pending) :
    p.without (served p) = if p.nmi then { p with nmi := false } else { p with irq := false } := by
  rw [served]
  split <;> rfl

/-- The request served absorbs one of its kind, and one of the other kind is left pending (D16). -/
theorem Pending.without_raised (k : Interrupt) (s : State) :
    ((raised true k (s.setPending s.pending)).pending).without (served s.pending) =
      if s.pending.nmi then { nmi := false, irq := s.pending.irq || decide (k = .irq) }
        else { nmi := decide (k = .nmi), irq := false } := by
  rw [served, raised_pending]
  cases nmi : s.pending.nmi <;> simp [Pending.without, nmi]

/-- The pushes of an entry write at SP, SP - 1 and SP - 2 (R80). -/
theorem raisedInPushes_of_depth (sp : Byte) (depth : Fin 3) :
    raisedInPushes (stackAddress (sp - BitVec.ofNat 8 depth)) Config.writeLevel sp = true := by
  fin_cases depth <;> simp [raisedInPushes, Config.writeLevel]

/-- Settles O30: an NMI raised in a push is pending when the vector is chosen; a request raised in a read of the vector is
merged before the one served is cleared; with flat RAM nothing is raised. -/
theorem breakAndInterruptEntry : Obligations.BreakAndInterruptEntry := by
  unfold Obligations.BreakAndInterruptEntry
  refine ⟨?_, ?_, by decide, fun s ready => ?_⟩
  · rintro s depth ⟨rwHigh, rwLow, clockHigh, clockLow, wf⟩
    have once := raisedInPushes_of_depth s.regs.sp depth
    have noRead (a vec : Word) : raisedInReads a Config.writeLevel vec = false := by
      simp [raisedInReads, Config.writeLevel]
    obtain ⟨t, next, pc, pending⟩ := exec_brk_raising (pushed := { s.pending with nmi := true })
      ⟨rwHigh, rwLow, clockHigh, clockLow, wf⟩ (by rw [once, raised_true]; rfl) rfl
    rw [noRead, raised_false] at pending
    exact ⟨t, next, pc, pending⟩
  · rintro s k high vec ⟨rwHigh, rwLow, clockHigh, clockLow, wf⟩
    have noPush (a : Word) : raisedInPushes a Config.readLevel s.regs.sp = false := by
      simp [raisedInPushes, Config.readLevel]
    have once : raisedInReads (if high then vec + 1 else vec) Config.readLevel vec = true := by
      cases high <;> simp [raisedInReads, Config.readLevel]
    obtain ⟨t, next, pc, pending⟩ := exec_brk_raising (pushed := s.pending) (vec := vec)
      ⟨rwHigh, rwLow, clockHigh, clockLow, wf⟩ (by rw [noPush, raised_false]) (vectorOf_served s.pending).symm
    refine ⟨t, next, pc, ?_⟩
    rw [pending, once, Pending.without_raised]
  · obtain ⟨u, entered, handled⟩ := interruptEntry_flatRam ready s.cyc.forced rfl rfl
    rw [vectorOf_served, Pending.without_served] at handled
    have cost : Instr.brk.cost false = 7 := by decide
    exact completesWith_running rfl entered handled cost.symm

end Sys2Proof.Machine
end

section
/-! SUPPORT. The decoder and the encoder against one another: what a documented opcode's bytes decode to, and that an
instruction is its mnemonic in its operand (R100..R108): O1 to O5. -/

namespace Sys2Proof

/-! ### An instruction is a mnemonic in an operand -/

theorem Mnemonic.instr_mnemonic (m : Mnemonic) (o : Operand) : (m.instr o).mnemonic = some m := by cases m <;> rfl

/-- An instruction loses nothing in its mnemonic and its operand (R107). -/
theorem Instr.eq_instr {i : Instr} {m : Mnemonic} (hm : i.mnemonic = some m) : m.instr i.operand = i := by
  cases i <;> cases hm <;> rfl

/-- In a mode that the mnemonic has, its instruction keeps the whole operand. -/
theorem Mnemonic.instr_operand {m : Mnemonic} {o : Operand} (h : o.mode ∈ m.modes) : (m.instr o).operand = o := by
  cases m with
  | lda | ldx | ldy | sta | stx | sty | adc | sbc | and | ora | eor | bit | cmp | cpx | cpy | inc | dec | asl | lsr
  | rol | ror | jmp => rfl
  | _ =>
    cases o <;> simp [Operand.mode, Mnemonic.modes] at h
    rfl

theorem wellFormed_of_mode_mem {i : Instr} {m : Mnemonic} (hm : i.mnemonic = some m) (h : i.operand.mode ∈ m.modes) :
    i.wellFormed = true := by
  cases i <;> cases hm <;> exact List.contains_iff_mem.mpr h

theorem wellFormed_unimplemented {opcode : Byte} :
    (Instr.unimplemented opcode).wellFormed = true ↔ opcode ∈ unimplementedOpcodes := List.contains_iff_mem

theorem encode_unimplemented {opcode : Byte} (h : opcode ∈ unimplementedOpcodes) :
    encode (.unimplemented opcode) = some [opcode] := if_pos (List.contains_iff_mem.mpr h)

/-- The slot of a well-formed documented instruction. -/
theorem descriptor_of_wellFormed {i : Instr} {m : Mnemonic} (hm : i.mnemonic = some m) (h : i.wellFormed = true) :
    ∃ d ∈ table, i.descriptor = some d ∧ d.mnemonic = m ∧ d.mode = i.operand.mode := by
  obtain ⟨d, slot⟩ := Option.isSome_iff_exists.mp (modes_descriptorOf m _ (Machine.mode_mem_of_wellFormed hm h))
  obtain ⟨mem, mnemonic, mode⟩ := descriptorOf_eq_some slot
  exact ⟨d, mem, by rw [Instr.descriptor, hm, Option.bind_some, slot], mnemonic, mode⟩

/-! ### What the bytes after a documented opcode decode to -/

theorem Mode.assemble_bytes (m : Mode) (byte1 byte2 : Byte) :
    (m.assemble byte1 byte2).bytes = [byte1, byte2].take m.operandBytes := by
  cases m <;> simp [Mode.assemble, Operand.bytes, Mode.operandBytes]

/-- After a documented opcode the decoder reads the bytes of one operand in the slot's mode, and no more. -/
theorem decode_documented {opcode : Byte} {d : Descriptor} (hd : descriptor opcode = some d) {bytes rest : List Byte}
    {i : Instr} : decode (opcode :: bytes) = .ok (i, rest) ↔
      ∃ o : Operand, o.mode = d.mode ∧ bytes = o.bytes ++ rest ∧ i = d.mnemonic.instr o := by
  constructor
  · intro h
    have assembled (byte1 byte2 : Byte) := Mode.assemble_bytes d.mode byte1 byte2
    simp only [decode, hd] at h
    split at h
    case h_4 => cases h
    all_goals
      rename_i length
      cases h
      exact ⟨_, Mode.assemble_mode _ _ _, by simp [assembled, length], rfl⟩
  · rintro ⟨o, mode, rfl, rfl⟩
    cases o <;>
      simp [decode, hd, ← mode, Operand.mode, Operand.bytes, Mode.operandBytes, Descriptor.instr, Mode.assemble]

theorem decode_undocumented {opcode : Byte} (h : descriptor opcode = none) (bytes : List Byte) :
    decode (opcode :: bytes) = .ok (.unimplemented opcode, bytes) := by
  simp [decode, h]

/-! ### The obligations -/

/-- Settles O1: the encoder's slot is found again by its opcode, and the operand by its bytes. -/
theorem decodeOfEncodeIsTheInstruction : Obligations.DecodeOfEncodeIsTheInstruction := by
  unfold Obligations.DecodeOfEncodeIsTheInstruction
  intro i rest wf
  cases hm : i.mnemonic with
  | none =>
    obtain ⟨opcode, rfl⟩ : ∃ opcode, i = .unimplemented opcode := by cases i <;> cases hm; exact ⟨_, rfl⟩
    have listed := wellFormed_unimplemented.mp wf
    exact ⟨_, encode_unimplemented listed, decode_undocumented (descriptor_unimplemented opcode listed) rest⟩
  | some m =>
    obtain ⟨d, mem, slot, rfl, mode⟩ := descriptor_of_wellFormed hm wf
    exact ⟨_, encode_of_descriptor hm slot,
      (decode_documented (table_opcode d mem)).mpr ⟨i.operand, mode.symm, rfl, (Instr.eq_instr hm).symm⟩⟩

/-- Settles O2: the operand that the decoder read is the operand of the instruction it answers. -/
theorem encodeOfDecodeGivesTheBytesBack : Obligations.EncodeOfDecodeGivesTheBytesBack := by
  unfold Obligations.EncodeOfDecodeGivesTheBytesBack
  intro bytes rest i h
  cases bytes with
  | nil => cases h
  | cons opcode bytes =>
    cases hd : descriptor opcode with
    | none =>
      rw [decode_undocumented hd] at h
      cases h
      have listed := unimplemented_of_descriptor opcode hd
      exact ⟨wellFormed_unimplemented.mpr listed, _, encode_unimplemented listed, rfl⟩
    | some d =>
      obtain ⟨o, mode, rfl, rfl⟩ := (decode_documented hd).mp h
      obtain ⟨mem, rfl⟩ := descriptor_eq_some hd
      have hm := d.mnemonic.instr_mnemonic o
      have supported : o.mode ∈ d.mnemonic.modes := by simpa [mode] using table_modes d mem
      have operand := Mnemonic.instr_operand supported
      have slot : (d.mnemonic.instr o).descriptor = some d := by
        rw [Instr.descriptor, hm, Option.bind_some, operand, mode, table_descriptorOf d mem]
      refine ⟨wellFormed_of_mode_mem hm (by rwa [operand]), _, encode_of_descriptor hm slot, ?_⟩
      rw [operand, List.cons_append]

/-- Settles O3. -/
theorem writtenOutWordsDecode : Obligations.WrittenOutWordsDecode := by
  unfold Obligations.WrittenOutWordsDecode
  decide

/-- Settles O4: the list rises strictly, so no opcode is on it twice. -/
theorem undocumentedSlotsAreTheListed105 : Obligations.UndocumentedSlotsAreTheListed105 := by
  unfold Obligations.UndocumentedSlotsAreTheListed105
  have rising : unimplementedOpcodes.IsChain (· < ·) := by simp [unimplementedOpcodes]
  refine ⟨rfl, rising.pairwise.imp fun lt => BitVec.ne_of_lt lt, fun opcode => ?_⟩
  exact ⟨unimplemented_of_descriptor opcode, descriptor_unimplemented opcode⟩

/-- Settles O5, by a check of each row of the table. -/
theorem pageCrossFlagOnExactlyTheListedSlots : Obligations.PageCrossFlagOnExactlyTheListedSlots := by
  unfold Obligations.PageCrossFlagOnExactlyTheListedSlots
  apply forall_table <;> decide

end Sys2Proof
end

section
/-! SUPPORT. The run status after a step: only an unimplemented opcode ends a run fatally, whatever the wiring (R106,
R260..R263): O9 and O43. -/

namespace Sys2Proof.Machine

/-- Settles O9: the handler of an unimplemented slot raises at once, and the end of the cycle is skipped (R146). -/
theorem unimplementedOpcodeEndsTheRun : Obligations.UnimplementedOpcodeEndsTheRun := by
  unfold Obligations.UnimplementedOpcodeEndsTheRun
  intro opcode s
  rfl

/-- The run status a cycle of a well-formed instruction leaves: as it was, or fatal by an unimplemented slot. -/
theorem CycleEnds.run {i : Instr} {s t : State} (wf : i.wellFormed = true) (h : CycleEnds i s t) :
    t.run = s.run ∨ ∃ opcode ∈ unimplementedOpcodes, t.run = .fatal .unimplementedOpcode opcode s.cyc.opcAddr := by
  obtain ⟨u, crossed, v, kept, ended, rfl⟩ | ⟨u, kind, opcode, kept, rfl, only⟩ := h
  · exact .inl (ended.run.trans kept.run)
  · obtain ⟨rfl, rfl⟩ := only wf
    exact .inr ⟨opcode, wellFormed_unimplemented.mp wf, congrArg (RunStatus.fatal _ opcode) kept.opcAddr⟩

/-- The run status a `cycle()` leaves, whatever the wiring. -/
theorem cycle_run {s t : State} (h : cycle s = .next t) :
    t.run = s.run ∨ ∃ opcode ∈ unimplementedOpcodes, t.run = .fatal .unimplementedOpcode opcode s.regs.pc := by
  obtain ⟨i, wf, ends⟩ := cycle_cases h
  exact ends.run wf

theorem RunStatus.poweredUp_of_not_fatal {r : RunStatus} (h : ∀ kind opcode address, r ≠ .fatal kind opcode address) :
    r.poweredUp = .running := by
  cases r with
  | running => rfl
  | stopped => rfl
  | fatal kind opcode address => exact absurd rfl (h kind opcode address)

theorem State.safe_iff {s : State} : s.safe = true ↔ ∀ kind opcode address, s.run ≠ .fatal kind opcode address := by
  unfold State.safe
  split <;> simp_all

/-- Settles O43: a cycle's instruction is well formed, and no other move ends a run fatally. -/
theorem onlyUnimplementedOpcodesEndARunFatally : Obligations.OnlyUnimplementedOpcodesEndARunFatally := by
  unfold Obligations.OnlyUnimplementedOpcodesEndARunFatally
  intro s t kind opcode address h safe fatal
  have notFatal := State.safe_iff.mp safe
  obtain ⟨turns, ⟨-, -, h⟩ | ⟨-, -, u, powered, rfl⟩ | ⟨-, quiet⟩⟩ := step_cases h
  · obtain same | ⟨slot, listed, run⟩ := cycle_run h
    · exact absurd (same.symm.trans fatal) (notFatal kind opcode address)
    · cases run.symm.trans fatal
      exact ⟨rfl, listed, rfl⟩
  · have running := (powerUp_run powered).trans (RunStatus.poweredUp_of_not_fatal notFatal)
    exact nomatch running.symm.trans fatal
  · obtain same | ⟨-, stopped⟩ := quiet.run
    · exact absurd (same.symm.trans fatal) (notFatal kind opcode address)
    · exact nomatch stopped.symm.trans fatal

end Sys2Proof.Machine
end

section
/-! SUPPORT. The compare handler with flat RAM, in a mode that the mnemonic has and in one that it has not (R196..R198,
R262): O22. -/

namespace Sys2Proof.Machine

/-- What a comparison makes of the registers. -/
def comparedRegs (register : Regs → Byte) (m : Byte) (r : Regs) : Regs :=
  { r with p := compareFlags (register r) m r.p }

/-- In a mode of the list, the compare handler is one that reads its operand and changes registers. -/
theorem comparing_of_supported {modes : List Mode} {o : Operand} (h : modes.contains o.mode = true) (i : Instr)
    (register : Regs → Byte) (s : State) :
    comparing i modes o register s = finish i (reading o (fun m u => u.setRegs (comparedRegs register m u.regs)) s) := by
  simp only [comparing, h, if_true]
  rfl

/-- In another mode, flat RAM answers the pointer reads of operand resolution and the run ends. -/
theorem comparing_of_unsupported {modes : List Mode} {o : Operand} (h : modes.contains o.mode = false) (i : Instr)
    (register : Regs → Byte) {s : State} (flat : s.wires.isFlatRam) :
    comparing i modes o register s = .next (((afterPointer o s).setADL (effectiveAddress o s)).setRun
      (.fatal .invalidAddressingMode s.cyc.opcode s.cyc.opcAddr)) := by
  rw [comparing, resolve_flatRam flat, Res.bind_ok, h, if_neg Bool.false_ne_true]
  simp [raiseFatal, finish, State.setADL]

section
variable {i : Instr} {m : Mnemonic} {register : Regs → Byte} {s : State}

/-- A well-formed compare completes, and of the registers changes ADL and P only. -/
theorem completesWith_comparing (hm : i.mnemonic = some m) (hi : Mode.imp ∉ m.modes)
    (hexec : exec i s = comparing i m.modes i.operand register s) (flat : s.wires.isFlatRam)
    (wf : i.wellFormed = true) :
    CompletesWith i s (registerEffect i s
      (comparedRegs register (operandIn i.operand s) { s.regs with adl := effectiveAddress i.operand s })
      (pointerReads i.operand s ++ operandReads i.operand s) (crossing i.operand s)) := by
  have supported := List.contains_iff_mem.mpr (mode_mem_of_wellFormed hm wf)
  exact completesWith_reading (f := comparedRegs register) (hexec.trans (comparing_of_supported supported i register s))
    (fun _ _ => rfl) flat (operand_ne_imp hm wf hi)

/-- An ill-formed compare ends the run, uncharged, with memory as it was. -/
theorem exec_comparing_illFormed (hm : i.mnemonic = some m)
    (hexec : exec i s = comparing i m.modes i.operand register s) (flat : s.wires.isFlatRam)
    (illFormed : i.wellFormed = false) :
    ∃ t, exec i s = .next t ∧ t.run = .fatal .invalidAddressingMode s.cyc.opcode s.cyc.opcAddr ∧
      t.budget = s.budget ∧ t.mem = s.mem := by
  have unsupported : m.modes.contains i.operand.mode = false := by
    rw [Bool.eq_false_iff, ne_eq, List.contains_iff_mem]
    exact fun supported => Bool.false_ne_true (illFormed.symm.trans (wellFormed_of_mode_mem hm supported))
  exact ⟨_, hexec.trans (comparing_of_unsupported unsupported i register flat), rfl, by simp [State.setADL],
    by simp [State.setADL]⟩

end

/-- Settles O22. -/
theorem comparesSetFlagsOnly : Obligations.ComparesSetFlagsOnly := by
  unfold Obligations.ComparesSetFlagsOnly
  refine ⟨by decide, by decide, by decide, fun o s ⟨flat, _⟩ => ⟨⟨?_, ?_⟩, ⟨?_, ?_⟩, ⟨?_, ?_⟩⟩⟩
  · exact completesWith_comparing (i := .cmp o) (register := Regs.a) rfl (by decide) rfl flat
  · exact exec_comparing_illFormed (i := .cmp o) (register := Regs.a) rfl rfl flat
  · exact completesWith_comparing (i := .cpx o) (register := Regs.x) rfl (by decide) rfl flat
  · exact exec_comparing_illFormed (i := .cpx o) (register := Regs.x) rfl rfl flat
  · exact completesWith_comparing (i := .cpy o) (register := Regs.y) rfl (by decide) rfl flat
  · exact exec_comparing_illFormed (i := .cpy o) (register := Regs.y) rfl rfl flat

end Sys2Proof.Machine
end

section
/-! SUPPORT. The accounts of the throughput: what a step can make of the credit, the cumulative counter, the wake signal
and the ticker's phase, said once, and the potential `allowance` over it (R281, R285, R290): O59 and O60. -/

namespace Sys2Proof.Machine

/-- What of the state decides how many cycles may still be charged. -/
structure Account where
  credit : Int
  total : Int
  wake : Bool
  ticker : TickerPhase
  loop : LoopPoint

def State.account (s : State) : Account :=
  ⟨s.budget.credit, s.budget.total, s.sched.wake, s.sched.ticker, s.loop⟩

/-- `allowance`, of an account. -/
def Account.allowance (a : Account) : Int :=
  allowanceOf a.credit a.wake (a.ticker == .granted) (a.loop == .cycle)

theorem allowance_eq (s : State) : allowance s = s.account.allowance := rfl

/-- What a step other than a diagnostic one can make of the account. -/
inductive Account.Move (a : Account) : Account → Prop where
  /-- A cycle that completes charges its cost and goes back to the boundary (R143). -/
  | charge {cost : Nat} (bounded : cost ≤ 7) (atCycle : a.loop = .cycle) :
      Move a { a with credit := a.credit - cost, total := a.total + cost, loop := .boundary }
  /-- The execution agent stands elsewhere; past the gate only with credit (R285). -/
  | walk (l : LoopPoint) (passed : l = .cycle → a.loop = .cycle ∨ 1 ≤ a.credit) : Move a { a with loop := l }
  /-- A wake signal lets one cycle past the gate (R285). -/
  | release (woken : a.wake = true) : Move a { a with wake := false, loop := .cycle }
  /-- tick.1 (R281). -/
  | grant (idle : a.ticker = .idle) : Move a { a with credit := Config.creditPerTick, ticker := .granted }
  /-- tick.2 (R281). -/
  | wakeUp (granted : a.ticker = .granted) : Move a { a with wake := true, ticker := .idle }

/-! ### The moves of the agents -/

theorem Account.Move.refl (a : Account) : a.Move a := .walk a.loop .inl

theorem tickerMove_account (s : State) : s.account.Move (tickerMove Config.creditPerTick s).account := by
  unfold tickerMove
  split
  · exact .grant ‹_›
  · exact .wakeUp ‹_›

theorem creditGate_account (s : State) : s.account.Move (creditGate s).account := by
  unfold creditGate
  split
  · split
    · exact .release ‹_›
    · exact .walk .waiting nofun
  · exact .walk .cycle fun _ => .inr (Int.not_lt.mp ‹_›)

theorem CycleEnds.account {i : Instr} {s t : State} (h : CycleEnds i s t) (atCycle : s.loop = .cycle) :
    s.account.Move t.account := by
  obtain ⟨u, crossed, v, kept, ended, rfl⟩ | ⟨u, kind, opcode, kept, rfl, -⟩ := h
  · have charged : (v.setLoop .boundary).account = { s.account with
        credit := s.account.credit - i.cost crossed, total := s.account.total + i.cost crossed, loop := .boundary } := by
      simp [State.account, ended.budget, ended.sched, kept.budget, kept.sched]
    exact charged ▸ .charge (Instr.cost_le i crossed) atCycle
  · have same : (u.setRun (.fatal kind opcode u.cyc.opcAddr)).account = s.account := by
      simp [State.account, kept.budget, kept.sched, kept.loop]
    exact same ▸ .refl _

theorem cycle_account {s t : State} (atCycle : s.loop = .cycle) (h : cycle s = .next t) :
    s.account.Move t.account := by
  obtain ⟨i, -, ends⟩ := cycle_cases h
  exact ends.account (s := s.beginCycle s.forced) atCycle

theorem executionMove_account {s t : State} (free : s.blocked = false) (h : executionMove s = .next t) :
    s.account.Move t.account := by
  unfold executionMove at h
  split at h
  case h_1 => cases h; exact .walk .boundary nofun
  case h_2 =>
    cases h
    split
    · exact .refl _
    · split
      · exact .walk .held nofun
      · exact creditGate_account s
  case h_3 => cases h; exact creditGate_account s
  case h_4 loop =>
    cases h
    have woken : s.sched.wake = true := by simpa [State.blocked, loop] using free
    exact .release woken
  case h_5 loop => exact cycle_account loop h

theorem powerUp_account {v : Config.ResetValues} {s t : State} (h : powerUp v s = .ok () t) :
    s.account.Move (t.setLoop .idle).account := by
  have all := powerUp_untouched v s
  rw [h] at all
  obtain ⟨u, target, reads, rfl⟩ := all
  have same : ((u.setPC target).setLoop .idle).account = { s.account with loop := .idle } := by
    simp [State.account, reads.budget, reads.sched]
  exact same ▸ .walk .idle nofun

theorem powerUpTurn_account {s t : State} (h : powerUpTurn s = .next t) : s.account.Move t.account := by
  cases looping : s.looping with
  | true => rw [powerUpTurn_of_looping looping] at h; cases h
  | false =>
    rw [powerUpTurn_of_not_looping looping] at h
    have never := powerUp_untouched Config.resetValues s
    cases powered : powerUp Config.resetValues s with
    | ok _ u => rw [powered] at h; cases h; exact powerUp_account powered
    | fatal u => rw [powered] at never; exact never.elim
    | fault _ => rw [powered] at h; cases h
    | refused _ => rw [powered] at h; cases h

theorem takeTurn_account {s t : State} {turn : Turn} (notDiagnostic : turn ≠ .diagnostic)
    (h : takeTurn turn s = .next t) : s.account.Move t.account := by
  cases turn with
  | execution =>
    unfold takeTurn executionTurn at h
    dsimp only at h
    split at h
    · rename_i ready
      exact executionMove_account ready.2 h
    · cases h; exact .refl _
  | ticker =>
    cases h
    split
    · exact tickerMove_account s
    · exact .refl _
  | diagnostic => exact absurd rfl notDiagnostic
  | request k => cases h; cases k <;> exact .refl s.account
  | setStop v => cases h; exact .refl s.account
  | setPause v => cases h; exact .refl s.account
  | setTicking v => cases h; exact .refl s.account
  | powerUp => exact powerUpTurn_account h

theorem defaultTurn_account {s t : State} (h : defaultTurn s = .next t) : s.account.Move t.account := by
  unfold defaultTurn at h
  split at h
  case h_1 => cases h
  case h_2 => cases h
  case h_3 =>
    split at h
    · split at h
      · split at h
        · cases h; exact tickerMove_account s
        · cases h
      · cases h
    · exact executionMove_account (Bool.not_eq_true _ ▸ ‹_›) h

/-- Everything a step other than a diagnostic one can make of the account. -/
theorem step_account {s t : State} (notDiagnostic : s.sched.turns.head? ≠ some .diagnostic) (h : step s = .next t) :
    s.account.Move t.account := by
  cases listed : s.sched.turns with
  | nil => exact defaultTurn_account (by simpa [step, listed] using h)
  | cons turn rest =>
    rw [step_of_turns listed] at h
    refine takeTurn_account (s := s.setSched { s.sched with turns := rest }) ?_ h
    rintro rfl
    exact notDiagnostic (by rw [listed]; rfl)

/-! ### The credit and the allowance -/

theorem creditPerTick_nonneg : 0 ≤ Config.creditPerTick := Int.natCast_nonneg _

theorem Account.Move.credit_le {a b : Account} (h : a.Move b) (granted : a.credit ≤ Config.creditPerTick) :
    b.credit ≤ Config.creditPerTick := by
  cases h with
  | charge => exact (Int.sub_le_self _ (Int.natCast_nonneg _)).trans granted
  | grant => exact le_rfl
  | walk | release | wakeUp => exact granted

/-- Settles O59: the diagnostic agent leaves the credit, a cycle lowers it, and tick.1 sets it to the bound. -/
theorem creditStaysWithinTheGrant : Obligations.CreditStaysWithinTheGrant := by
  unfold Obligations.CreditStaysWithinTheGrant
  intro s t h granted
  by_cases diagnostic : s.sched.turns.head? = some .diagnostic
  · obtain ⟨rest, listed⟩ := List.head?_eq_some_iff.mp diagnostic
    rw [step_of_turns listed] at h
    cases h
    exact granted
  · exact (step_account diagnostic h).credit_le granted

/-- What the credit, or else a cycle already past the gate, lets the core charge (R285). -/
def Account.onCredit (a : Account) : Int := if 1 ≤ a.credit then a.credit + 6 else if a.loop = .cycle then 7 else 0

theorem Account.allowance_eq (a : Account) : a.allowance =
    a.onCredit + (if a.wake then 7 else 0) + (if a.ticker = .granted then 7 else 0) := by
  simp [Account.allowance, allowanceOf, Account.onCredit]

theorem Account.onCredit_nonneg (a : Account) : 0 ≤ a.onCredit := by
  unfold Account.onCredit
  split_ifs <;> omega

theorem Account.allowance_nonneg (a : Account) : 0 ≤ a.allowance := by
  have := a.onCredit_nonneg
  rw [Account.allowance_eq]
  split_ifs <;> omega

/-- Without credit, at most the one cycle past the gate is left. -/
theorem Account.onCredit_le {a : Account} : a.onCredit ≤ if 1 ≤ a.credit then a.credit + 6 else 7 := by
  unfold Account.onCredit
  split_ifs <;> omega

/-- A move charges at most what the allowance loses; tick.1 adds to it what the period may charge. -/
theorem Account.Move.potential {a b : Account} (h : a.Move b) (granted : a.credit ≤ Config.creditPerTick) :
    b.total + b.allowance ≤ a.total + a.allowance +
      (if a.ticker = .idle ∧ b.ticker = .granted then Config.creditPerTick + 13 else 0) := by
  have nonneg := creditPerTick_nonneg
  have ungranted : 0 ≤ if a.ticker = .idle ∧ b.ticker = .granted then Config.creditPerTick + 13 else 0 := by
    split_ifs <;> omega
  rw [Account.allowance_eq, Account.allowance_eq]
  cases h with
  | @charge cost bounded atCycle =>
    have spent : cost + Account.onCredit { a with
        credit := a.credit - cost, total := a.total + cost, loop := .boundary } ≤ a.onCredit := by
      simp only [Account.onCredit, atCycle, if_true, reduceCtorEq, if_false]
      split_ifs <;> omega
    dsimp only at ungranted ⊢
    omega
  | walk l passed =>
    have kept : Account.onCredit { a with loop := l } ≤ a.onCredit := by
      simp only [Account.onCredit]
      split_ifs <;> grind
    dsimp only at ungranted ⊢
    omega
  | release woken =>
    have taken : Account.onCredit { a with wake := false, loop := .cycle } ≤ a.onCredit + 7 := by
      simp only [Account.onCredit, if_true]
      split_ifs <;> omega
    dsimp only at ungranted ⊢
    rw [woken, if_pos rfl, if_neg Bool.false_ne_true]
    omega
  | grant idle =>
    have filled : Account.onCredit { a with credit := Config.creditPerTick, ticker := .granted } ≤
        a.onCredit + (Config.creditPerTick + 6) := by
      simp only [Account.onCredit]
      split_ifs <;> omega
    dsimp only
    simp only [idle, true_and, if_true, reduceCtorEq, if_false]
    omega
  | wakeUp inTick =>
    have same : Account.onCredit { a with wake := true, ticker := .idle } = a.onCredit := rfl
    dsimp only at ungranted ⊢
    simp only [inTick, if_true, reduceCtorEq, if_false, same]
    split_ifs <;> omega

/-- Right after a tick.1 the allowance is what its period may charge. -/
theorem Account.allowance_le_of_granted {a : Account} (granted : a.ticker = .granted)
    (credit : a.credit = Config.creditPerTick) : a.allowance ≤
      (if 1 ≤ Config.creditPerTick then Config.creditPerTick + 13 else 14) + (if a.wake then 7 else 0) := by
  have opened := a.onCredit_le
  rw [credit] at opened
  rw [Account.allowance_eq, if_pos granted]
  split_ifs at opened ⊢ <;> omega

/-- In a run without a tick.1 and without a diagnostic step, what is charged is taken from the first allowance. -/
theorem run_keeps_potential {run : Nat → State} {n : Nat} (credit : (run 0).account.credit ≤ Config.creditPerTick)
    (steps : ∀ k < n, step (run k) = .next (run (k + 1)) ∧ (run k).sched.turns.head? ≠ some .diagnostic ∧
      ¬((run k).account.ticker = .idle ∧ (run (k + 1)).account.ticker = .granted)) :
    (run n).account.credit ≤ Config.creditPerTick ∧
    (run n).account.total + (run n).account.allowance ≤ (run 0).account.total + (run 0).account.allowance := by
  induction n with
  | zero => exact ⟨credit, le_rfl⟩
  | succ n ih =>
    obtain ⟨within, total⟩ := ih fun k hk => steps k (Nat.lt_succ_of_lt hk)
    obtain ⟨stepped, notDiagnostic, notGrant⟩ := steps n (Nat.lt_succ_self n)
    have move := step_account notDiagnostic stepped
    have potential := move.potential within
    rw [if_neg notGrant, add_zero] at potential
    exact ⟨move.credit_le within, potential.trans total⟩

/-- Settles O60: the potential of each step, added up over the run. -/
theorem chargesStayWithinTheTicks : Obligations.ChargesStayWithinTheTicks := by
  unfold Obligations.ChargesStayWithinTheTicks
  refine ⟨fun s t h granted notDiagnostic => ?_, fun run n granted credit steps => ?_⟩
  · rw [allowance_eq, allowance_eq]
    exact (step_account notDiagnostic h).potential granted
  · have spent := (run_keeps_potential (n := n) credit.le steps).2
    have left := (run n).account.allowance_nonneg
    have allowed := Account.allowance_le_of_granted (a := (run 0).account) granted credit
    calc (run n).account.total
      _ ≤ (run 0).account.total + (run 0).account.allowance := by omega
      _ ≤ _ := by rw [add_assoc]; exact Int.add_le_add_left allowed _

end Sys2Proof.Machine
end

section
/-! SUPPORT. Operand resolution mode by mode (R124..R137), the step past the gate (R121, R124, R145) and the charge of a
slot (R143): O6, O7 and O10. -/

namespace Sys2Proof.Machine

/-! ### Operand resolution -/

/-- The high byte of a zero-page pointer is read at the next address, in the zero page where ZP_PTR_WRAP is set
(R134, R135). -/
theorem zpPointerHigh_eq (wrap : Bool) (p : Byte) :
    zpPointerHigh wrap p = if wrap then zext16 (p + 1) else zext16 p + 1 := by
  by_cases last : p = 0xFF
  · subst last
    cases wrap <;> rfl
  · have next : zext16 (p + 1) = zext16 p + 1 := by
      unfold zext16
      bv_omega
    rw [zpPointerHigh, if_neg last, next, ite_self]

/-- The high byte of JMP's pointer is read at the next address, in the pointer's own page where JMP_IND_PAGE_WRAP is set
(R129). -/
theorem indPointerHigh_eq (wrap : Bool) (w : Word) :
    indPointerHigh wrap w = if wrap then word (hi8 w) (lo8 w + 1) else w + 1 := by
  by_cases last : lo8 w = 0xFF
  · simp [indPointerHigh, last]
  · have next : word (hi8 w) (lo8 w + 1) = w + 1 := by
      apply BitVec.eq_of_toNat_eq
      have low := toNat_lo8 w
      have notLast : (lo8 w).toNat ≠ 255 := fun e => last (BitVec.eq_of_toNat_eq e)
      have noCarry : (lo8 w + 1).toNat = w.toNat % 256 + 1 := by bv_omega
      rw [toNat_word, toNat_hi8, noCarry]
      bv_omega
    rw [indPointerHigh, if_neg last, next, ite_self]

theorem pageDiffers_eq_decide (v w : Word) : pageDiffers v w = decide (hi8 v ≠ hi8 w) := by
  rw [Bool.eq_iff_iff]
  simp [pageDiffers]

/-- What operand resolution answers with flat RAM, of the state after it: ADL, memory and the transactions. -/
theorem resolve_gives {s : State} (flat : s.wires.isFlatRam) (o : Operand) :
    ∃ t, resolve o s = .ok (crossing o s) t ∧ t.regs = { s.regs with adl := effectiveAddress o s } ∧ t.mem = s.mem ∧
      t.cyc = { s.cyc with trace := s.cyc.trace ++ pointerReads o s } :=
  ⟨_, resolve_flatRam flat o, (handled_resolve flat o).regs, afterPointer_mem o s, (handled_resolve flat o).cyc⟩

/-- Settles O10: each mode's crossing, address and pointer reads are those of the definitions. -/
theorem resolutionByMode : Obligations.ResolutionByMode := by
  unfold Obligations.ResolutionByMode
  intro s w b flat
  simp only [← zpPointerHigh_eq, ← indPointerHigh_eq, ← pageDiffers_eq_decide]
  exact ⟨resolve_gives flat .imp, resolve_gives flat .acc, resolve_gives flat (.imm b), resolve_gives flat (.abs w),
    resolve_gives flat (.ind w), resolve_gives flat (.abx w), resolve_gives flat (.aby w), resolve_gives flat (.zp b),
    resolve_gives flat (.zpx b), resolve_gives flat (.zpy b), resolve_gives flat (.izx b), resolve_gives flat (.izy b),
    resolve_gives flat (.rel b)⟩

/-! ### The step and the charge -/

/-- Settles O6: the descriptor of a slot's instruction is the slot. -/
theorem everySlotIsChargedItsRow : Obligations.EverySlotIsChargedItsRow := by
  unfold Obligations.EverySlotIsChargedItsRow
  intro d slot byte1 byte2 crossed
  simp [Instr.cost, table_instr_descriptor slot]

/-- With flat RAM the fetch answers what the bytes at PC decode to, and has read the bytes that the decoder took. -/
theorem fetch_of_decode {s : State} (flat : s.wires.isFlatRam) {i : Instr} {rest : List Byte}
    (h : decode [s.byteAt s.regs.pc, s.byteAt (s.regs.pc + 1), s.byteAt (s.regs.pc + 2)] = .ok (i, rest)) :
    fetch (s.beginCycle false) = .ok i (fetched (3 - rest.length) s) := by
  rw [fetch_flatRam flat]
  cases slot : descriptor (s.byteAt s.regs.pc) with
  | none =>
    rw [decode_undocumented slot] at h
    cases h
    rfl
  | some d =>
    have lengths : d.mode.operandBytes = 0 ∨ d.mode.operandBytes = 1 ∨ d.mode.operandBytes = 2 := by
      cases d.mode <;> decide
    have next : s.regs.pc + 1 + 1 = s.regs.pc + 2 := by bv_omega
    rcases lengths with length | length | length <;> simp only [decode, slot, length] at h ⊢ <;> cases h
    · rfl
    · rfl
    · rw [next]; rfl

theorem fetched_regs (n : Nat) (s : State) :
    (fetched n s).regs = { s.regs with pc := s.regs.pc + BitVec.ofNat 16 n } := afterBytes_regs n (s.beginCycle false)

theorem fetched_mem (n : Nat) (s : State) : (fetched n s).mem = s.mem := afterBytes_mem n (s.beginCycle false)

/-- Settles O7. -/
theorem stepExecutesTheDecodedInstruction : Obligations.StepExecutesTheDecodedInstruction := by
  unfold Obligations.StepExecutesTheDecodedInstruction
  intro s i rest atCycle flat pending decoded
  refine ⟨?_, fetched_regs _ s, fetched_mem _ s⟩
  have unforced : s.forced = false := by rw [State.forced, pending]; rfl
  rw [step_of_atCycle atCycle, cycle_of_not_forced unforced, fetch_of_decode flat decoded]
  rfl

end Sys2Proof.Machine
end

section
/-! SUPPORT. With flat RAM, the instructions that read their operand once and change registers: loads (R160..R162),
ADC and SBC (R190, R191, R205, R206) and the logic operations (R192..R194): O11, O16, O17 and O20. -/

namespace Sys2Proof.Machine

/-- The registers after a result and its flags are taken into A. -/
def takenRegs (result : Byte → Byte → Flags → Byte × Flags) (m : Byte) (r : Regs) : Regs :=
  { r with a := (result r.a m r.p).1, p := (result r.a m r.p).2 }

/-- A well-formed instruction whose handler reads its operand and sets the registers to `f operand registers`. -/
theorem completesWith_reading_of_wellFormed {i : Instr} {m : Mnemonic} (hm : i.mnemonic = some m)
    (noImplied : Mode.imp ∉ m.modes) {effect : Byte → State → State} {f : Byte → Regs → Regs} {s : State}
    (hexec : exec i s = finish i (reading i.operand effect s)) (heffect : ∀ v u, effect v u = u.setRegs (f v u.regs))
    (flat : s.wires.isFlatRam) (wf : i.wellFormed = true) :
    CompletesWith i s (registerEffect i s
      (f (operandIn i.operand s) { s.regs with adl := effectiveAddress i.operand s })
      (pointerReads i.operand s ++ operandReads i.operand s) (crossing i.operand s)) :=
  completesWith_reading hexec heffect flat (operand_ne_imp hm wf noImplied)

/-- Settles O11. -/
theorem loadsTakeTheOperandAndSetNZ : Obligations.LoadsTakeTheOperandAndSetNZ := by
  unfold Obligations.LoadsTakeTheOperandAndSetNZ
  refine ⟨by decide, by decide, by decide, fun o s ⟨flat, _⟩ => ⟨?_, ?_, ?_⟩⟩
  · exact completesWith_reading_of_wellFormed (i := .lda o) rfl (by decide)
      (f := fun m r => { r with a := m, p := setNZ m r.p }) rfl (fun _ _ => rfl) flat
  · exact completesWith_reading_of_wellFormed (i := .ldx o) rfl (by decide)
      (f := fun m r => { r with x := m, p := setNZ m r.p }) rfl (fun _ _ => rfl) flat
  · exact completesWith_reading_of_wellFormed (i := .ldy o) rfl (by decide)
      (f := fun m r => { r with y := m, p := setNZ m r.p }) rfl (fun _ _ => rfl) flat

/-- Settles O16: in either mode of arithmetic A and P take the result. -/
theorem adcAddsWithCarry : Obligations.AdcAddsWithCarry := by
  unfold Obligations.AdcAddsWithCarry
  refine ⟨by decide, fun o s ⟨flat, _⟩ wf => ?_⟩
  have completes := completesWith_reading_of_wellFormed (i := .adc o) rfl (by decide) (f := takenRegs adcResult) rfl
    (fun _ _ => rfl) flat wf
  simp only [takenRegs, adcResult, apply_ite Prod.fst, apply_ite Prod.snd] at completes
  simp only [ne_eq, decide_not]
  exact completes

/-- Settles O17, as O16. -/
theorem sbcSubtractsWithBorrow : Obligations.SbcSubtractsWithBorrow := by
  unfold Obligations.SbcSubtractsWithBorrow
  refine ⟨by decide, fun o s ⟨flat, _⟩ wf => ?_⟩
  have completes := completesWith_reading_of_wellFormed (i := .sbc o) rfl (by decide) (f := takenRegs sbcResult) rfl
    (fun _ _ => rfl) flat wf
  have borrow : 1 - (boolBit s.regs.p.c : Int) = if s.regs.p.c then 0 else 1 := by
    cases s.regs.p.c <;> rfl
  simp only [takenRegs, sbcResult, subBinary, borrow, apply_ite Prod.fst, apply_ite Prod.snd] at completes
  simp only [ne_eq, decide_not]
  exact completes

/-- Settles O20. -/
theorem logicCombinesTheOperandIntoA : Obligations.LogicCombinesTheOperandIntoA := by
  unfold Obligations.LogicCombinesTheOperandIntoA
  refine ⟨by decide, by decide, by decide, fun o s ⟨flat, _⟩ => ⟨?_, ?_, ?_⟩⟩
  · exact completesWith_reading_of_wellFormed (i := .and o) rfl (by decide)
      (f := takenRegs fun a m p => (a &&& m, setNZ (a &&& m) p)) rfl (fun _ _ => rfl) flat
  · exact completesWith_reading_of_wellFormed (i := .ora o) rfl (by decide)
      (f := takenRegs fun a m p => (a ||| m, setNZ (a ||| m) p)) rfl (fun _ _ => rfl) flat
  · exact completesWith_reading_of_wellFormed (i := .eor o) rfl (by decide)
      (f := takenRegs fun a m p => (a ^^^ m, setNZ (a ^^^ m) p)) rfl (fun _ _ => rfl) flat

end Sys2Proof.Machine
end

section
/-! SUPPORT. The shifts and rotates: their results as numbers (R220..R223), and the read-modify-write handler on A and,
with flat RAM, on memory (R88, R140): O25. -/

namespace Sys2Proof.Machine

/-! ### The results as numbers -/

theorem shiftLeft_one_eq (m : Byte) : m <<< 1 = BitVec.ofNat 8 (m.toNat * 2) := by
  apply BitVec.eq_of_toNat_eq
  simp [Nat.shiftLeft_eq]

theorem shiftRight_one_eq (m : Byte) : m >>> 1 = BitVec.ofNat 8 (m.toNat / 2) := by
  apply BitVec.eq_of_toNat_eq
  simp [Nat.shiftRight_eq_div_pow]
  omega

/-- A left rotate lets the old carry into bit 0, which the shift has left clear. -/
theorem rotateLeft_eq (m : Byte) (c : Bool) : m <<< 1 ||| (if c then 0x01 else 0x00) =
    BitVec.ofNat 8 (m.toNat * 2 % 256 + if c then 1 else 0) := by
  revert m c; decide

/-- A right rotate lets the old carry into bit 7, which the shift has left clear. -/
theorem rotateRight_eq (m : Byte) (c : Bool) : m >>> 1 ||| (if c then 0x80 else 0x00) =
    BitVec.ofNat 8 (m.toNat / 2 + (if c then 1 else 0) * 128) := by
  revert m c; decide

/-! ### The handler -/

/-- The modes in which an instruction modifies a byte of memory read no pointer. -/
theorem reads_of_modifying {o : Operand} (h : o.mode ∈ [.zp, .zpx, .abs, .abx]) (s : State) :
    pointerReads o s ++ operandReads o s = [s.readOf (effectiveAddress o s)] := by
  cases o <;> simp [Operand.mode] at h <;> rfl

/-- On a byte of memory a read-modify-write instruction makes one read and then one write (R88, R140). -/
theorem completesWith_modifying_memory {i : Instr} {o : Operand} {s : State} {result : Byte → Flags → Byte × Flags}
    (hexec : exec i s = finish i (modifying o result s)) (ready : s.ready) (memory : o.mode ∈ [.zp, .zpx, .abs, .abx]) :
    CompletesWith i s
      { regs := { s.regs with adl := effectiveAddress o s, p := (result (operandIn o s) s.regs.p).2 },
        memory := stored s (effectiveAddress o s) (result (operandIn o s) s.regs.p).1, pending := s.pending,
        bus := [s.readOf (effectiveAddress o s),
          ⟨true, effectiveAddress o s, (result (operandIn o s) s.regs.p).1⟩],
        cost := i.cost (crossing o s) } := by
  have implied : o ≠ .imp := by rintro rfl; simp [Operand.mode] at memory
  have accumulator : o ≠ .acc := by rintro rfl; simp [Operand.mode] at memory
  have completes := completesWith_modifying hexec ready implied accumulator
  rwa [reads_of_modifying memory s] at completes

/-- On A a read-modify-write instruction makes no transaction and leaves ADL (R126, R140). -/
theorem completesWith_modifying_acc {i : Instr} {s : State} {result : Byte → Flags → Byte × Flags}
    (hexec : exec i s = finish i (modifying .acc result s)) (flat : s.wires.isFlatRam) :
    CompletesWith i s (registerEffect i s
      { s.regs with a := (result s.regs.a s.regs.p).1, p := (result s.regs.a s.regs.p).2 } [] false) :=
  completesWith_of_handled hexec ((handled_refl flat).setRegs _) rfl

/-- What a shift or rotate leaves, by its result and the bit shifted out. -/
theorem completesWith_shifting {i : Instr} {m : Mnemonic} (hm : i.mnemonic = some m)
    (modes : m.modes = [.acc, .zp, .zpx, .abs, .abx]) {result : Byte → Flags → Byte × Flags} {s : State}
    (hexec : exec i s = finish i (modifying i.operand result s)) (ready : s.ready) {v : Byte} {carry : Bool}
    (hresult : result (operandIn i.operand s) s.regs.p = shifted v carry s.regs.p) (wf : i.wellFormed = true) :
    CompletesWith i s (if i.operand = .acc then
        registerEffect i s { s.regs with a := v, p := setNZ v { s.regs.p with c := carry } } [] false
      else
        { regs := { s.regs with adl := effectiveAddress i.operand s, p := setNZ v { s.regs.p with c := carry } },
          memory := stored s (effectiveAddress i.operand s) v, pending := s.pending,
          bus := [s.readOf (effectiveAddress i.operand s), ⟨true, effectiveAddress i.operand s, v⟩],
          cost := i.cost (crossing i.operand s) }) := by
  have mode := mode_mem_of_wellFormed hm wf
  generalize i.operand = o at *
  rw [modes] at mode
  split
  case isTrue accumulator =>
    subst accumulator
    have completes := completesWith_modifying_acc hexec ready.1
    rwa [show result s.regs.a s.regs.p = shifted v carry s.regs.p from hresult] at completes
  case isFalse accumulator =>
    have notAcc : o.mode ≠ .acc := by cases o <;> simp_all [Operand.mode]
    have completes := completesWith_modifying_memory hexec ready ((List.mem_cons.mp mode).resolve_left notAcc)
    rwa [hresult] at completes

/-- Settles O25. -/
theorem shiftsOfTheAccumulatorAndOfMemory : Obligations.ShiftsOfTheAccumulatorAndOfMemory := by
  unfold Obligations.ShiftsOfTheAccumulatorAndOfMemory
  refine ⟨by decide, by decide, by decide, by decide, fun o s ready => ⟨?_, ?_, ?_, ?_⟩⟩
  · exact completesWith_shifting (i := .asl o) (result := aslResult) rfl rfl rfl ready
      (by rw [aslResult, shiftLeft_one_eq])
  · exact completesWith_shifting (i := .lsr o) (result := lsrResult) rfl rfl rfl ready
      (by rw [lsrResult, shiftRight_one_eq])
  · exact completesWith_shifting (i := .rol o) (result := rolResult) rfl rfl rfl ready
      (by rw [rolResult, rotateLeft_eq])
  · exact completesWith_shifting (i := .ror o) (result := rorResult) rfl rfl rfl ready
      (by rw [rorResult, rotateRight_eq])

end Sys2Proof.Machine
end

section
/-! SUPPORT. Jumps (R230, R262), branches (R233..R241) and NOP (R244) with flat RAM, and the handlers that are given no
operand (R139, R263): O26, O29, O32 and O34. -/

namespace Sys2Proof.Machine

/-! ### Where the run ends -/

/-- A handler that reads its operand raises where there is none (R139). -/
theorem reading_imp (effect : Byte → State → State) (s : State) :
    reading .imp effect s = raiseFatal .impliedOperandRequested s.cyc.opcode s := rfl

/-- So does one that modifies its operand, which it reads first (R140). -/
theorem modifying_imp (result : Byte → Flags → Byte × Flags) (s : State) :
    modifying .imp result s = raiseFatal .impliedOperandRequested s.cyc.opcode s := rfl

/-- A fatal condition skips the end of the cycle (R146). -/
theorem finish_raiseFatal (i : Instr) (kind : FatalKind) (opcode : Byte) (s : State) :
    finish i (raiseFatal kind opcode s) = .next { s with run := .fatal kind opcode s.cyc.opcAddr } := rfl

/-! ### JMP -/

/-- In ABS and IND, PC takes the effective address. -/
theorem completesWith_jmp {o : Operand} (h : o.mode = .abs ∨ o.mode = .ind) {s : State} (flat : s.wires.isFlatRam) :
    CompletesWith (.jmp o) s (registerEffect (.jmp o) s
      { s.regs with adl := effectiveAddress o s, pc := effectiveAddress o s } (pointerReads o s) false) := by
  have supported : Mnemonic.jmp.modes.contains o.mode = true := by rcases h with h | h <;> rw [h] <;> rfl
  have uncrossed : crossing o s = false := by cases o <;> simp [Operand.mode] at h <;> rfl
  have handled := handled_resolve flat o
  have handler : exec (.jmp o) s = finish (.jmp o) (.ok false
      (((afterPointer o s).setADL (effectiveAddress o s)).setPC (effectiveAddress o s))) := by
    show finish (.jmp o) ((resolve o s).bind _) = _
    rw [resolve_flatRam flat, Res.bind_ok, if_pos supported, uncrossed]
    rfl
  refine completesWith_of_handled handler ?_ rfl
  rw [State.setPC, handled.regs]
  exact handled.setRegs _

/-- In any other mode flat RAM answers the pointer reads of operand resolution and the run ends. -/
theorem exec_jmp_unsupported {o : Operand} (h : o.mode ≠ .abs ∧ o.mode ≠ .ind) {s : State} (flat : s.wires.isFlatRam) :
    exec (.jmp o) s = .next (((afterPointer o s).setADL (effectiveAddress o s)).setRun
      (.fatal .invalidAddressingMode s.cyc.opcode s.cyc.opcAddr)) := by
  have unsupported : Mnemonic.jmp.modes.contains o.mode = false := by simp [Mnemonic.modes, h]
  show finish (.jmp o) ((resolve o s).bind _) = _
  rw [resolve_flatRam flat, Res.bind_ok, if_neg (Bool.eq_false_iff.mp unsupported)]
  simp [finish_raiseFatal, State.setADL, State.setRun]

/-- Settles O26. -/
theorem jmpTakesTheEffectiveAddress : Obligations.JmpTakesTheEffectiveAddress := by
  unfold Obligations.JmpTakesTheEffectiveAddress
  refine ⟨by decide, fun o s ⟨flat, _⟩ => ⟨fun supported => completesWith_jmp supported flat, fun unsupported => ?_⟩⟩
  have handled := handled_resolve flat o
  refine ⟨_, exec_jmp_unsupported unsupported flat, rfl, ?_, handled.budget, afterPointer_mem o s⟩
  rw [State.setRun_regs, handled.regs]

/-! ### Branches -/

/-- The common branch operation (R233): operand resolution makes no transaction. -/
theorem branch_eq (offset : Byte) (cond : Flags → Bool) (s : State) :
    branch offset cond s = .ok
      (cond s.regs.p && decide (hi8 (s.regs.pc + sext16 offset) ≠ hi8 s.regs.pc))
      (s.setRegs { s.regs with
        adl := s.regs.pc + sext16 offset
        pc := if cond s.regs.p then s.regs.pc + sext16 offset else s.regs.pc }) := by
  show (if cond s.regs.p = true then
    Res.ok (pageDiffers (s.regs.pc + sext16 offset) s.regs.pc) _ else Res.ok false _) = _
  rw [pageDiffers_eq_decide]
  cases cond s.regs.p <;> rfl

/-- What a branch leaves: its slot has 2 base cycles and the page-cross flag (R108). -/
theorem completesWith_branch {i : Instr} {offset : Byte} {cond : Flags → Bool} {s : State}
    (hexec : exec i s = finish i (branch offset cond s)) {opcode : Byte} {m : Mnemonic}
    (slot : i.descriptor = some ⟨opcode, m, .rel, 2, 2, true⟩) (flat : s.wires.isFlatRam) :
    CompletesWith i s
      { regs := { s.regs with
          adl := s.regs.pc + sext16 offset
          pc := if cond s.regs.p then s.regs.pc + sext16 offset else s.regs.pc },
        memory := s.mem.get, pending := s.pending, bus := [],
        cost := if cond s.regs.p && decide (hi8 (s.regs.pc + sext16 offset) ≠ hi8 s.regs.pc) then 3 else 2 } := by
  have cost (crossed : Bool) : (if crossed then 3 else 2) = i.cost crossed := by
    rw [Instr.cost, slot]
    cases crossed <;> rfl
  exact completesWith_of_handled (hexec.trans (by rw [branch_eq])) ((handled_refl flat).setRegs _) (cost _)

/-- Settles O29. -/
theorem branchesAreTakenOnTheirFlag : Obligations.BranchesAreTakenOnTheirFlag := by
  unfold Obligations.BranchesAreTakenOnTheirFlag
  refine ⟨⟨by decide, fun b s ready => ?_⟩, ⟨by decide, fun b s ready => ?_⟩, ⟨by decide, fun b s ready => ?_⟩,
    ⟨by decide, fun b s ready => ?_⟩, ⟨by decide, fun b s ready => ?_⟩, ⟨by decide, fun b s ready => ?_⟩,
    ⟨by decide, fun b s ready => ?_⟩, ⟨by decide, fun b s ready => ?_⟩⟩
  · exact completesWith_branch (i := .bpl b) (cond := fun p => !p.n) rfl rfl ready.1
  · exact completesWith_branch (i := .bmi b) (cond := fun p => p.n) rfl rfl ready.1
  · exact completesWith_branch (i := .bvc b) (cond := fun p => !p.v) rfl rfl ready.1
  · exact completesWith_branch (i := .bvs b) (cond := fun p => p.v) rfl rfl ready.1
  · exact completesWith_branch (i := .bcc b) (cond := fun p => !p.c) rfl rfl ready.1
  · exact completesWith_branch (i := .bcs b) (cond := fun p => p.c) rfl rfl ready.1
  · exact completesWith_branch (i := .bne b) (cond := fun p => !p.z) rfl rfl ready.1
  · exact completesWith_branch (i := .beq b) (cond := fun p => p.z) rfl rfl ready.1

/-! ### NOP, and an operand that is not there -/

/-- Settles O32. -/
theorem nopOnlyCharges : Obligations.NopOnlyCharges := by
  unfold Obligations.NopOnlyCharges
  refine ⟨by decide, fun s ready => ?_⟩
  have cost : Instr.nop.cost false = 2 := by decide
  exact completesWith_of_handled rfl (handled_refl ready.1) cost.symm

/-- Settles O34: each of the fifteen handlers reads or modifies its operand. -/
theorem impliedOperandIsFatal : Obligations.ImpliedOperandIsFatal := by
  unfold Obligations.ImpliedOperandIsFatal
  intro s i listed
  fin_cases listed <;>
    simp only [exec, execLda, execLdx, execLdy, execAdc, execSbc, execAnd, execOra, execEor, execBit, execInc, execDec,
      execAsl, execLsr, execRol, execRor, reading_imp, modifying_imp, finish_raiseFatal]

end Sys2Proof.Machine
end

section
/-! SUPPORT. The transfers between registers with flat RAM (R166..R171): O13. -/

namespace Sys2Proof.Machine

/-- Settles O13: each handler sets the registers and does nothing else. -/
theorem transfersCopyARegister : Obligations.TransfersCopyARegister := by
  unfold Obligations.TransfersCopyARegister
  refine ⟨by decide, by decide, by decide, by decide, by decide, by decide, fun s ⟨flat, _⟩ =>
    ⟨?tax, ?tay, ?txa, ?tya, ?tsx, ?txs⟩⟩
  case tax => exact completesWith_implied (f := fun r => { r with x := r.a, p := setNZ r.a r.p }) rfl (fun _ => rfl) flat
  case tay => exact completesWith_implied (f := fun r => { r with y := r.a, p := setNZ r.a r.p }) rfl (fun _ => rfl) flat
  case txa => exact completesWith_implied (f := fun r => { r with a := r.x, p := setNZ r.x r.p }) rfl (fun _ => rfl) flat
  case tya => exact completesWith_implied (f := fun r => { r with a := r.y, p := setNZ r.y r.p }) rfl (fun _ => rfl) flat
  case tsx => exact completesWith_implied (f := fun r => { r with x := r.sp, p := setNZ r.sp r.p }) rfl (fun _ => rfl) flat
  case txs => exact completesWith_implied (f := fun r => { r with sp := r.x }) rfl (fun _ => rfl) flat

end Sys2Proof.Machine
end

section
/-! SUPPORT. The binary sum and difference and their overflow (R190, R191, R207), and with flat RAM BIT (R195), INC and
DEC (R199, R200) and the steps of the index registers (R201..R204): O18, O19, O21, O23 and O24. -/

namespace Sys2Proof.Machine

/-! ### The binary sum and difference -/

theorem adcResult_of_binary {p : Flags} (binary : p.d = false) (a m : Byte) : adcResult a m p = addBinary a m p := by
  rw [adcResult, binary, if_neg Bool.false_ne_true]

theorem sbcResult_of_binary {p : Flags} (binary : p.d = false) (a m : Byte) : sbcResult a m p = subBinary a m p := by
  rw [sbcResult, binary, if_neg Bool.false_ne_true]

/-- Masking with bit 7 leaves the sign bit. -/
theorem and_signMask_ne_zero (x : Byte) : (x &&& 0x80 != 0) = x.msb := by
  revert x; decide

/-- V of the binary sum: both operands differ in sign from the result (R190). -/
theorem addBinary_v (a m : Byte) (p : Flags) :
    (addBinary a m p).2.v = ((a.msb ^^ (addBinary a m p).1.msb) && (m.msb ^^ (addBinary a m p).1.msb)) := by
  simp only [addBinary, setNZ, and_signMask_ne_zero, BitVec.msb_and, BitVec.msb_xor]

theorem toNat_addBinary (a m : Byte) (p : Flags) :
    (addBinary a m p).1.toNat = (a.toNat + m.toNat + boolBit p.c) % 256 := BitVec.toNat_ofNat _ _

theorem boolBit_le_one (b : Bool) : boolBit b ≤ 1 := by cases b <;> decide

/-- The sign of the result is wrong exactly when the signed sum needs more than 8 bits (R207). -/
theorem addBinary_v_iff (a m : Byte) (p : Flags) :
    (addBinary a m p).2.v = true ↔ a.toInt + m.toInt + boolBit p.c < -128 ∨ 127 < a.toInt + m.toInt + boolBit p.c := by
  have result := toNat_addBinary a m p
  have carry := boolBit_le_one p.c
  simp only [addBinary_v, Bool.and_eq_true, bne_iff_ne, BitVec.msb_eq_decide, ne_eq, decide_eq_decide,
    BitVec.toInt_eq_toNat_cond]
  omega

/-- The difference is 256 less than the sum with the complement, so the two narrow to one byte, and there is no borrow
exactly when that sum has a carry (R191). In a bit where A and the result differ, M is unlike A exactly when its
complement is unlike the result, so V is the same too. -/
theorem subBinary_eq_addBinary_not (a m : Byte) (p : Flags) : subBinary a m p = addBinary a (~~~m) p := by
  have complement : (~~~m).toNat = 255 - m.toNat := BitVec.toNat_not
  have mBound := m.isLt
  have narrowed : BitVec.ofInt 8 ((a.toNat : Int) - m.toNat - (1 - boolBit p.c)) =
      BitVec.ofNat 8 (a.toNat + (~~~m).toNat + boolBit p.c) := by
    apply BitVec.eq_of_toNat_eq
    rw [BitVec.toNat_ofInt, BitVec.toNat_ofNat]
    omega
  have carry : ((a.toNat : Int) - m.toNat - (1 - boolBit p.c) ≥ 0) ↔ a.toNat + (~~~m).toNat + boolBit p.c > 255 := by
    omega
  have overflow (r : Byte) : (a ^^^ m) &&& (a ^^^ r) = (a ^^^ r) &&& (~~~m ^^^ r) := by
    have bits (x y z : Bool) : ((x ^^ y) && (x ^^ z)) = ((x ^^ z) && (!y ^^ z)) := by decide +revert
    ext i
    simp only [BitVec.getElem_and, BitVec.getElem_xor, BitVec.getElem_not, bits]
  simp only [subBinary, addBinary, narrowed, carry, overflow]

/-- Settles O19. -/
theorem sbcIsAdcOfTheComplement : Obligations.SbcIsAdcOfTheComplement := by
  unfold Obligations.SbcIsAdcOfTheComplement
  intro a m p binary
  rw [sbcResult_of_binary binary, adcResult_of_binary binary, subBinary_eq_addBinary_not]

theorem toInt_not_byte (m : Byte) : (~~~m).toInt = -m.toInt - 1 := by
  have complement : (~~~m).toNat = 255 - m.toNat := BitVec.toNat_not
  rw [BitVec.toInt_eq_toNat_cond, BitVec.toInt_eq_toNat_cond]
  omega

/-- Settles O18: the difference is the sum with the complement, whose signed value is -M - 1. -/
theorem overflowMeansOutsideTheSignedRange : Obligations.OverflowMeansOutsideTheSignedRange := by
  unfold Obligations.OverflowMeansOutsideTheSignedRange
  intro a m p binary c sum difference
  have carry : c = boolBit p.c := by simp only [c, boolBit, Nat.cast_ite, Nat.cast_one, Nat.cast_zero]
  have complement : difference = a.toInt + (~~~m).toInt + boolBit p.c := by rw [toInt_not_byte]; omega
  refine ⟨?sum, ?difference⟩
  case sum => rw [adcResult_of_binary binary, addBinary_v_iff, ← carry]
  case difference => rw [sbcResult_of_binary binary, subBinary_eq_addBinary_not, addBinary_v_iff, ← complement]

/-! ### BIT, INC and DEC -/

/-- Settles O21. -/
theorem bitTestsTheOperand : Obligations.BitTestsTheOperand := by
  unfold Obligations.BitTestsTheOperand
  refine ⟨by decide, fun o s ⟨flat, _⟩ => ?_⟩
  exact completesWith_reading_of_wellFormed (i := .bit o) rfl (by decide)
    (f := fun m r => { r with p := bitFlags r.a m r.p }) rfl (fun _ _ => rfl) flat

/-- In a memory mode that reads no pointer, the operand is the byte at the effective address. -/
theorem operandIn_of_modifying {o : Operand} (h : o.mode ∈ [.zp, .zpx, .abs, .abx]) (s : State) :
    operandIn o s = s.byteAt (effectiveAddress o s) := by
  cases o <;> simp [Operand.mode] at h <;> rfl

/-- What a well-formed INC or DEC leaves, by the byte it makes of the one in memory. -/
theorem completesWith_stepping_memory {i : Instr} {m : Mnemonic} (hm : i.mnemonic = some m)
    (modes : m.modes = [.zp, .zpx, .abs, .abx]) {stepped : Byte → Byte} {s : State}
    (hexec : exec i s = finish i (modifying i.operand (fun v p => (stepped v, setNZ (stepped v) p)) s))
    (ready : s.ready) (wf : i.wellFormed = true) :
    let a := effectiveAddress i.operand s
    let v := stepped (s.byteAt a)
    CompletesWith i s
      { regs := { s.regs with adl := a, p := setNZ v s.regs.p },
        memory := stored s a v, pending := s.pending, bus := [s.readOf a, ⟨true, a, v⟩],
        cost := i.cost (crossing i.operand s) } := by
  have memory : i.operand.mode ∈ [.zp, .zpx, .abs, .abx] := modes ▸ mode_mem_of_wellFormed hm wf
  have completes := completesWith_modifying_memory hexec ready memory
  rwa [operandIn_of_modifying memory] at completes

/-- Settles O23. -/
theorem incrementAndDecrementMemory : Obligations.IncrementAndDecrementMemory := by
  unfold Obligations.IncrementAndDecrementMemory
  refine ⟨by decide, by decide, fun o s ready => ⟨?inc, ?dec⟩⟩
  case inc => exact completesWith_stepping_memory (i := .inc o) (stepped := (· + 1)) rfl rfl rfl ready
  case dec => exact completesWith_stepping_memory (i := .dec o) (stepped := (· - 1)) rfl rfl rfl ready

/-! ### The index registers -/

/-- Settles O24: each handler steps its register and sets N and Z, and does nothing else. -/
theorem incrementAndDecrementIndexRegisters : Obligations.IncrementAndDecrementIndexRegisters := by
  unfold Obligations.IncrementAndDecrementIndexRegisters
  refine ⟨by decide, by decide, by decide, by decide, fun s ⟨flat, _⟩ => ⟨?inx, ?iny, ?dex, ?dey⟩⟩
  case inx =>
    exact completesWith_implied (f := fun r => { r with x := r.x + 1, p := setNZ (r.x + 1) r.p }) rfl (fun _ => rfl) flat
  case iny =>
    exact completesWith_implied (f := fun r => { r with y := r.y + 1, p := setNZ (r.y + 1) r.p }) rfl (fun _ => rfl) flat
  case dex =>
    exact completesWith_implied (f := fun r => { r with x := r.x - 1, p := setNZ (r.x - 1) r.p }) rfl (fun _ => rfl) flat
  case dey =>
    exact completesWith_implied (f := fun r => { r with y := r.y - 1, p := setNZ (r.y - 1) r.p }) rfl (fun _ => rfl) flat

end Sys2Proof.Machine
end

section
/-! SUPPORT. With flat RAM, what one instruction leaves for the next, and the two returns: RTS after JSR and RTI after
an entry (R231, R232, R242, R243, R270, R271): O35 and O36. -/

namespace Sys2Proof.Machine

/-! ### From one instruction to the next -/

/-- Flat RAM and canonical memory stay from one instruction to the next. -/
theorem exec_keeps_ready {i : Instr} {s t : State} (ready : s.ready) (h : exec i s = .next t) : t.ready := by
  obtain ⟨⟨rwHigh, rwLow, clockHigh, clockLow⟩, wf⟩ := ready
  have kept := (exec_cases h).devicesKept
  exact ⟨⟨(kept.listeners .rw true).trans rwHigh, (kept.listeners .rw false).trans rwLow,
    (kept.listeners .clock true).trans clockHigh, (kept.listeners .clock false).trans clockLow⟩, kept.wf wf⟩

/-- The architectural part of an effect, in a state from which the next instruction can start. -/
theorem CompletesWith.next {i : Instr} {s : State} {e : Effect} (h : CompletesWith i s e) (ready : s.ready) :
    ∃ t, exec i s = .next t ∧ t.ready ∧ t.regs = e.regs ∧ ∀ a, t.mem.get a = e.memory a := by
  obtain ⟨t, next, regs, memory, -⟩ := h
  exact ⟨t, next, exec_keeps_ready ready next, regs, memory⟩

/-! ### Memory after a pushed word -/

/-- Memory with a word pushed: high byte at SP, low byte below it (R81). -/
def wordStored (w : Word) (s : State) : Nat → Byte := fun n =>
  if n = (stackAddress (s.regs.sp - 1)).toNat then lo8 w else stored s (stackAddress s.regs.sp) (hi8 w) n

theorem wordStored_low (w : Word) (s : State) : wordStored w s (stackAddress (s.regs.sp - 1)).toNat = lo8 w :=
  if_pos rfl

theorem wordStored_high (w : Word) (s : State) : wordStored w s (stackAddress s.regs.sp).toNat = hi8 w := by
  have apart : (stackAddress s.regs.sp).toNat ≠ (stackAddress (s.regs.sp - 1)).toNat :=
    toNat_word_ne Config.stackPage _ _ (by bv_omega)
  exact (if_neg apart).trans (if_pos rfl)

theorem wordStored_elsewhere (w : Word) (s : State) {n : Nat} (high : n ≠ (stackAddress s.regs.sp).toNat)
    (low : n ≠ (stackAddress (s.regs.sp - 1)).toNat) : wordStored w s n = s.mem.get n :=
  (if_neg low).trans (if_neg high)

theorem entryStored_status (ret : Word) (status : Byte) (s : State) :
    entryStored ret status s (stackAddress (s.regs.sp - 2)).toNat = status := if_pos rfl

theorem entryStored_elsewhere (ret : Word) (status : Byte) (s : State) {n : Nat}
    (high : n ≠ (stackAddress s.regs.sp).toNat) (low : n ≠ (stackAddress (s.regs.sp - 1)).toNat)
    (third : n ≠ (stackAddress (s.regs.sp - 2)).toNat) : entryStored ret status s n = s.mem.get n :=
  (if_neg third).trans (wordStored_elsewhere ret s high low)

/-! ### The returns -/

/-- Settles O35: RTS pulls the two bytes that JSR pushed, and adds the one that JSR took off. -/
theorem rtsReturnsFromJsr : Obligations.RtsReturnsFromJsr := by
  unfold Obligations.RtsReturnsFromJsr
  intro w s ready
  obtain ⟨t, called, readyT, regs, memory⟩ := (jsrPushesTheReturnAddressLessOne.2 w s ready).next ready
  change ∀ n, t.mem.get n = wordStored (s.regs.pc - 1) s n at memory
  obtain ⟨u, returned, -, regs', memory'⟩ := (rtsPullsTheAddressAndAddsOne.2 t readyT).next readyT
  have low : t.byteAt (stackAddress (s.regs.sp - 1)) = lo8 (s.regs.pc - 1) := (memory _).trans (wordStored_low _ s)
  have high : t.byteAt (stackAddress s.regs.sp) = hi8 (s.regs.pc - 1) := (memory _).trans (wordStored_high _ s)
  refine ⟨t, u, called, returned, ?_, fun n nHigh nLow => ?_⟩
  · rw [regs', regs]
    dsimp only [registerEffect]
    rw [show s.regs.sp - 2 + 1 = s.regs.sp - 1 by bv_omega, BitVec.sub_add_cancel, low, high, word_hi8_lo8,
      BitVec.sub_add_cancel]
  · exact (memory' n).trans ((memory n).trans (wordStored_elsewhere _ s nHigh nLow))

/-- The flags that RTI leaves, where the entry pushed those of `p`, whatever P.B was pushed and P.I set since: six are
pulled, U and B were never changed (R39, R271). -/
theorem fromByte_getByte_restores (p : Flags) (b i : Bool) :
    fromByte (getByte { p with b := b }) true { p with i := i } = p := by
  obtain ⟨n, v, -, -, d, i, z, c⟩ := getLsbD_getByte { p with b := b }
  simp only [fromByte, n, v, d, i, z, c, if_true]

/-- Settles O36: RTI pulls the status byte and the two bytes of the address that the entry pushed. -/
theorem rtiReturnsFromAnEntry : Obligations.RtiReturnsFromAnEntry := by
  unfold Obligations.RtiReturnsFromAnEntry
  intro s ready
  obtain ⟨-, -, -, entry⟩ := breakAndInterruptEntry
  obtain ⟨t, entered, readyT, regs, memory⟩ := (entry s ready).next ready
  generalize (if s.cyc.forced = true then s.regs.pc else s.regs.pc + 1) = ret at memory ⊢
  change ∀ n, t.mem.get n = entryStored ret (getByte { s.regs.p with b := !s.cyc.forced }) s n at memory
  obtain ⟨u, returned, -, regs', memory'⟩ := (rtiRestoresFlagsAndPc.2 t readyT).next readyT
  have status : t.byteAt (stackAddress (s.regs.sp - 2)) = getByte { s.regs.p with b := !s.cyc.forced } :=
    (memory _).trans (entryStored_status _ _ s)
  have high : t.byteAt (stackAddress s.regs.sp) = hi8 ret := (memory _).trans (entryStored_return _ _ s).1
  have low : t.byteAt (stackAddress (s.regs.sp - 1)) = lo8 ret := (memory _).trans (entryStored_return _ _ s).2
  refine ⟨t, u, entered, returned, ?_, fun n nHigh nLow nStatus => ?_⟩
  · rw [regs', regs]
    dsimp only [registerEffect]
    rw [show s.regs.sp - 3 + 1 = s.regs.sp - 2 by bv_omega, show s.regs.sp - 3 + 2 = s.regs.sp - 1 by bv_omega,
      BitVec.sub_add_cancel, status, low, high, word_hi8_lo8]
    exact congrArg (fun p => { s.regs with pc := ret, p := p }) (fromByte_getByte_restores s.regs.p _ true)
  · exact (memory' n).trans ((memory n).trans (entryStored_elsewhere _ _ s nHigh nLow nStatus))

end Sys2Proof.Machine
end

section
/-! SUPPORT. The flag instructions with flat RAM (R250..R256): O33. -/

namespace Sys2Proof.Machine

/-- An instruction whose handler changes the status register and nothing else. -/
theorem completesWith_flagging {i : Instr} {s : State} {change : Flags → Flags}
    (hexec : exec i s = finish i (flagging change s)) (flat : s.wires.isFlatRam) :
    CompletesWith i s (registerEffect i s { s.regs with p := change s.regs.p } [] false) :=
  completesWith_implied (f := fun r => { r with p := change r.p }) hexec (fun _ => rfl) flat

/-- Settles O33: each handler sets or clears its flag in the status register. -/
theorem flagInstructionsChangeOneFlag : Obligations.FlagInstructionsChangeOneFlag := by
  unfold Obligations.FlagInstructionsChangeOneFlag
  refine ⟨by decide, by decide, by decide, by decide, by decide, by decide, by decide, fun s ⟨flat, _⟩ =>
    ⟨⟨?clc, by decide⟩, ⟨?cld, by decide⟩, ⟨?cli, by decide⟩, ⟨?clv, by decide⟩, ⟨?sec, by decide⟩, ⟨?sed, by decide⟩,
      ⟨?sei, by decide⟩⟩⟩
  case clc => exact completesWith_flagging (change := fun p => { p with c := false }) rfl flat
  case cld => exact completesWith_flagging (change := fun p => { p with d := false }) rfl flat
  case cli => exact completesWith_flagging (change := fun p => { p with i := false }) rfl flat
  case clv => exact completesWith_flagging (change := fun p => { p with v := false }) rfl flat
  case sec => exact completesWith_flagging (change := fun p => { p with c := true }) rfl flat
  case sed => exact completesWith_flagging (change := fun p => { p with d := true }) rfl flat
  case sei => exact completesWith_flagging (change := fun p => { p with i := true }) rfl flat

end Sys2Proof.Machine
end

section
/-! SUPPORT. The moves of the scheduler's agents, one equation per case: the two phases of a tick, the gate, and the step
at each place of `runLoop` (R281, R285, R286, R287, R289): O56, O57 and O58. -/

namespace Sys2Proof.Machine

/-! ### The ticker and the diagnostic agent -/

section
variable {s : State} {rest : List Turn}

theorem step_of_ticker (listed : s.sched.turns = .ticker :: rest) (ticking : s.sched.ticking = true) :
    step s = .next (tickerMove Config.creditPerTick (s.setSched { s.sched with turns := rest })) :=
  (step_of_turns listed).trans (congrArg Host.Outcome.next (if_pos ticking))

/-- tick.1 (R281). -/
theorem step_of_ticker_idle (listed : s.sched.turns = .ticker :: rest) (ticking : s.sched.ticking = true)
    (idle : s.sched.ticker = .idle) :
    step s = .next ((s.setCredit Config.creditPerTick).setSched
      { s.sched with ticker := .granted, turns := rest }) := by
  rw [step_of_ticker listed ticking, tickerMove, State.setSched_sched, idle]
  rfl

/-- tick.2 (R281). -/
theorem step_of_ticker_granted (listed : s.sched.turns = .ticker :: rest) (ticking : s.sched.ticking = true)
    (granted : s.sched.ticker = .granted) :
    step s = .next (s.setSched { s.sched with ticker := .idle, wake := true, turns := rest }) := by
  rw [step_of_ticker listed ticking, tickerMove, State.setSched_sched, granted]
  rfl

end

/-- Settles O56: tick.2 ends in the phase in which tick.1 began. -/
theorem tickStoresCreditThenReleases : Obligations.TickStoresCreditThenReleases := by
  unfold Obligations.TickStoresCreditThenReleases
  intro s rest listed ticking idle
  refine ⟨_, _, step_of_ticker_idle listed ticking idle, ?released, rfl, rfl, rfl⟩
  refine Eq.trans (step_of_ticker_granted rfl ticking rfl) ?_
  rw [← idle]
  rfl

/-- Settles O58: the turn is the exchange, whatever the state. -/
theorem diagnosticReadsAndResetsTotal : Obligations.DiagnosticReadsAndResetsTotal := by
  unfold Obligations.DiagnosticReadsAndResetsTotal
  intro s rest listed
  exact step_of_turns listed

/-! ### The gate -/

theorem creditGate_of_credit {s : State} (credit : 1 ≤ s.budget.credit) : creditGate s = s.setLoop .cycle :=
  if_neg (Int.not_lt.mpr credit)

theorem creditGate_of_wake {s : State} (spent : s.budget.credit < 1) (wake : s.sched.wake = true) :
    creditGate s = (s.setWake false).setLoop .cycle := by
  rw [creditGate, if_pos spent, if_pos wake]

theorem creditGate_of_no_wake {s : State} (spent : s.budget.credit < 1) (wake : s.sched.wake = false) :
    creditGate s = s.setLoop .waiting := by
  rw [creditGate, if_pos spent, wake, if_neg Bool.false_ne_true]

/-- A step that is the gate passes with credit, else takes a release, else waits (R285). -/
theorem step_of_creditGate {s : State} (gate : step s = .next (creditGate s)) :
    (1 ≤ s.budget.credit → step s = .next (s.setLoop .cycle)) ∧
    (s.budget.credit < 1 → s.sched.wake = true → step s = .next ((s.setWake false).setLoop .cycle)) ∧
    (s.budget.credit < 1 → s.sched.wake = false → step s = .next (s.setLoop .waiting)) := by
  rw [gate]
  exact ⟨fun credit => congrArg _ (creditGate_of_credit credit),
    fun spent wake => congrArg _ (creditGate_of_wake spent wake),
    fun spent wake => congrArg _ (creditGate_of_no_wake spent wake)⟩

/-! ### The step at each place of `runLoop`, with no turn listed -/

section
variable {s : State} (running : s.run = .running) (turns : s.sched.turns = [])
include running turns

/-- `runLoop` is called (R296). -/
theorem step_of_idle (loop : s.loop = .idle) : step s = .next (s.setLoop .boundary) := by
  rw [step_eq_executionMove turns running (by rw [State.blocked, loop]), executionMove, loop]

/-- `stop` is looked at first, then `pause`, then the gate (R287). -/
theorem step_of_boundary (loop : s.loop = .boundary) :
    step s = .next (if s.sched.stop then s.setRun .stopped
      else if s.sched.pause then s.setLoop .held else creditGate s) := by
  rw [step_eq_executionMove turns running (by rw [State.blocked, loop]), executionMove, loop]

theorem step_of_held (loop : s.loop = .held) (pause : s.sched.pause = true) : step s = .fault .heldByPause := by
  simp [step, turns, defaultTurn, running, State.blocked, loop, pause]

/-- The end of a hold goes on to the gate, whatever `stop` holds (notes/assumptions/17.md). -/
theorem step_of_held_ends (loop : s.loop = .held) (pause : s.sched.pause = false) :
    step s = .next (creditGate s) := by
  rw [step_eq_executionMove turns running (by rw [State.blocked, loop, pause]), executionMove, loop]

/-- A release ends the wait, without another look at the credit (R285). -/
theorem step_of_waiting_ends (loop : s.loop = .waiting) (wake : s.sched.wake = true) :
    step s = .next ((s.setWake false).setLoop .cycle) := by
  rw [step_eq_executionMove turns running (by rw [State.blocked, loop, wake]; rfl), executionMove, loop]

theorem step_of_waiting_starved (loop : s.loop = .waiting) (wake : s.sched.wake = false)
    (ticking : s.sched.ticking = false) : step s = .fault .starved := by
  simp [step, turns, defaultTurn, running, State.blocked, loop, wake, ticking]

end

/-- Settles O57, by the step at each place of the loop; the gate at the boundary is the gate at the end of a hold. -/
theorem runLoopOrder : Obligations.RunLoopOrder := by
  unfold Obligations.RunLoopOrder
  intro s running turns
  refine ⟨step_of_idle running turns, fun loop => ⟨fun stop => ?stopped, fun stop pause => ?paused,
      fun stop pause => step_of_creditGate ?passed⟩,
    fun loop => ⟨step_of_held running turns loop,
      fun pause => step_of_creditGate (step_of_held_ends running turns loop pause)⟩,
    fun loop => ⟨step_of_waiting_ends running turns loop, step_of_waiting_starved running turns loop⟩⟩
  case stopped => rw [step_of_boundary running turns loop, stop]; rfl
  case paused => rw [step_of_boundary running turns loop, stop, pause]; rfl
  case passed => rw [step_of_boundary running turns loop, stop, pause]; rfl

end Sys2Proof.Machine
end
